-- ==== Sys2Proof/Word.lean ====
section
/-! DEFINITION. The word, byte and register-index types of the LC-3 core (spec/00_scope.md R5, R8). -/
namespace Sys2Proof

/-- A Word: 16 bits, numbered 15 down to 0 (R5 `XLEN`, `CELL_BITS`, R8). Addresses are Words too (R5 `ADDR_BITS`). -/
abbrev Word := BitVec 16

/-- A console character or half a Word: 8 bits (R70). -/
abbrev Byte := BitVec 8

/-- A register field: 3 bits, every value names one of R0 to R7 (R20, R92). -/
abbrev RegIdx := BitVec 3

end Sys2Proof
end

