-- ==== Sys2Proof/Config.lean ====
section
/-! DEFINITION. The five parameters the spec leaves open (spec/00_scope.md R6), as plain data. A machine carries its
parameters in `State.cfg`, so a statement about every state is a statement for every value of the parameters. -/
namespace Sys2Proof

/-- The open parameters of R6. -/
structure Config where
  /-- `KBSR_ADDR`, address of the keyboard status register (R6, R58, decision D4). -/
  kbsrAddr : Word
  /-- `KBDR_ADDR`, address of the keyboard data register; must differ from `KBSR_ADDR` (R6, R58, decision D4). -/
  kbdrAddr : Word
  /-- `IN_PROMPT`, the byte string the IN service writes before it reads (R6, R240, decision D16). -/
  inPrompt : List Byte
  /-- `LOAD_MIN_ORIGIN`, lowest origin the loader accepts (R6, R307, decision D21). -/
  loadMinOrigin : Word
  /-- `JSRR_LINK_FIRST`, whether JSRR writes R7 before it reads BaseR (R6, R208, decision D13). -/
  jsrrLinkFirst : Bool
  deriving DecidableEq, Repr

/-- The defaults of R6. The prompt is the 19 bytes of `Enter a character: `. -/
def Config.default : Config where
  kbsrAddr := 0xFE00#16
  kbdrAddr := 0xFE02#16
  inPrompt := [0x45#8, 0x6E#8, 0x74#8, 0x65#8, 0x72#8, 0x20#8, 0x61#8, 0x20#8, 0x63#8, 0x68#8, 0x61#8, 0x72#8,
    0x61#8, 0x63#8, 0x74#8, 0x65#8, 0x72#8, 0x3A#8, 0x20#8]
  loadMinOrigin := 0x0000#16
  jsrrLinkFirst := true

/-- The one condition R6 puts on the parameters: the two device addresses differ. -/
abbrev Config.wf (c : Config) : Prop := c.kbsrAddr ≠ c.kbdrAddr

end Sys2Proof
end

