-- ==== Sys2Proof/Machine/State.lean ====
section
/-! DEFINITION. The state of the machine as plain data (spec/10_state.md R20 to R35), its environment's two console
streams (spec/20_memory.md R70), the reasons a step can stop, and the state right after reset (R35, R300). -/
namespace Sys2Proof.Machine

/-- The run state (R33). -/
inductive RunState where
  /-- Reset done, not running. -/
  | idle
  /-- The core executes one instruction after another. -/
  | running
  /-- Terminal: the HALT service ran. -/
  | halted
  /-- Terminal: a fault ended the run. -/
  | faulted
  /-- Terminal: the host ended the run between two instructions. -/
  | stopped
  deriving DecidableEq, Repr

/-- The fault kinds of the fault record (R34, spec/60_exceptions.md R266). -/
inductive FaultKind where
  | none
  | illegalInstruction
  | illegalTrap
  | ioError
  deriving DecidableEq, Repr

/-- The instruction the core is held inside while it waits for a character: GETC, or IN after its prompt, with the
instruction's ignored bits (spec/20_memory.md R72, spec/46_trap.md R234, R240). DESIGN CHOICE, log 4. -/
inductive Held where
  | getc (ign118 : BitVec 4)
  | inChar (ign118 : BitVec 4)
  deriving DecidableEq, Repr

/-- The one load of a reset (spec/92_eei_decisions.md D20). How it is kept: DESIGN CHOICE, log 6. -/
inductive LoadStatus where
  /-- No load since reset. -/
  | notLoaded
  /-- The image is in memory (spec/70_reset_and_hazards.md R306). -/
  | loaded
  /-- The load was a LoadError: `run` never becomes RUNNING (spec/60_exceptions.md R265, log 14). -/
  | failed
  deriving DecidableEq, Repr

/-- Memory as (address, Word) pairs in one canonical form, `Memory.wf`. The spec's unit is the Word and there are no byte
addresses (spec/20_memory.md R50, R53); DESIGN CHOICE, log 8. -/
abbrev Memory := List (Nat × Word)

/-- What an address that is not listed holds: 0x0000, the reset content (R31, spec/70_reset_and_hazards.md R301). -/
def Memory.unlisted : Word := 0x0000#16

/-- Every listed address lies at `lo` or above and below 65536, addresses rise strictly, and no listed Word equals what an
unlisted address holds. -/
def Memory.wfFrom (lo : Nat) : Memory → Bool
  | [] => true
  | (a, v) :: t => decide (lo ≤ a ∧ a < 65536 ∧ v ≠ Memory.unlisted) && Memory.wfFrom (a + 1) t

/-- The canonical form: equal memories are equal lists. -/
def Memory.wf (m : Memory) : Bool := Memory.wfFrom 0 m

/-- Everything the spec gives the machine, the console streams its environment owns, and the parameters of R6. -/
structure State where
  /-- `x[0]` to `x[7]` (R20). -/
  regs : Vector Word 8
  /-- The program counter (R23). -/
  pc : Word
  /-- The condition flags {N, Z, P} in bits 2, 1, 0 (R26). -/
  cond : BitVec 3
  /-- The memory (R31). -/
  mem : Memory
  /-- What a KBDR read returns when no character is pending (R32). -/
  kbdrLatch : Word
  /-- The run state (R33). -/
  run : RunState
  /-- The fault record's kind (R34). -/
  faultKind : FaultKind
  /-- The fault record's address of the faulting instruction (R34). -/
  faultPc : Word
  /-- The fault record's instruction Word (R34). -/
  faultIr : Word
  /-- `con_in`: delivered, not yet taken; oldest first (spec/20_memory.md R70). -/
  conIn : List Byte
  /-- `con_out`: everything written; oldest first (spec/20_memory.md R70). -/
  conOut : List Byte
  /-- For each console call to come, whether the environment fails it; calls past the end answer (spec/20_memory.md R75).
  The model's own field, log 2. -/
  conFails : List Bool
  /-- The GETC or IN the core is held inside (spec/20_memory.md R72). The model's own field, log 4. -/
  hold : Option Held
  /-- A stop the host requested and the core has not honoured yet (spec/70_reset_and_hazards.md R309), log 5. -/
  stopReq : Bool
  /-- What has become of the one load of this reset (spec/70_reset_and_hazards.md R306, spec/60_exceptions.md R265), logs 6
  and 14. -/
  loadStatus : LoadStatus
  /-- The parameters of spec/00_scope.md R6, log 7. -/
  cfg : Config
  deriving DecidableEq, Repr

/-- The reasons a step can stop instead of answering a next state. The spec's three faults are not among them: each is a
next state with `run` FAULTED and the fault record written (spec/60_exceptions.md R264). -/
inductive Fault where
  /-- Raised by PUTS and PUTSP when no terminator is ever read: the service never completes, "stuck (not a fault)"
  (spec/93_implementation_defined.md U12). Only a state whose KBSR and KBDR share one address, which R6 forbids, can raise
  it (log 9). Safe. -/
  | stringNeverEnds
  deriving DecidableEq, Repr

/-- The reasons a step can refuse an instruction. -/
inductive Refusal where
  /-- Raised by an arm of `exec` that has no meaning yet; no arm raises it. Safe. -/
  | notModelled (mnemonic : String)
  deriving DecidableEq, Repr

/-- The machine right after reset (R35, spec/70_reset_and_hazards.md R300), with the default parameters and an empty
console (logs 2, 3, 5, 6, 7). -/
def State.reset : State where
  regs := #v[0x0000#16, 0x0000#16, 0x0000#16, 0x0000#16, 0x0000#16, 0x0000#16, 0x0000#16, 0x0000#16]
  pc := 0x3000#16
  cond := 0b010#3
  mem := []
  kbdrLatch := 0x0000#16
  run := .idle
  faultKind := .none
  faultPc := 0x0000#16
  faultIr := 0x0000#16
  conIn := []
  conOut := []
  conFails := []
  hold := none
  stopReq := false
  loadStatus := .notLoaded
  cfg := Config.default

end Sys2Proof.Machine
end

