-- ==== Sys2Proof/Machine/Ops.lean ====
section
/-! DEFINITION. The named operations every meaning is built from: registers, the memory array, the console, the two device
registers, MemRead and MemWrite, the fetch, raising a fault, being held, and the effects of HALT and of a stop. -/
namespace Sys2Proof.Machine

/-! ### Registers and the program counter (spec/10_state.md R20, R23) -/

/-- `x[i]`. -/
def readReg (i : RegIdx) (s : State) : Word := s.regs[i.toNat]'i.isLt

/-- `x[i] <- v`. No register is hardwired. -/
def writeReg (i : RegIdx) (v : Word) (s : State) : State := { s with regs := s.regs.set i.toNat v i.isLt }

/-- `pc <- target`. -/
def setPc (target : Word) (s : State) : State := { s with pc := target }

/-- R0, the register of the console services (R21). -/
def R0 : RegIdx := 0#3

/-- R7, the link register (R21). -/
def R7 : RegIdx := 7#3

/-- `x[7] <- pc`, the return address of JSR, JSRR and TRAP (R21). -/
def linkR7 (s : State) : State := writeReg R7 s.pc s

/-! ### The memory array, no device interception (spec/20_memory.md R50) -/

/-- `mem[a]`. -/
def Memory.read : Memory → Nat → Word
  | [], _ => Memory.unlisted
  | (b, w) :: t, a => if a = b then w else Memory.read t a

/-- `mem[a] <- v`, keeping the canonical form: writing what an unlisted address holds removes the entry. -/
def Memory.write : Memory → Nat → Word → Memory
  | [], a, v => if v = Memory.unlisted then [] else [(a, v)]
  | (b, w) :: t, a, v =>
    if a < b then (if v = Memory.unlisted then (b, w) :: t else (a, v) :: (b, w) :: t)
    else if a = b then (if v = Memory.unlisted then t else (a, v) :: t)
    else (b, w) :: Memory.write t a v

/-! ### The console (spec/20_memory.md R70 to R75) -/

/-- The answer of a console call, or of anything that makes one: a value, or a failure, which raises IOError (R75). Either
way the state carries the console effects made so far, which are never undone (spec/40_instruction_cycle.md R132). -/
inductive Con (α : Type) where
  | ok (a : α) (s : State)
  | fail (s : State)
  deriving DecidableEq, Repr

/-- Whether the environment fails the next console call; a call it has decided nothing about answers (R75, log 2). -/
def nextCallFails (s : State) : Bool :=
  match s.conFails with
  | [] => false
  | b :: _ => b

/-- The state once the next console call is made, as far as the answers to come go. -/
def callMade (s : State) : State := { s with conFails := s.conFails.tail }

/-- `ConsoleReady()`: is a character pending (R71). -/
def consoleReady (s : State) : Con Bool :=
  if nextCallFails s then .fail (callMade s) else .ok (!s.conIn.isEmpty) (callMade s)

/-- `ConsoleGet()`: takes the oldest pending character; `none` when there is none and the core is held (R72). -/
def consoleGet (s : State) : Con (Option Byte) :=
  if nextCallFails s then .fail (callMade s)
  else
    match s.conIn with
    | [] => .ok none (callMade s)
    | c :: rest => .ok (some c) { callMade s with conIn := rest }

/-- `ConsolePut(b)`: appends to the output (R73). -/
def consolePut (b : Byte) (s : State) : Con Unit :=
  if nextCallFails s then .fail (callMade s) else .ok () { callMade s with conOut := s.conOut ++ [b] }

/-- `ConsolePut` of each byte in order, ended by the first failure (R73, R75). -/
def consolePutAll : List Byte → State → Con Unit
  | [], s => .ok () s
  | b :: rest, s =>
    match consolePut b s with
    | .fail s1 => .fail s1
    | .ok _ s1 => consolePutAll rest s1

/-- `ConsoleFlush()`: `con_out` is the observable, so it changes nothing there (R74). -/
def consoleFlush (s : State) : Con Unit :=
  if nextCallFails s then .fail (callMade s) else .ok () (callMade s)

/-! ### The keyboard device registers (spec/20_memory.md R60 to R66) -/

/-- `zext_8(c)` (spec/00_scope.md R10). -/
def zext8 (c : Byte) : Word := c.zeroExtend 16

/-- Read of KBSR: READY in bit 15, bits 14:0 zero (R60, R61). -/
def kbsrRead (s : State) : Con Word :=
  match consoleReady s with
  | .fail s1 => .fail s1
  | .ok ready s1 => .ok (if ready then 0x8000#16 else 0x0000#16) s1

/-- Read of KBDR: consumes a pending character into the latch (R64), or returns the latch (R65). ConsoleGet is called
only when a character is pending, so its `none` is not reached (R72). -/
def kbdrRead (s : State) : Con Word :=
  match consoleReady s with
  | .fail s1 => .fail s1
  | .ok ready s1 =>
    if ready then
      match consoleGet s1 with
      | .fail s2 => .fail s2
      | .ok none s2 => .ok s2.kbdrLatch s2
      | .ok (some c) s2 => .ok (zext8 c) { s2 with kbdrLatch := zext8 c }
    else .ok s1.kbdrLatch s1

/-- Whether `a` is one of the two device addresses (R58). -/
def isDevice (a : Word) (s : State) : Bool := a == s.cfg.kbsrAddr || a == s.cfg.kbdrAddr

/-! ### MemRead and MemWrite (spec/20_memory.md R55, R56) -/

/-- `MemRead(addr, 16)`. -/
def memRead (a : Word) (s : State) : Con Word :=
  if a = s.cfg.kbsrAddr then kbsrRead s
  else if a = s.cfg.kbdrAddr then kbdrRead s
  else .ok (s.mem.read a.toNat) s

/-- `MemWrite(addr, 16, v)`: discarded at a device address. -/
def memWrite (a v : Word) (s : State) : State :=
  if isDevice a s then s else { s with mem := s.mem.write a.toNat v }

/-! ### The fetch (spec/40_instruction_cycle.md R130) -/

/-- Steps (1) and (2) of the cycle: `ir <- MemRead(pc0, 16)`, `pc <- pc0 + 1`. -/
def fetch (s : State) : Con Word :=
  match memRead s.pc s with
  | .fail s1 => .fail s1
  | .ok ir s1 => .ok ir (setPc (s.pc + 1#16) s1)

/-! ### Leaving an instruction without committing it

A meaning gets the state after the fetch, `s0`: `x`, `cond` and `mem` are the pre-fetch values and `pc` is `pc0 + 1`. -/

/-- `pc0`, from the state a meaning gets (spec/40_instruction_cycle.md R131). -/
def fetchedFrom (s0 : State) : Word := s0.pc - 1#16

/-- `s1` with `x`, `pc`, `cond` and `mem` at their values before the instruction's fetch. `kbdr_latch` and the console
streams stay as `s1` has them (spec/40_instruction_cycle.md R133). -/
def uncommitted (pc0 : Word) (s0 s1 : State) : State :=
  { s1 with regs := s0.regs, pc := pc0, cond := s0.cond, mem := s0.mem }

/-- TAKING A FAULT, `raise F(pc0, ir)` (spec/60_exceptions.md R264): nothing is committed, the fault record is written,
`run` becomes FAULTED. `s0` is the state the instruction began in, `s1` the one it had reached. There is no return from a
fault (R270): the one return instruction, RTI, raises IllegalInstruction itself. -/
def raiseFault (kind : FaultKind) (pc0 ir : Word) (s0 s1 : State) : State :=
  { uncommitted pc0 s0 s1 with faultKind := kind, faultPc := pc0, faultIr := ir, run := .faulted, hold := none }

/-- The core is held inside the instruction `h` until a character is delivered (spec/20_memory.md R72): nothing is
committed (log 4). -/
def holdIn (h : Held) (s0 s1 : State) : State := { uncommitted (fetchedFrom s0) s0 s1 with hold := some h }

/-- The waiting instruction has its character: the core is no longer held. -/
def release (s : State) : State := { s with hold := none }

/-- `halt`: `run <- HALTED` (spec/46_trap.md R246). -/
def haltCore (s : State) : State := { s with run := .halted }

/-- The core honours a stop request (spec/70_reset_and_hazards.md R309). -/
def honourStop (s : State) : State := { s with run := .stopped, stopReq := false }

/-- Goes on with the answer of a console-dependent read, or raises IOError from what the failure left (R263). -/
def orIOError {α : Type} (ir : Word) (s0 : State) (r : Con α) (k : α → State → State) : State :=
  match r with
  | .fail s1 => raiseFault .ioError (fetchedFrom s0) ir s0 s1
  | .ok a s1 => k a s1

/-! ### Where the host's one-word test stands -/

/-- `pc`, or a nearby plain address if `pc` is a device address (at most two of three addresses are devices). -/
def plainFetchAddr (s : State) : Word :=
  if !isDevice s.pc s then s.pc
  else if !isDevice 0x3000#16 s then 0x3000#16
  else if !isDevice 0x3001#16 s then 0x3001#16
  else 0x3002#16

end Sys2Proof.Machine
end

