-- ==== Sys2Proof/Machine/Flags.lean ====
section
/-! DEFINITION. The condition flags: `setcc` (spec/40_instruction_cycle.md R134) and BR's test (spec/44_control.md R200).
There is no carry and no overflow flag (R135). -/
namespace Sys2Proof.Machine

/-- The flags of a Word: bit 15 gives N, zero gives Z, the rest P (R134). -/
def condOf (v : Word) : BitVec 3 :=
  if v.msb then 0b100#3 else if v = 0 then 0b010#3 else 0b001#3

/-- `setcc(v)` (R134). -/
def setcc (v : Word) (s : State) : State := { s with cond := condOf v }

/-- `x[dr] <- v; setcc(v)`, the end of the seven instructions that write `cond` (spec/10_state.md R27). -/
def writeResult (dr : RegIdx) (v : Word) (s : State) : State := setcc v (writeReg dr v s)

/-- `ir[11:9]` of a BR (spec/30_encoding.md R98). -/
def nzpMask (n z p : Bool) : BitVec 3 := BitVec.ofBool n ++ BitVec.ofBool z ++ BitVec.ofBool p

/-- `(ir[11:9] & cond) != 0` (R200). -/
def branchTaken (n z p : Bool) (s : State) : Bool := (nzpMask n z p &&& s.cond) != 0#3

end Sys2Proof.Machine
end

