-- ==== Sys2Proof/Machine/Operands.lean ====
section
/-! DEFINITION. Every operand form: the four sign extensions (spec/30_encoding.md R93 to R96), the three effective-address
computations (spec/42_load.md R178), JSR's target, and the bytes of a Word (spec/20_memory.md R54). -/
namespace Sys2Proof.Machine

/-- `sext_5` (R93). -/
def sext5 (f : BitVec 5) : Word := f.signExtend 16

/-- `sext_6` (R94). -/
def sext6 (f : BitVec 6) : Word := f.signExtend 16

/-- `sext_9` (R95). -/
def sext9 (f : BitVec 9) : Word := f.signExtend 16

/-- `sext_11` (R96). -/
def sext11 (f : BitVec 11) : Word := f.signExtend 16

/-- PC-relative: `pc + sext_9(PCoffset9)`, `pc` already incremented (R95, R178). -/
def pcRel9 (off9 : BitVec 9) (s : State) : Word := s.pc + sext9 off9

/-- JSR's target: `pc + sext_11(PCoffset11)` (R96). -/
def pcRel11 (off11 : BitVec 11) (s : State) : Word := s.pc + sext11 off11

/-- Base plus offset: `x[BaseR] + sext_6(offset6)` (R94, R178). -/
def baseOff6 (baseR : RegIdx) (off6 : BitVec 6) (s : State) : Word := readReg baseR s + sext6 off6

/-- Indirect: the Word that `MemRead` returns at the PC-relative address (R178). -/
def indirect9 (off9 : BitVec 9) (s : State) : Con Word := memRead (pcRel9 off9 s) s

/-- `w[7:0]`. -/
def lowByte (w : Word) : Byte := w.extractLsb' 0 8

/-- `w[15:8]`. -/
def highByte (w : Word) : Byte := w.extractLsb' 8 8

end Sys2Proof.Machine
end

