-- ==== Sys2Proof/Machine/Control.lean ====
section
/-! DEFINITION. BR, JMP, JSR and JSRR (spec/44_control.md). -/
namespace Sys2Proof.Machine

/-- BR (R200). -/
def execBr (n z p : Bool) (off9 : BitVec 9) (s : State) : Host.Outcome State Fault Refusal :=
  .next (if branchTaken n z p s then setPc (pcRel9 off9 s) s else s)

/-- JMP; RET is `BaseR = 7` (R204). -/
def execJmp (baseR : RegIdx) (s : State) : Host.Outcome State Fault Refusal :=
  .next (setPc (readReg baseR s) s)

/-- JSR: the return address, then the target, both from the incremented PC (R206). -/
def execJsr (off11 : BitVec 11) (s : State) : Host.Outcome State Fault Refusal :=
  .next (setPc (pcRel11 off11 s) (linkR7 s))

/-- JSRR: R7 is written before BaseR is read when `JSRR_LINK_FIRST` holds, after it otherwise (R208, R6). -/
def execJsrr (baseR : RegIdx) (s : State) : Host.Outcome State Fault Refusal :=
  .next (setPc (if s.cfg.jsrrLinkFirst then readReg baseR (linkR7 s) else readReg baseR s) (linkR7 s))

end Sys2Proof.Machine
end

