-- ==== Sys2Proof/Syntax.lean ====
section
/-! DEFINITION. The instructions: one constructor per row of spec/opcode_table.json (25 rows), in the table's order. An
operand is the raw field of spec/30_encoding.md R91. The bits R102 calls ignored are kept as operands named `ign…`: no
meaning reads them, but a fault records the whole instruction Word (spec/60_exceptions.md R266), so they are not dropped. -/
namespace Sys2Proof

inductive Instr where
  /-- BR, `0000 n z p PCoffset9` (R200). -/
  | br (n z p : Bool) (off9 : BitVec 9)
  /-- ADD, register form, `0001 DR SR1 0 -- SR2` (R150). -/
  | addReg (dr sr1 sr2 : RegIdx) (ign43 : BitVec 2)
  /-- ADD, immediate form, `0001 DR SR1 1 imm5` (R152). -/
  | addImm (dr sr1 : RegIdx) (imm5 : BitVec 5)
  /-- LD, `0010 DR PCoffset9` (R170). -/
  | ld (dr : RegIdx) (off9 : BitVec 9)
  /-- ST, `0011 SR PCoffset9` (R190). -/
  | st (sr : RegIdx) (off9 : BitVec 9)
  /-- JSRR, `0100 0 -- BaseR ------` (R208). -/
  | jsrr (baseR : RegIdx) (ign109 : BitVec 2) (ign50 : BitVec 6)
  /-- JSR, `0100 1 PCoffset11` (R206). -/
  | jsr (off11 : BitVec 11)
  /-- AND, register form, `0101 DR SR1 0 -- SR2` (R154). -/
  | andReg (dr sr1 sr2 : RegIdx) (ign43 : BitVec 2)
  /-- AND, immediate form, `0101 DR SR1 1 imm5` (R156). -/
  | andImm (dr sr1 : RegIdx) (imm5 : BitVec 5)
  /-- LDR, `0110 DR BaseR offset6` (R174). -/
  | ldr (dr baseR : RegIdx) (off6 : BitVec 6)
  /-- STR, `0111 SR BaseR offset6` (R194). -/
  | str (sr baseR : RegIdx) (off6 : BitVec 6)
  /-- RTI, `1000 ------------`, always illegal (R220). -/
  | rti (ign110 : BitVec 12)
  /-- NOT, `1001 DR SR ------` (R158). -/
  | not (dr sr : RegIdx) (ign50 : BitVec 6)
  /-- LDI, `1010 DR PCoffset9` (R172). -/
  | ldi (dr : RegIdx) (off9 : BitVec 9)
  /-- STI, `1011 SR PCoffset9` (R192). -/
  | sti (sr : RegIdx) (off9 : BitVec 9)
  /-- JMP, `1100 --- BaseR ------`; RET is BaseR = 7 (R204). -/
  | jmp (baseR : RegIdx) (ign119 : BitVec 3) (ign50 : BitVec 6)
  /-- RESERVED, `1101 ------------`, always illegal (R222). -/
  | reserved (ign110 : BitVec 12)
  /-- LEA, `1110 DR PCoffset9` (R176). -/
  | lea (dr : RegIdx) (off9 : BitVec 9)
  /-- TRAP, the general row, `1111 ---- trapvect8`: a vector that selects no service (R230, R248). -/
  | trap (trapvect8 : BitVec 8) (ign118 : BitVec 4)
  /-- GETC, TRAP 0x20 (R234). -/
  | getc (ign118 : BitVec 4)
  /-- OUT, TRAP 0x21 (R236). -/
  | out (ign118 : BitVec 4)
  /-- PUTS, TRAP 0x22 (R238). -/
  | puts (ign118 : BitVec 4)
  /-- IN, TRAP 0x23 (R240); `in` is a word of Lean's. -/
  | inChar (ign118 : BitVec 4)
  /-- PUTSP, TRAP 0x24 (R242). -/
  | putsp (ign118 : BitVec 4)
  /-- HALT, TRAP 0x25 (R246). -/
  | halt (ign118 : BitVec 4)
  deriving DecidableEq, Repr

end Sys2Proof
end

