-- ==== Sys2Proof/WellFormed.lean ====
section
/-! DEFINITION. Which instruction terms a Word can decode to. Every operand of every width is legal (spec/30_encoding.md
R92), so the one check is that of R108: the general TRAP row holds no vector that one of the six service rows holds. -/
namespace Sys2Proof

/-- The six recognised vectors, 0x20 to 0x25 (spec/46_trap.md R231). -/
def isServiceVector (v : BitVec 8) : Bool := decide (0x20 ≤ v.toNat ∧ v.toNat ≤ 0x25)

/-- An instruction term some Word decodes to. -/
def Instr.wf : Instr → Bool
  | .trap v _ => !isServiceVector v
  | .br _ _ _ _ | .addReg _ _ _ _ | .addImm _ _ _ | .ld _ _ | .st _ _ | .jsrr _ _ _ | .jsr _ | .andReg _ _ _ _
  | .andImm _ _ _ | .ldr _ _ _ | .str _ _ _ | .rti _ | .not _ _ _ | .ldi _ _ | .sti _ _ | .jmp _ _ _ | .reserved _
  | .lea _ _ | .getc _ | .out _ | .puts _ | .inChar _ | .putsp _ | .halt _ => true

/-- `Instr.wf` as a proposition. -/
abbrev Instr.WellFormed (i : Instr) : Prop := i.wf = true

end Sys2Proof
end

