-- ==== Sys2Proof/Decode.lean ====
section
/-! DEFINITION. The decoder (total, spec/30_encoding.md R101), the encoder written from the same format table (R91), the
assembler's choice of the ignored bits (R91's bracketed values, R102), and the host's view of the decoder. -/
namespace Sys2Proof

/-- `w[lo+len-1 : lo]`, the field of `len` bits whose lowest bit is bit `lo` (R8). -/
def field (w : Word) (lo len : Nat) : BitVec len := w.extractLsb' lo len

/-- `w[i]`, one bit (R8). -/
def bit (w : Word) (i : Nat) : Bool := w.getLsbD i

/-- Opcode 0001 and 0101: bit 5 picks the register or the immediate form (R98). -/
def decodeOperate (reg : RegIdx → RegIdx → RegIdx → BitVec 2 → Instr) (imm : RegIdx → RegIdx → BitVec 5 → Instr)
    (w : Word) : Instr :=
  if bit w 5 then imm (field w 9 3) (field w 6 3) (field w 0 5)
  else reg (field w 9 3) (field w 6 3) (field w 0 3) (field w 3 2)

/-- Opcode 0100: bit 11 picks JSR or JSRR (R98). -/
def decodeJump (w : Word) : Instr :=
  if bit w 11 then .jsr (field w 0 11) else .jsrr (field w 6 3) (field w 9 2) (field w 0 6)

/-- Opcode 1111: `ir[7:0]` selects one of the six service rows or the general row (R101, R108, spec/46_trap.md R231). -/
def decodeTrap (w : Word) : Instr :=
  match (field w 0 8).toNat with
  | 0x20 => .getc (field w 8 4)
  | 0x21 => .out (field w 8 4)
  | 0x22 => .puts (field w 8 4)
  | 0x23 => .inChar (field w 8 4)
  | 0x24 => .putsp (field w 8 4)
  | 0x25 => .halt (field w 8 4)
  | _ => .trap (field w 0 8) (field w 8 4)

/-- The decoder: `ir[15:12]` selects the row of R100. Every Word decodes (R101), so it refuses nothing. -/
def decode (w : Word) : Instr :=
  match (field w 12 4).toNat with
  | 0x0 => .br (bit w 11) (bit w 10) (bit w 9) (field w 0 9)
  | 0x1 => decodeOperate .addReg .addImm w
  | 0x2 => .ld (field w 9 3) (field w 0 9)
  | 0x3 => .st (field w 9 3) (field w 0 9)
  | 0x4 => decodeJump w
  | 0x5 => decodeOperate .andReg .andImm w
  | 0x6 => .ldr (field w 9 3) (field w 6 3) (field w 0 6)
  | 0x7 => .str (field w 9 3) (field w 6 3) (field w 0 6)
  | 0x8 => .rti (field w 0 12)
  | 0x9 => .not (field w 9 3) (field w 6 3) (field w 0 6)
  | 0xA => .ldi (field w 9 3) (field w 0 9)
  | 0xB => .sti (field w 9 3) (field w 0 9)
  | 0xC => .jmp (field w 6 3) (field w 9 3) (field w 0 6)
  | 0xD => .reserved (field w 0 12)
  | 0xE => .lea (field w 9 3) (field w 0 9)
  | _ => decodeTrap w

/-- The one Word of an instruction, field by field from bit 15 down (R91, R106). -/
def encode : Instr → Word
  | .br n z p off9 => 0b0000#4 ++ BitVec.ofBool n ++ BitVec.ofBool z ++ BitVec.ofBool p ++ off9
  | .addReg dr sr1 sr2 ign43 => 0b0001#4 ++ dr ++ sr1 ++ 0b0#1 ++ ign43 ++ sr2
  | .addImm dr sr1 imm5 => 0b0001#4 ++ dr ++ sr1 ++ 0b1#1 ++ imm5
  | .ld dr off9 => 0b0010#4 ++ dr ++ off9
  | .st sr off9 => 0b0011#4 ++ sr ++ off9
  | .jsrr baseR ign109 ign50 => 0b0100#4 ++ 0b0#1 ++ ign109 ++ baseR ++ ign50
  | .jsr off11 => 0b0100#4 ++ 0b1#1 ++ off11
  | .andReg dr sr1 sr2 ign43 => 0b0101#4 ++ dr ++ sr1 ++ 0b0#1 ++ ign43 ++ sr2
  | .andImm dr sr1 imm5 => 0b0101#4 ++ dr ++ sr1 ++ 0b1#1 ++ imm5
  | .ldr dr baseR off6 => 0b0110#4 ++ dr ++ baseR ++ off6
  | .str sr baseR off6 => 0b0111#4 ++ sr ++ baseR ++ off6
  | .rti ign110 => 0b1000#4 ++ ign110
  | .not dr sr ign50 => 0b1001#4 ++ dr ++ sr ++ ign50
  | .ldi dr off9 => 0b1010#4 ++ dr ++ off9
  | .sti sr off9 => 0b1011#4 ++ sr ++ off9
  | .jmp baseR ign119 ign50 => 0b1100#4 ++ ign119 ++ baseR ++ ign50
  | .reserved ign110 => 0b1101#4 ++ ign110
  | .lea dr off9 => 0b1110#4 ++ dr ++ off9
  | .trap trapvect8 ign118 => 0b1111#4 ++ ign118 ++ trapvect8
  | .getc ign118 => 0b1111#4 ++ ign118 ++ 0x20#8
  | .out ign118 => 0b1111#4 ++ ign118 ++ 0x21#8
  | .puts ign118 => 0b1111#4 ++ ign118 ++ 0x22#8
  | .inChar ign118 => 0b1111#4 ++ ign118 ++ 0x23#8
  | .putsp ign118 => 0b1111#4 ++ ign118 ++ 0x24#8
  | .halt ign118 => 0b1111#4 ++ ign118 ++ 0x25#8

/-- The same instruction with the value an assembler puts in the ignored bits (R91's brackets). RESERVED has no
assembler form; zeros stand there. -/
def Instr.canonical : Instr → Instr
  | .addReg dr sr1 sr2 _ => .addReg dr sr1 sr2 0b00#2
  | .andReg dr sr1 sr2 _ => .andReg dr sr1 sr2 0b00#2
  | .jsrr baseR _ _ => .jsrr baseR 0b00#2 0b000000#6
  | .jmp baseR _ _ => .jmp baseR 0b000#3 0b000000#6
  | .not dr sr _ => .not dr sr 0b111111#6
  | .rti _ => .rti 0#12
  | .reserved _ => .reserved 0#12
  | .trap v _ => .trap v 0b0000#4
  | .getc _ => .getc 0b0000#4
  | .out _ => .out 0b0000#4
  | .puts _ => .puts 0b0000#4
  | .inChar _ => .inChar 0b0000#4
  | .putsp _ => .putsp 0b0000#4
  | .halt _ => .halt 0b0000#4
  | .br n z p o => .br n z p o
  | .addImm d a i => .addImm d a i
  | .ld d o => .ld d o
  | .st a o => .st a o
  | .jsr o => .jsr o
  | .andImm d a i => .andImm d a i
  | .ldr d b o => .ldr d b o
  | .str a b o => .str a b o
  | .ldi d o => .ldi d o
  | .sti a o => .sti a o
  | .lea d o => .lea d o

/-- `mask` of the instruction's row in spec/opcode_table.json: the bits the decoder looks at (R108). -/
def Instr.rowMask : Instr → Word
  | .addReg _ _ _ _ | .addImm _ _ _ | .andReg _ _ _ _ | .andImm _ _ _ => 0xF020#16
  | .jsr _ | .jsrr _ _ _ => 0xF800#16
  | .getc _ | .out _ | .puts _ | .inChar _ | .putsp _ | .halt _ => 0xF0FF#16
  | .br _ _ _ _ | .ld _ _ | .st _ _ | .ldr _ _ _ | .str _ _ _ | .rti _ | .not _ _ _ | .ldi _ _ | .sti _ _
  | .jmp _ _ _ | .reserved _ | .lea _ _ | .trap _ _ => 0xF000#16

/-- `match` of the instruction's row in spec/opcode_table.json (R108). -/
def Instr.rowMatch : Instr → Word
  | .br _ _ _ _ => 0x0000#16
  | .addReg _ _ _ _ => 0x1000#16
  | .addImm _ _ _ => 0x1020#16
  | .ld _ _ => 0x2000#16
  | .st _ _ => 0x3000#16
  | .jsrr _ _ _ => 0x4000#16
  | .jsr _ => 0x4800#16
  | .andReg _ _ _ _ => 0x5000#16
  | .andImm _ _ _ => 0x5020#16
  | .ldr _ _ _ => 0x6000#16
  | .str _ _ _ => 0x7000#16
  | .rti _ => 0x8000#16
  | .not _ _ _ => 0x9000#16
  | .ldi _ _ => 0xA000#16
  | .sti _ _ => 0xB000#16
  | .jmp _ _ _ => 0xC000#16
  | .reserved _ => 0xD000#16
  | .lea _ _ => 0xE000#16
  | .trap _ _ => 0xF000#16
  | .getc _ => 0xF020#16
  | .out _ => 0xF021#16
  | .puts _ => 0xF022#16
  | .inChar _ => 0xF023#16
  | .putsp _ => 0xF024#16
  | .halt _ => 0xF025#16

/-- The host's view of the decoder: an instruction is one Word (R90), so more than 16 bits is none. -/
def decodeTableWord (nbits w : Nat) : Option Instr :=
  if nbits ≤ 16 then some (decode (BitVec.ofNat 16 (w % 2 ^ nbits))) else none

end Sys2Proof
end

