-- ==== Sys2Proof/Machine/Illegal.lean ====
section
/-! DEFINITION. RTI and RESERVED, the two opcodes that always raise IllegalInstruction (spec/45_illegal.md). -/
namespace Sys2Proof.Machine

/-- RTI (R220). -/
def execRti (ign110 : BitVec 12) (s : State) : Host.Outcome State Fault Refusal :=
  .next (raiseFault .illegalInstruction (fetchedFrom s) (encode (.rti ign110)) s s)

/-- RESERVED (R222). -/
def execReserved (ign110 : BitVec 12) (s : State) : Host.Outcome State Fault Refusal :=
  .next (raiseFault .illegalInstruction (fetchedFrom s) (encode (.reserved ign110)) s s)

end Sys2Proof.Machine
end

