-- ==== Sys2Proof/Machine/Load.lean ====
section
/-! DEFINITION. LD, LDI, LDR and LEA (spec/42_load.md). A read of a device address can fail, which raises IOError with the
instruction's own Word (spec/60_exceptions.md R263). -/
namespace Sys2Proof.Machine

/-- LD (R170). -/
def execLd (dr : RegIdx) (off9 : BitVec 9) (s : State) : Host.Outcome State Fault Refusal :=
  .next (orIOError (encode (.ld dr off9)) s (memRead (pcRel9 off9 s) s) (writeResult dr))

/-- The second read of LDI, from the state the first one left (R172). -/
def readIndirect (off9 : BitVec 9) (s : State) : Con Word :=
  match indirect9 off9 s with
  | .fail s1 => .fail s1
  | .ok ea s1 => memRead ea s1

/-- LDI: the pointer read, then the datum read (R172). -/
def execLdi (dr : RegIdx) (off9 : BitVec 9) (s : State) : Host.Outcome State Fault Refusal :=
  .next (orIOError (encode (.ldi dr off9)) s (readIndirect off9 s) (writeResult dr))

/-- LDR (R174). -/
def execLdr (dr baseR : RegIdx) (off6 : BitVec 6) (s : State) : Host.Outcome State Fault Refusal :=
  .next (orIOError (encode (.ldr dr baseR off6)) s (memRead (baseOff6 baseR off6 s) s) (writeResult dr))

/-- LEA: the address itself, no memory access (R176). -/
def execLea (dr : RegIdx) (off9 : BitVec 9) (s : State) : Host.Outcome State Fault Refusal :=
  .next (writeResult dr (pcRel9 off9 s) s)

end Sys2Proof.Machine
end

