-- ==== Sys2Proof/Machine/Operate.lean ====
section
/-! DEFINITION. ADD, AND and NOT (spec/41_operate.md). -/
namespace Sys2Proof.Machine

/-- ADD, register form (R150). -/
def execAddReg (dr sr1 sr2 : RegIdx) (s : State) : Host.Outcome State Fault Refusal :=
  .next (writeResult dr (readReg sr1 s + readReg sr2 s) s)

/-- ADD, immediate form (R152). -/
def execAddImm (dr sr1 : RegIdx) (imm5 : BitVec 5) (s : State) : Host.Outcome State Fault Refusal :=
  .next (writeResult dr (readReg sr1 s + sext5 imm5) s)

/-- AND, register form (R154). -/
def execAndReg (dr sr1 sr2 : RegIdx) (s : State) : Host.Outcome State Fault Refusal :=
  .next (writeResult dr (readReg sr1 s &&& readReg sr2 s) s)

/-- AND, immediate form (R156). -/
def execAndImm (dr sr1 : RegIdx) (imm5 : BitVec 5) (s : State) : Host.Outcome State Fault Refusal :=
  .next (writeResult dr (readReg sr1 s &&& sext5 imm5) s)

/-- NOT (R158). -/
def execNot (dr sr : RegIdx) (s : State) : Host.Outcome State Fault Refusal :=
  .next (writeResult dr (~~~ readReg sr s) s)

end Sys2Proof.Machine
end

