-- ==== Sys2Proof/Machine/Store.lean ====
section
/-! DEFINITION. ST, STI and STR (spec/43_store.md). -/
namespace Sys2Proof.Machine

/-- ST (R190). -/
def execSt (sr : RegIdx) (off9 : BitVec 9) (s : State) : Host.Outcome State Fault Refusal :=
  .next (memWrite (pcRel9 off9 s) (readReg sr s) s)

/-- STI: reads the pointer, which may be a device read and fail, then writes through it (R192). -/
def execSti (sr : RegIdx) (off9 : BitVec 9) (s : State) : Host.Outcome State Fault Refusal :=
  .next (orIOError (encode (.sti sr off9)) s (indirect9 off9 s) (fun ea s1 => memWrite ea (readReg sr s1) s1))

/-- STR (R194). -/
def execStr (sr baseR : RegIdx) (off6 : BitVec 6) (s : State) : Host.Outcome State Fault Refusal :=
  .next (memWrite (baseOff6 baseR off6 s) (readReg sr s) s)

end Sys2Proof.Machine
end

