-- ==== Sys2Proof/Machine/Services.lean ====
section
/-! DEFINITION. The six console services of the trap dispatcher (spec/46_trap.md R234 to R246). Each is a function of the
instruction Word `ir`, which a fault records, and of the state after the fetch; each writes R7 first (R230). -/
namespace Sys2Proof.Machine

/-- GETC from the wait on: takes a character into R0, or is held (R234). -/
def serviceGetc (ign118 : BitVec 4) (ir : Word) (s : State) : State :=
  orIOError ir s (consoleGet (linkR7 s)) fun c s1 =>
    match c with
    | none => holdIn (.getc ign118) s s1
    | some c => release (writeReg R0 (zext8 c) s1)

/-- OUT: writes R0's low byte (R236). -/
def serviceOut (ir : Word) (s : State) : State :=
  orIOError ir s (consolePut (lowByte (readReg R0 s)) (linkR7 s)) fun _ s1 => s1

/-- How the scan of a string ends: at its terminator, at a console failure, or never. -/
inductive Scan where
  | done (s : State)
  | fail (s : State)
  | endless
  deriving DecidableEq, Repr

/-- The loop of PUTS from address `a`, at most `fuel` Words long (R238). -/
def putsLoop : Nat → Word → State → Scan
  | 0, _, _ => .endless
  | fuel + 1, a, s =>
    match memRead a s with
    | .fail s1 => .fail s1
    | .ok w s1 =>
      if w = 0x0000#16 then .done s1
      else
        match consolePut (lowByte w) s1 with
        | .fail s2 => .fail s2
        | .ok _ s2 => putsLoop fuel (a + 1#16) s2

/-- The loop of PUTSP from address `a`, at most `fuel` Words long: the low byte, then the high byte, up to the first zero
byte (R242). -/
def putspLoop : Nat → Word → State → Scan
  | 0, _, _ => .endless
  | fuel + 1, a, s =>
    match memRead a s with
    | .fail s1 => .fail s1
    | .ok w s1 =>
      if lowByte w = 0x00#8 then .done s1
      else
        match consolePut (lowByte w) s1 with
        | .fail s2 => .fail s2
        | .ok _ s2 =>
          if highByte w = 0x00#8 then .done s2
          else
            match consolePut (highByte w) s2 with
            | .fail s3 => .fail s3
            | .ok _ s3 => putspLoop fuel (a + 1#16) s3

/-- As many Words as a scan can read: each pass over the 65536 addresses takes one pending character at KBDR, and with
none pending it ends at KBSR, which then reads 0x0000 (log 9). -/
def scanFuel (s : State) : Nat := 65536 * (s.conIn.length + 1)

/-- The end of PUTS and PUTSP. A scan that never ends is U12's stuck service (spec/93_implementation_defined.md). -/
def endScan (ir : Word) (s0 : State) : Scan → Host.Outcome State Fault Refusal
  | .done s1 => .next s1
  | .fail s1 => .next (raiseFault .ioError (fetchedFrom s0) ir s0 s1)
  | .endless => .fault .stringNeverEnds

/-- PUTS (R238). -/
def servicePuts (ir : Word) (s : State) : Host.Outcome State Fault Refusal :=
  endScan ir s (putsLoop (scanFuel s) (readReg R0 s) (linkR7 s))

/-- PUTSP (R242). -/
def servicePutsp (ir : Word) (s : State) : Host.Outcome State Fault Refusal :=
  endScan ir s (putspLoop (scanFuel s) (readReg R0 s) (linkR7 s))

/-- IN from the wait on: takes a character, echoes it, stores it in R0, or is held (R240). -/
def serviceInWait (ign118 : BitVec 4) (ir : Word) (s0 s : State) : State :=
  orIOError ir s0 (consoleGet s) fun c s1 =>
    match c with
    | none => holdIn (.inChar ign118) s0 s1
    | some c => orIOError ir s0 (consolePut c s1) fun _ s2 => release (writeReg R0 (zext8 c) s2)

/-- IN: the prompt, then the wait (R240). -/
def serviceIn (ign118 : BitVec 4) (ir : Word) (s : State) : State :=
  orIOError ir s (consolePutAll s.cfg.inPrompt (linkR7 s)) fun _ s1 => serviceInWait ign118 ir s s1

/-- HALT: flush, then the terminal state HALTED (R246). -/
def serviceHalt (ir : Word) (s : State) : State :=
  orIOError ir s (consoleFlush (linkR7 s)) fun _ s1 => haltCore s1

end Sys2Proof.Machine
end

