-- ==== Sys2Proof/Machine/Trap.lean ====
section
/-! DEFINITION. The TRAP instruction: the six service rows, the general row, and what the core does in each step it is held
inside GETC or IN (spec/46_trap.md R230 to R250, spec/20_memory.md R72). -/
namespace Sys2Proof.Machine

/-- GETC, TRAP 0x20 (R234). -/
def execGetc (ign118 : BitVec 4) (s : State) : Host.Outcome State Fault Refusal :=
  .next (serviceGetc ign118 (encode (.getc ign118)) s)

/-- OUT, TRAP 0x21 (R236). -/
def execOut (ign118 : BitVec 4) (s : State) : Host.Outcome State Fault Refusal :=
  .next (serviceOut (encode (.out ign118)) s)

/-- PUTS, TRAP 0x22 (R238). -/
def execPuts (ign118 : BitVec 4) (s : State) : Host.Outcome State Fault Refusal :=
  servicePuts (encode (.puts ign118)) s

/-- IN, TRAP 0x23 (R240). -/
def execInChar (ign118 : BitVec 4) (s : State) : Host.Outcome State Fault Refusal :=
  .next (serviceIn ign118 (encode (.inChar ign118)) s)

/-- PUTSP, TRAP 0x24 (R242). -/
def execPutsp (ign118 : BitVec 4) (s : State) : Host.Outcome State Fault Refusal :=
  servicePutsp (encode (.putsp ign118)) s

/-- HALT, TRAP 0x25 (R246). -/
def execHalt (ign118 : BitVec 4) (s : State) : Host.Outcome State Fault Refusal :=
  .next (serviceHalt (encode (.halt ign118)) s)

/-- TRAP, the general row: `Service(v)` of R231, IllegalTrap for an unrecognised vector (R248). -/
def execTrap (trapvect8 : BitVec 8) (ign118 : BitVec 4) (s : State) : Host.Outcome State Fault Refusal :=
  match trapvect8.toNat with
  | 0x20 => execGetc ign118 s
  | 0x21 => execOut ign118 s
  | 0x22 => execPuts ign118 s
  | 0x23 => execInChar ign118 s
  | 0x24 => execPutsp ign118 s
  | 0x25 => execHalt ign118 s
  | _ => .next (raiseFault .illegalTrap (fetchedFrom s) (encode (.trap trapvect8 ign118)) s s)

/-- One more step of an instruction the core is held inside: the console is asked again, from the state the instruction
began in; the fetch and IN's prompt are not made again (spec/20_memory.md R72, log 4). -/
def resumeHeld (h : Held) (s : State) : Host.Outcome State Fault Refusal :=
  let s0 := setPc (s.pc + 1#16) s
  match h with
  | .getc ign118 => .next (serviceGetc ign118 (encode (.getc ign118)) s0)
  | .inChar ign118 => .next (serviceInWait ign118 (encode (.inChar ign118)) s0 (linkR7 s0))

end Sys2Proof.Machine
end

