-- ==== Sys2Proof/Machine/Dispatch.lean ====
section
/-! DEFINITION. Step (4) of the instruction cycle: one arm per instruction (spec/40_instruction_cycle.md R130). The state
is the one after the fetch, its `pc` already incremented (R131). -/
namespace Sys2Proof.Machine

def exec (i : Instr) (s : State) : Host.Outcome State Fault Refusal :=
  match i with
  | .br n z p off9 => Sys2Proof.Machine.execBr n z p off9 s
  | .addReg dr sr1 sr2 _ => Sys2Proof.Machine.execAddReg dr sr1 sr2 s
  | .addImm dr sr1 imm5 => Sys2Proof.Machine.execAddImm dr sr1 imm5 s
  | .ld dr off9 => Sys2Proof.Machine.execLd dr off9 s
  | .st sr off9 => Sys2Proof.Machine.execSt sr off9 s
  | .jsrr baseR _ _ => Sys2Proof.Machine.execJsrr baseR s
  | .jsr off11 => Sys2Proof.Machine.execJsr off11 s
  | .andReg dr sr1 sr2 _ => Sys2Proof.Machine.execAndReg dr sr1 sr2 s
  | .andImm dr sr1 imm5 => Sys2Proof.Machine.execAndImm dr sr1 imm5 s
  | .ldr dr baseR off6 => Sys2Proof.Machine.execLdr dr baseR off6 s
  | .str sr baseR off6 => Sys2Proof.Machine.execStr sr baseR off6 s
  | .rti ign110 => Sys2Proof.Machine.execRti ign110 s
  | .not dr sr _ => Sys2Proof.Machine.execNot dr sr s
  | .ldi dr off9 => Sys2Proof.Machine.execLdi dr off9 s
  | .sti sr off9 => Sys2Proof.Machine.execSti sr off9 s
  | .jmp baseR _ _ => Sys2Proof.Machine.execJmp baseR s
  | .reserved ign110 => Sys2Proof.Machine.execReserved ign110 s
  | .lea dr off9 => Sys2Proof.Machine.execLea dr off9 s
  | .trap trapvect8 ign118 => Sys2Proof.Machine.execTrap trapvect8 ign118 s
  | .getc ign118 => Sys2Proof.Machine.execGetc ign118 s
  | .out ign118 => Sys2Proof.Machine.execOut ign118 s
  | .puts ign118 => Sys2Proof.Machine.execPuts ign118 s
  | .inChar ign118 => Sys2Proof.Machine.execInChar ign118 s
  | .putsp ign118 => Sys2Proof.Machine.execPutsp ign118 s
  | .halt ign118 => Sys2Proof.Machine.execHalt ign118 s

end Sys2Proof.Machine
end

