-- ==== Sys2Proof/Machine/Step.lean ====
section
/-! DEFINITION. One step of the core (spec/40_instruction_cycle.md R130, R136) and the host's one-word test state. -/
namespace Sys2Proof.Machine

/-- One step. Only in RUNNING does anything happen (R136). A held GETC or IN goes on waiting (spec/20_memory.md R72); a
pending stop is honoured between two instructions (spec/70_reset_and_hazards.md R309); otherwise fetch, decode, execute. A
fetch that fails raises IOError with 0x0000 for the Word (spec/60_exceptions.md R263). -/
def step (s : State) : Host.Outcome State Fault Refusal :=
  match s.run with
  | .idle | .halted | .faulted | .stopped => .next s
  | .running =>
    match s.hold with
    | some h => resumeHeld h s
    | none =>
      if s.stopReq then .next (honourStop s)
      else
        match fetch s with
        | .fail s1 => .next (raiseFault .ioError s.pc 0x0000#16 s s1)
        | .ok ir s1 => exec (decode ir) s1

/-- `s` RUNNING, not held, no stop pending, with the Word stored where `step` fetches next. -/
def State.withFetchWord (s : State) (nbits w : Nat) : State :=
  { s with
    run := .running, hold := none, stopReq := false, pc := plainFetchAddr s
    mem := s.mem.write (plainFetchAddr s).toNat (BitVec.ofNat 16 (w % 2 ^ nbits)) }

end Sys2Proof.Machine
end

