-- ==== Sys2Proof/Machine/HostOps.lean ====
section
/-! DEFINITION. What the host and the console can do to the core, between two steps (spec/70_reset_and_hazards.md R300 to
R310, spec/20_memory.md R75, R76). -/
namespace Sys2Proof.Machine

/-- Why a load fails (R307), in the order the conditions are tested. -/
inductive LoadError where
  /-- (a) fewer than 2 bytes: no origin. -/
  | noOrigin
  /-- (b) an odd number of bytes: a truncated Word. -/
  | truncated
  /-- (c) the image would run past 0xFFFF. -/
  | pastEnd
  /-- (d) the origin lies below `LOAD_MIN_ORIGIN`. -/
  | lowOrigin
  deriving DecidableEq, Repr

/-- An object file, read: its origin and Words, or why it is refused. -/
inductive ObjectFile where
  | image (origin : Word) (words : List Word)
  | refused (why : LoadError)
  deriving DecidableEq, Repr

/-- Big-endian Words of a byte string; none when a byte is left over (R306, spec/20_memory.md R54). -/
def bigEndianWords : List Byte → Option (List Word)
  | [] => some []
  | [_] => none
  | b0 :: b1 :: rest =>
    match bigEndianWords rest with
    | none => none
    | some ws => some ((b0 ++ b1) :: ws)

/-- The object file of R306 under the conditions of R307. -/
def parseObjectFile (minOrigin : Word) (file : List Byte) : ObjectFile :=
  if file.length < 2 then .refused .noOrigin
  else
    match bigEndianWords file with
    | none => .refused .truncated
    | some [] => .refused .noOrigin
    | some (origin :: words) =>
      if 65536 < origin.toNat + words.length then .refused .pastEnd
      else if origin.toNat < minOrigin.toNat then .refused .lowOrigin
      else .image origin words

/-- `MemWrite` of each Word at consecutive addresses (R306). -/
def storeWords : Word → List Word → State → State
  | _, [], s => s
  | a, w :: rest, s => storeWords (a + 1#16) rest (memWrite a w s)

/-- `load(o, w[0..n-1])`: the Words, then the origin to `pc` (R306). -/
def loadImage (origin : Word) (words : List Word) (s : State) : State :=
  { setPc origin (storeWords origin words s) with loadStatus := .loaded }

/-- A LoadError: `pc`, `mem` and the fault record stay, and so does `run`, which is IDLE (R307, spec/60_exceptions.md
R265). The core keeps that the load has failed (log 14). -/
def failLoad (s : State) : State := { s with loadStatus := .failed }

/-- Reset, from any run state: every piece of the core's state at its reset value (R300). The console and the parameters
stay (R302). -/
def hostReset (s : State) : State :=
  { State.reset with conIn := s.conIn, conOut := s.conOut, conFails := s.conFails, cfg := s.cfg }

/-- The moves of R305, a delivery of input (spec/20_memory.md R76), and the environment's choice for one console call to
come (R75). -/
inductive HostMove where
  | reset
  | load (file : List Byte)
  | start
  | stop
  | deliver (c : Byte)
  | answer (fails : Bool)
  deriving DecidableEq, Repr

/-- What a move comes to. -/
inductive HostReply where
  | done (s : State)
  /-- LoadError (R307), with the state it leaves. -/
  | loadError (why : LoadError) (s : State)
  /-- The host has no such move in this state (R305). -/
  | noSuchMove
  deriving DecidableEq, Repr

/-- `load`, allowed in IDLE and once per reset (R305, R306, spec/92_eei_decisions.md D20); a failed load is that one load
(log 14). -/
def hostLoad (file : List Byte) (s : State) : HostReply :=
  if s.run = .idle ∧ s.loadStatus = .notLoaded then
    match parseObjectFile s.cfg.loadMinOrigin file with
    | .refused why => .loadError why (failLoad s)
    | .image origin words => .done (loadImage origin words s)
  else .noSuchMove

/-- `start`, allowed in IDLE (R308), but not after a LoadError, when "the run loop never starts" (spec/60_exceptions.md R265,
log 14). -/
def hostStart (s : State) : HostReply :=
  if s.run = .idle ∧ s.loadStatus ≠ .failed then .done { s with run := .running } else .noSuchMove

/-- `stop`, a request while RUNNING; `step` honours it between two instructions (R309, log 5). -/
def hostStop (s : State) : HostReply :=
  if s.run = .running then .done { s with stopReq := true } else .noSuchMove

/-- A delivery appends to the tail of `con_in`, in any state (spec/20_memory.md R76). -/
def deliverInput (c : Byte) (s : State) : State := { s with conIn := s.conIn ++ [c] }

/-- The environment decides one console call more (spec/20_memory.md R75, log 2). -/
def decideAnswer (fails : Bool) (s : State) : State := { s with conFails := s.conFails ++ [fails] }

/-- One move of the host or the environment. -/
def hostMove (m : HostMove) (s : State) : HostReply :=
  match m with
  | .reset => .done (hostReset s)
  | .load file => hostLoad file s
  | .start => hostStart s
  | .stop => hostStop s
  | .deliver c => .done (deliverInput c s)
  | .answer fails => .done (decideAnswer fails s)

/-- The numeric code of a fault kind (spec/60_exceptions.md R266). -/
def FaultKind.code : FaultKind → BitVec 2
  | .none => 0#2
  | .illegalInstruction => 1#2
  | .illegalTrap => 2#2
  | .ioError => 3#2

/-- What the host can observe (R310). `kbdr_latch` and the memory's form are not in it; memory is read by address. -/
structure Observation where
  run : RunState
  faultCode : BitVec 2
  faultPc : Word
  faultIr : Word
  regs : Vector Word 8
  pc : Word
  cond : BitVec 3
  mem : Memory
  deriving DecidableEq, Repr

/-- `observe` (R305, R310). -/
def observe (s : State) : Observation where
  run := s.run
  faultCode := s.faultKind.code
  faultPc := s.faultPc
  faultIr := s.faultIr
  regs := s.regs
  pc := s.pc
  cond := s.cond
  mem := s.mem

/-- The entry point's exit status: success on HALTED, failure on FAULTED; the spec gives none for any other state (R310,
log 10). -/
def exitSuccess (s : State) : Option Bool :=
  match s.run with
  | .halted => some true
  | .faulted => some false
  | .idle | .running | .stopped => none

end Sys2Proof.Machine
end

