-- ==== Sys2Proof/Safety.lean ====
section
/-! DEFINITION. What the claims are stated in: the invariant of every reachable state, the frames (what stays), the effects
an instruction can have as relations between two states, and the moves of the core with its host and console. -/
namespace Sys2Proof.Machine

/-! ### The invariant -/

/-- The three legal values of `cond` (spec/10_state.md R26). -/
def oneHot (c : BitVec 3) : Prop := c = 0b100#3 ∨ c = 0b010#3 ∨ c = 0b001#3

/-- The fault record is empty, as reset leaves it (spec/10_state.md R34). -/
def State.noFaultRecorded (s : State) : Prop := s.faultKind = .none ∧ s.faultPc = 0 ∧ s.faultIr = 0

/-- The invariant of the machine. -/
structure State.Inv (s : State) : Prop where
  /-- R6: the device addresses differ. -/
  devicesDiffer : s.cfg.wf
  /-- The memory is in its canonical form (log 8). -/
  memCanonical : s.mem.wf = true
  /-- R67: nothing is ever stored at a device address. -/
  devicesUnlisted : s.mem.read s.cfg.kbsrAddr.toNat = 0 ∧ s.mem.read s.cfg.kbdrAddr.toNat = 0
  /-- R26: exactly one flag is set. -/
  condOneHot : oneHot s.cond
  /-- R63: bits 15:8 of the latch are 0. -/
  latchIsByte : s.kbdrLatch.toNat < 256
  /-- R34: the record is written on entry to FAULTED and then holds a kind. -/
  faultedHasKind : s.run = .faulted → s.faultKind ≠ .none
  /-- R34: until then it is empty. -/
  recordOnlyWhenFaulted : s.run ≠ .faulted → s.noFaultRecorded
  /-- R72: only a running core is held inside an instruction. -/
  heldOnlyWhenRunning : s.hold ≠ none → s.run = .running
  /-- R309: a stop is requested only while RUNNING, so none is pending in IDLE. -/
  noStopInIdle : s.run = .idle → s.stopReq = false
  /-- R265: after a LoadError `run` never becomes RUNNING. -/
  failedLoadStaysIdle : s.loadStatus = .failed → s.run = .idle

/-- A run state that only reset leaves (spec/10_state.md R33). -/
def RunState.terminal (r : RunState) : Prop := r = .halted ∨ r = .faulted ∨ r = .stopped

/-! ### Premises -/

/-- R75's named premise: no console call to come fails. -/
def State.consoleNeverFails (s : State) : Prop := ∀ b ∈ s.conFails, b = false

/-- The next `n` console calls answer (spec/20_memory.md R75, scripted as in log 2). -/
def State.answers (n : Nat) (s : State) : Prop := ∀ b ∈ s.conFails.take n, b = false

/-- The next `n` console calls answer and the one after them fails. -/
def State.failsAfter (n : Nat) (s : State) : Prop := s.answers n ∧ s.conFails[n]? = some true

/-- A plain address: not one of the two device addresses (spec/20_memory.md R58). -/
def State.plain (s : State) (a : Word) : Prop := a ≠ s.cfg.kbsrAddr ∧ a ≠ s.cfg.kbdrAddr

/-- The core is between two instructions and will fetch (spec/40_instruction_cycle.md R130, R136). -/
def State.willFetch (s : State) : Prop := s.run = .running ∧ s.hold = none ∧ s.stopReq = false

/-! ### Frames -/

/-- Every general register but those listed reads as before. -/
def sameRegsBut (except : List RegIdx) (s t : State) : Prop := ∀ r, r ∉ except → readReg r t = readReg r s

/-- Every address of memory reads as before. -/
def sameMem (s t : State) : Prop := ∀ a, t.mem.read a = s.mem.read a

/-- The console streams, the console answers to come and the keyboard latch are as before. -/
def sameConsole (s t : State) : Prop :=
  t.conIn = s.conIn ∧ t.conOut = s.conOut ∧ t.conFails = s.conFails ∧ t.kbdrLatch = s.kbdrLatch

/-- The host's requests and the parameters are as before. -/
def sameHost (s t : State) : Prop := t.stopReq = s.stopReq ∧ t.loadStatus = s.loadStatus ∧ t.cfg = s.cfg

/-- Run state, fault record, held instruction, host requests and parameters are as before. -/
def sameControl (s t : State) : Prop :=
  t.run = s.run ∧ t.faultKind = s.faultKind ∧ t.faultPc = s.faultPc ∧ t.faultIr = s.faultIr ∧ t.hold = s.hold ∧
  sameHost s t

/-! ### Effects, from the state `s` after the fetch (its `pc` is `pc0 + 1`) to the state `t` the instruction leaves -/

/-- `x[dr] <- v; setcc(v)` and nothing else but console effects: every other register, `pc`, all of memory and all control
state stay. -/
def writesResult (dr : RegIdx) (v : Word) (s t : State) : Prop :=
  readReg dr t = v ∧ t.cond = condOf v ∧ sameRegsBut [dr] s t ∧ t.pc = s.pc ∧ sameMem s t ∧ sameControl s t

/-- `MemWrite(ea, 16, v)` and nothing else but console effects: at a plain address that one Word, at a device address
nothing (spec/20_memory.md R56). -/
def storesWord (ea v : Word) (s t : State) : Prop :=
  (s.plain ea → t.mem.read ea.toNat = v ∧ ∀ a, a ≠ ea.toNat → t.mem.read a = s.mem.read a) ∧
  (¬ s.plain ea → sameMem s t) ∧
  sameRegsBut [] s t ∧ t.cond = s.cond ∧ t.pc = s.pc ∧ sameControl s t

/-- `pc <- target` with the registers of `written` possibly written: everything else stays. -/
def jumpsTo (target : Word) (written : List RegIdx) (s t : State) : Prop :=
  t.pc = target ∧ sameRegsBut written s t ∧ t.cond = s.cond ∧ sameMem s t ∧ sameConsole s t ∧ sameControl s t

/-- A TRAP's common part: R7 holds the return address, `pc` goes on to the next instruction, flags and memory stay, no
register but R7 and those of `written` changes (spec/46_trap.md R230, R244). -/
def trapReturns (written : List RegIdx) (s t : State) : Prop :=
  readReg R7 t = s.pc ∧ t.pc = s.pc ∧ sameRegsBut (R7 :: written) s t ∧ t.cond = s.cond ∧ sameMem s t

/-- What `raise F(pc0, ir)` leaves: `x`, `cond` and `mem` as before the fetch, `pc = pc0`, the record written, FAULTED
(spec/60_exceptions.md R264). -/
def faultsWith (kind : FaultKind) (pc0 ir : Word) (s t : State) : Prop :=
  sameRegsBut [] s t ∧ t.pc = pc0 ∧ t.cond = s.cond ∧ sameMem s t ∧ t.faultKind = kind ∧ t.faultPc = pc0 ∧
  t.faultIr = ir ∧ t.run = .faulted ∧ t.hold = none ∧ sameHost s t

/-! ### Classes of instructions -/

/-- The destination register of the seven flag-setting instructions (spec/10_state.md R27); none for the others. -/
def flagDest : Instr → Option RegIdx
  | .addReg dr _ _ _ | .addImm dr _ _ | .andReg dr _ _ _ | .andImm dr _ _ | .not dr _ _ | .ld dr _ | .ldi dr _
  | .ldr dr _ _ | .lea dr _ => some dr
  | .br _ _ _ _ | .st _ _ | .jsrr _ _ _ | .jsr _ | .str _ _ _ | .rti _ | .sti _ _ | .jmp _ _ _ | .reserved _
  | .trap _ _ | .getc _ | .out _ | .puts _ | .inChar _ | .putsp _ | .halt _ => none

/-- The TRAP instruction, in any of its seven rows. -/
def isTrap : Instr → Bool
  | .trap _ _ | .getc _ | .out _ | .puts _ | .inChar _ | .putsp _ | .halt _ => true
  | .br _ _ _ _ | .addReg _ _ _ _ | .addImm _ _ _ | .ld _ _ | .st _ _ | .jsrr _ _ _ | .jsr _ | .andReg _ _ _ _
  | .andImm _ _ _ | .ldr _ _ _ | .str _ _ _ | .rti _ | .not _ _ _ | .ldi _ _ | .sti _ _ | .jmp _ _ _ | .reserved _
  | .lea _ _ => false

/-- BR. -/
def isBr : Instr → Bool
  | .br _ _ _ _ => true
  | .addReg _ _ _ _ | .addImm _ _ _ | .ld _ _ | .st _ _ | .jsrr _ _ _ | .jsr _ | .andReg _ _ _ _
  | .andImm _ _ _ | .ldr _ _ _ | .str _ _ _ | .rti _ | .not _ _ _ | .ldi _ _ | .sti _ _ | .jmp _ _ _ | .reserved _
  | .lea _ _ | .trap _ _ | .getc _ | .out _ | .puts _ | .inChar _ | .putsp _ | .halt _ => false

/-- The general registers an instruction may write (spec/10_state.md R21). -/
def writtenRegs : Instr → List RegIdx
  | .addReg dr _ _ _ | .addImm dr _ _ | .andReg dr _ _ _ | .andImm dr _ _ | .not dr _ _ | .ld dr _ | .ldi dr _
  | .ldr dr _ _ | .lea dr _ => [dr]
  | .jsrr _ _ _ | .jsr _ | .out _ | .puts _ | .putsp _ | .halt _ => [R7]
  | .getc _ | .inChar _ => [R0, R7]
  | .trap v _ => if isServiceVector v then [R0, R7] else []
  | .br _ _ _ _ | .st _ _ | .str _ _ _ | .sti _ _ | .jmp _ _ _ | .rti _ | .reserved _ => []

/-- ST, STI and STR, the only instructions that write memory (spec/20_memory.md R51). -/
def isStore : Instr → Bool
  | .st _ _ | .sti _ _ | .str _ _ _ => true
  | .br _ _ _ _ | .addReg _ _ _ _ | .addImm _ _ _ | .ld _ _ | .jsrr _ _ _ | .jsr _ | .andReg _ _ _ _
  | .andImm _ _ _ | .ldr _ _ _ | .rti _ | .not _ _ _ | .ldi _ _ | .jmp _ _ _ | .reserved _ | .lea _ _ | .trap _ _
  | .getc _ | .out _ | .puts _ | .inChar _ | .putsp _ | .halt _ => false

/-- BR, JMP, JSR and JSRR, the only instructions that write `pc` (spec/10_state.md R23). -/
def isControl : Instr → Bool
  | .br _ _ _ _ | .jmp _ _ _ | .jsr _ | .jsrr _ _ _ => true
  | .addReg _ _ _ _ | .addImm _ _ _ | .ld _ _ | .st _ _ | .andReg _ _ _ _ | .andImm _ _ _ | .ldr _ _ _
  | .str _ _ _ | .rti _ | .not _ _ _ | .ldi _ _ | .sti _ _ | .reserved _ | .lea _ _ | .trap _ _ | .getc _ | .out _
  | .puts _ | .inChar _ | .putsp _ | .halt _ => false

/-! ### The loops of PUTS and PUTSP as the spec writes them, with no bound on their length -/

/-- The loop of R238 from address `a`, run from `s`, exits in `t` (spec/46_trap.md). -/
inductive PutsRun : Word → State → State → Prop where
  | exit {a : Word} {s t : State} (h : memRead a s = .ok 0 t) : PutsRun a s t
  | put {a w : Word} {s u v t : State} (h : memRead a s = .ok w u) (hw : w ≠ 0)
      (hp : consolePut (lowByte w) u = .ok () v) (rest : PutsRun (a + 1#16) v t) : PutsRun a s t

/-- The loop of R242 from address `a`, run from `s`, exits in `t` (spec/46_trap.md). -/
inductive PutspRun : Word → State → State → Prop where
  | exitLow {a w : Word} {s t : State} (h : memRead a s = .ok w t) (hl : lowByte w = 0) : PutspRun a s t
  | exitHigh {a w : Word} {s u t : State} (h : memRead a s = .ok w u) (hl : lowByte w ≠ 0)
      (hp : consolePut (lowByte w) u = .ok () t) (hh : highByte w = 0) : PutspRun a s t
  | put {a w : Word} {s u v x t : State} (h : memRead a s = .ok w u) (hl : lowByte w ≠ 0)
      (hp : consolePut (lowByte w) u = .ok () v) (hh : highByte w ≠ 0) (hq : consolePut (highByte w) v = .ok () x)
      (rest : PutspRun (a + 1#16) x t) : PutspRun a s t

/-- The bytes of an object file: each Word big-endian (spec/70_reset_and_hazards.md R306). -/
def objectBytes (ws : List Word) : List Byte := ws.flatMap fun w => [highByte w, lowByte w]

/-- The instruction the core is held inside. -/
def Held.instr : Held → Instr
  | .getc ign118 => .getc ign118
  | .inChar ign118 => .inChar ign118

/-! ### Comparing outcomes -/

/-- The same outcome with a function applied to a next state. -/
def mapNext (f : State → State) : Host.Outcome State Fault Refusal → Host.Outcome State Fault Refusal
  | .next t => .next (f t)
  | .fault r => .fault r
  | .refused r => .refused r

/-- A state with the flags blanked. -/
def blankCond (s : State) : State := { s with cond := 0 }

/-- A held instruction with its ignored bits blanked. -/
def Held.blankIgnored : Held → Held
  | .getc _ => .getc 0
  | .inChar _ => .inChar 0

/-- A state with the ignored bits of the last instruction Word blanked in the two places that keep a whole Word: the fault
record (spec/60_exceptions.md R266) and the held instruction. -/
def blankIgnored (s : State) : State :=
  { s with
    faultIr := encode (decode s.faultIr).canonical
    hold := s.hold.map Held.blankIgnored }

/-! ### The core with its surroundings -/

/-- What happens from `s` to `t`: one step, or one move of the host or the console between two steps
(spec/40_instruction_cycle.md R136: nothing else happens there). -/
inductive Moves (s t : State) : Prop where
  | core (h : step s = .next t)
  | host (m : HostMove) (h : hostMove m s = .done t)
  | loadError (m : HostMove) (why : LoadError) (h : hostMove m s = .loadError why t)

/-- The states a run can reach from reset. -/
inductive Reachable : State → Prop where
  | reset : Reachable State.reset
  | next {s t : State} (hs : Reachable s) (h : Moves s t) : Reachable t

end Sys2Proof.Machine
end

