-- ==== Sys2Proof/Certificates/Slice0/Obligations.lean ====
section
/-! DEFINITION. The statements for the provers. In a statement about `exec`, `s` is the state after the fetch: its `pc` is
`pc0 + 1` (spec/40_instruction_cycle.md R131). Each docstring names the rule or the section it formalises. -/

open Sys2Proof Sys2Proof.Machine

/-! ## Encoding -/

/-- R10: the four sign extensions and the zero extension, by value. -/
def Obligations.ExtensionsReplicateTheSignBit : Prop :=
  (∀ f : BitVec 5, (sext5 f).toNat = if f.msb then f.toNat + 65536 - 2 ^ 5 else f.toNat) ∧
  (∀ f : BitVec 6, (sext6 f).toNat = if f.msb then f.toNat + 65536 - 2 ^ 6 else f.toNat) ∧
  (∀ f : BitVec 9, (sext9 f).toNat = if f.msb then f.toNat + 65536 - 2 ^ 9 else f.toNat) ∧
  (∀ f : BitVec 11, (sext11 f).toNat = if f.msb then f.toNat + 65536 - 2 ^ 11 else f.toNat) ∧
  (∀ c : Byte, (zext8 c).toNat = c.toNat)

/-- Decoding the Word of a well-formed instruction gives the instruction back, every operand at every value
(30_encoding.md sections 1 to 3). -/
def Obligations.DecodeInvertsEncode : Prop :=
  ∀ i : Instr, i.WellFormed → decode (encode i) = i

/-- Every one of the 65536 Words decodes to a well-formed instruction whose Word it is (30_encoding.md R101): decoding
drops no bit, so the Word a fault records is the Word fetched. -/
def Obligations.EncodeInvertsDecode : Prop :=
  ∀ w : Word, encode (decode w) = w ∧ (decode w).WellFormed

/-- R108: a Word lies in its instruction's row of the table, and any other row it lies in is the general TRAP row, which
the service rows refine. -/
def Obligations.DecoderTakesTheRowWithMostMaskBits : Prop :=
  ∀ w : Word, w &&& (decode w).rowMask = (decode w).rowMatch ∧
    ∀ i : Instr, i.WellFormed → w &&& i.rowMask = i.rowMatch →
      (i.rowMask = (decode w).rowMask ∧ i.rowMatch = (decode w).rowMatch) ∨
      (i.rowMask = 0xF000#16 ∧ i.rowMatch = 0xF000#16 ∧ (decode w).rowMask = 0xF0FF#16)

/-- Words that 30_encoding.md spells out decode to the instructions it says (R102, R106). -/
def Obligations.SpelledWordsDecodeAsStated : Prop :=
  decode 0x1043#16 = .addReg 0 1 3 0 ∧ decode 0x104B#16 = .addReg 0 1 3 1 ∧ decode 0x1053#16 = .addReg 0 1 3 2 ∧
  decode 0x105B#16 = .addReg 0 1 3 3 ∧ decode 0x903F#16 = .not 0 0 0x3F ∧ decode 0x9000#16 = .not 0 0 0 ∧
  decode 0xF125#16 = .halt 1 ∧ decode 0xCFC0#16 = .jmp 7 7 0 ∧ decode 0xC1C0#16 = .jmp 7 0 0 ∧
  decode 0xF020#16 = .getc 0 ∧ decode 0xF021#16 = .out 0 ∧ decode 0xF022#16 = .puts 0 ∧ decode 0xF023#16 = .inChar 0 ∧
  decode 0xF024#16 = .putsp 0 ∧ decode 0xF025#16 = .halt 0 ∧ decode 0x0000#16 = .br false false false 0

/-- 30_encoding.md section 3 (R102): the ignored bits change no effect. They show only where a whole instruction Word is
kept, in the fault record (R266) and in the model's own field `hold` (log 4). -/
def Obligations.IgnoredBitsChangeNoEffect : Prop :=
  ∀ (i : Instr) (s : State), mapNext blankIgnored (exec i s) = mapNext blankIgnored (exec i.canonical s)

/-! ## Condition flags -/

/-- R134: `setcc`, for every Word, and that it writes nothing but `cond`. -/
def Obligations.SetccClassifiesEveryWord : Prop :=
  ∀ (v : Word) (s : State),
    setcc v s =
      { s with cond := (if v.getLsbD 15 then 0b100#3 else if v.toNat = 0 then 0b010#3 else 0b001#3) }

/-- 10_state.md section 3: the seven instructions set the flags from their destination's new value unless they fault, in
which case, and in every other instruction, the flags stay. -/
def Obligations.OnlySevenInstructionsWriteFlags : Prop :=
  ∀ (i : Instr) (s t : State), exec i s = .next t →
    (flagDest i = none → t.cond = s.cond) ∧
    (∀ dr, flagDest i = some dr →
      (t.cond = condOf (readReg dr t) ∧ t.run = s.run) ∨ (t.cond = s.cond ∧ t.run = .faulted))

/-- 10_state.md section 3: only BR reads the flags. For any other instruction, two runs that differ in the flags alone end
alike but for the flags. -/
def Obligations.OnlyBrReadsFlags : Prop :=
  ∀ (i : Instr) (s : State) (c : BitVec 3), isBr i = false →
    mapNext blankCond (exec i { s with cond := c }) = mapNext blankCond (exec i s)

/-! ## Operate instructions -/

/-- R150. -/
def Obligations.AddRegisterWritesWrappedSum : Prop :=
  ∀ (dr sr1 sr2 : RegIdx) (ign43 : BitVec 2) (s : State),
    decode (0b0001#4 ++ dr ++ sr1 ++ 0b0#1 ++ ign43 ++ sr2) = .addReg dr sr1 sr2 ign43 ∧
    ∃ t, exec (.addReg dr sr1 sr2 ign43) s = .next t ∧
      writesResult dr (readReg sr1 s + readReg sr2 s) s t ∧ sameConsole s t

/-- R152. -/
def Obligations.AddImmediateWritesWrappedSum : Prop :=
  ∀ (dr sr1 : RegIdx) (imm5 : BitVec 5) (s : State),
    decode (0b0001#4 ++ dr ++ sr1 ++ 0b1#1 ++ imm5) = .addImm dr sr1 imm5 ∧
    ∃ t, exec (.addImm dr sr1 imm5) s = .next t ∧
      writesResult dr (readReg sr1 s + sext5 imm5) s t ∧ sameConsole s t

/-- R154. -/
def Obligations.AndRegisterWritesBitwiseAnd : Prop :=
  ∀ (dr sr1 sr2 : RegIdx) (ign43 : BitVec 2) (s : State),
    decode (0b0101#4 ++ dr ++ sr1 ++ 0b0#1 ++ ign43 ++ sr2) = .andReg dr sr1 sr2 ign43 ∧
    ∃ t, exec (.andReg dr sr1 sr2 ign43) s = .next t ∧
      writesResult dr (readReg sr1 s &&& readReg sr2 s) s t ∧ sameConsole s t

/-- R156. -/
def Obligations.AndImmediateWritesBitwiseAnd : Prop :=
  ∀ (dr sr1 : RegIdx) (imm5 : BitVec 5) (s : State),
    decode (0b0101#4 ++ dr ++ sr1 ++ 0b1#1 ++ imm5) = .andImm dr sr1 imm5 ∧
    ∃ t, exec (.andImm dr sr1 imm5) s = .next t ∧
      writesResult dr (readReg sr1 s &&& sext5 imm5) s t ∧ sameConsole s t

/-- R158: `r = 0xFFFF - x[SR]`. -/
def Obligations.NotWritesComplement : Prop :=
  ∀ (dr sr : RegIdx) (ign50 : BitVec 6) (s : State),
    decode (0b1001#4 ++ dr ++ sr ++ ign50) = .not dr sr ign50 ∧
    ∃ t, exec (.not dr sr ign50) s = .next t ∧ writesResult dr (0xFFFF#16 - readReg sr s) s t ∧ sameConsole s t

/-! ## Loads -/

/-- R170, with R263 for a device read that fails. -/
def Obligations.LdLoadsPcRelative : Prop :=
  ∀ (dr : RegIdx) (off9 : BitVec 9) (s : State),
    decode (0b0010#4 ++ dr ++ off9) = .ld dr off9 ∧
    (∀ v u, memRead (s.pc + sext9 off9) s = .ok v u →
      ∃ t, exec (.ld dr off9) s = .next t ∧ writesResult dr v s t ∧ sameConsole u t) ∧
    (∀ u, memRead (s.pc + sext9 off9) s = .fail u →
      ∃ t, exec (.ld dr off9) s = .next t ∧ faultsWith .ioError (s.pc - 1#16) (0b0010#4 ++ dr ++ off9) s t ∧
        sameConsole u t) ∧
    (s.consoleNeverFails → ∃ v u, memRead (s.pc + sext9 off9) s = .ok v u)

/-- R172: the pointer read, then the datum read from the state the first one left; with R263. -/
def Obligations.LdiLoadsThroughPointer : Prop :=
  ∀ (dr : RegIdx) (off9 : BitVec 9) (s : State),
    decode (0b1010#4 ++ dr ++ off9) = .ldi dr off9 ∧
    (∀ ea v u1 u2, memRead (s.pc + sext9 off9) s = .ok ea u1 → memRead ea u1 = .ok v u2 →
      ∃ t, exec (.ldi dr off9) s = .next t ∧ writesResult dr v s t ∧ sameConsole u2 t) ∧
    (∀ u, (memRead (s.pc + sext9 off9) s = .fail u ∨
        ∃ ea u1, memRead (s.pc + sext9 off9) s = .ok ea u1 ∧ memRead ea u1 = .fail u) →
      ∃ t, exec (.ldi dr off9) s = .next t ∧ faultsWith .ioError (s.pc - 1#16) (0b1010#4 ++ dr ++ off9) s t ∧
        sameConsole u t) ∧
    (s.consoleNeverFails → ∃ ea v u1 u2, memRead (s.pc + sext9 off9) s = .ok ea u1 ∧ memRead ea u1 = .ok v u2)

/-- R174, with R263. -/
def Obligations.LdrLoadsBasePlusOffset : Prop :=
  ∀ (dr baseR : RegIdx) (off6 : BitVec 6) (s : State),
    decode (0b0110#4 ++ dr ++ baseR ++ off6) = .ldr dr baseR off6 ∧
    (∀ v u, memRead (readReg baseR s + sext6 off6) s = .ok v u →
      ∃ t, exec (.ldr dr baseR off6) s = .next t ∧ writesResult dr v s t ∧ sameConsole u t) ∧
    (∀ u, memRead (readReg baseR s + sext6 off6) s = .fail u →
      ∃ t, exec (.ldr dr baseR off6) s = .next t ∧
        faultsWith .ioError (s.pc - 1#16) (0b0110#4 ++ dr ++ baseR ++ off6) s t ∧ sameConsole u t) ∧
    (s.consoleNeverFails → ∃ v u, memRead (readReg baseR s + sext6 off6) s = .ok v u)

/-- R176: the address itself, flags set, no memory access. -/
def Obligations.LeaLoadsTheAddress : Prop :=
  ∀ (dr : RegIdx) (off9 : BitVec 9) (s : State),
    decode (0b1110#4 ++ dr ++ off9) = .lea dr off9 ∧
    ∃ t, exec (.lea dr off9) s = .next t ∧ writesResult dr (s.pc + sext9 off9) s t ∧ sameConsole s t

/-! ## Memory and the device registers -/

/-- 20_memory.md sections 2, 4 and 5 (R55, R61, R64, R65, R75): what MemRead answers at a plain address, at KBSR, at KBDR
with a character pending and with none, and where a console call it makes fails. The script of answers is the model's
(log 2). -/
def Obligations.MemReadAnswersByAddress : Prop :=
  ∀ (a : Word) (s : State),
    (s.plain a → memRead a s = .ok (s.mem.read a.toNat) s) ∧
    (a = s.cfg.kbsrAddr → nextCallFails s = false →
      memRead a s = .ok (if s.conIn = [] then 0x0000#16 else 0x8000#16) { s with conFails := s.conFails.tail }) ∧
    (a = s.cfg.kbdrAddr → s.cfg.wf → s.conIn = [] → nextCallFails s = false →
      memRead a s = .ok s.kbdrLatch { s with conFails := s.conFails.tail }) ∧
    (∀ c rest, a = s.cfg.kbdrAddr → s.cfg.wf → s.conIn = c :: rest → nextCallFails s = false →
      nextCallFails (callMade s) = false →
      memRead a s = .ok (zext8 c)
        { s with kbdrLatch := zext8 c, conIn := rest, conFails := s.conFails.tail.tail }) ∧
    (¬ s.plain a → nextCallFails s = true → memRead a s = .fail { s with conFails := s.conFails.tail }) ∧
    (a = s.cfg.kbdrAddr → s.cfg.wf → s.conIn ≠ [] → nextCallFails s = false →
      nextCallFails (callMade s) = true → memRead a s = .fail { s with conFails := s.conFails.tail.tail })

/-- R56: a write to a plain address replaces its whole Word and no other; a write to a device address is discarded. -/
def Obligations.MemWriteReplacesOneWord : Prop :=
  ∀ (a v : Word) (s : State), s.mem.wf = true →
    (s.plain a → memRead a (memWrite a v s) = .ok v (memWrite a v s)) ∧
    (∀ b : Nat, b ≠ a.toNat → (memWrite a v s).mem.read b = s.mem.read b) ∧
    (memWrite a v s = { s with mem := (memWrite a v s).mem }) ∧
    (¬ s.plain a → memWrite a v s = s)

/-! ## Stores -/

/-- R190. -/
def Obligations.StStoresPcRelative : Prop :=
  ∀ (sr : RegIdx) (off9 : BitVec 9) (s : State), s.mem.wf = true →
    decode (0b0011#4 ++ sr ++ off9) = .st sr off9 ∧
    ∃ t, exec (.st sr off9) s = .next t ∧ storesWord (pcRel9 off9 s) (readReg sr s) s t ∧ sameConsole s t

/-- R192: the pointer read, then the write through it; with R263. -/
def Obligations.StiStoresThroughPointer : Prop :=
  ∀ (sr : RegIdx) (off9 : BitVec 9) (s : State), s.mem.wf = true →
    decode (0b1011#4 ++ sr ++ off9) = .sti sr off9 ∧
    (∀ ea u, memRead (pcRel9 off9 s) s = .ok ea u →
      ∃ t, exec (.sti sr off9) s = .next t ∧ storesWord ea (readReg sr s) s t ∧ sameConsole u t) ∧
    (∀ u, memRead (pcRel9 off9 s) s = .fail u →
      ∃ t, exec (.sti sr off9) s = .next t ∧ faultsWith .ioError (s.pc - 1#16) (0b1011#4 ++ sr ++ off9) s t ∧
        sameConsole u t) ∧
    (s.consoleNeverFails → ∃ ea u, memRead (pcRel9 off9 s) s = .ok ea u)

/-- R194. -/
def Obligations.StrStoresBasePlusOffset : Prop :=
  ∀ (sr baseR : RegIdx) (off6 : BitVec 6) (s : State), s.mem.wf = true →
    decode (0b0111#4 ++ sr ++ baseR ++ off6) = .str sr baseR off6 ∧
    ∃ t, exec (.str sr baseR off6) s = .next t ∧ storesWord (baseOff6 baseR off6 s) (readReg sr s) s t ∧
      sameConsole s t

/-! ## Control transfer -/

/-- R200: taken when an encoded condition bit meets a set flag. -/
def Obligations.BrBranchesOnAMatchingFlag : Prop :=
  ∀ (n z p : Bool) (off9 : BitVec 9) (s : State),
    decode (0b0000#4 ++ BitVec.ofBool n ++ BitVec.ofBool z ++ BitVec.ofBool p ++ off9) = .br n z p off9 ∧
    ∃ t, exec (.br n z p off9) s = .next t ∧
      jumpsTo (if (n && s.cond.getLsbD 2) || (z && s.cond.getLsbD 1) || (p && s.cond.getLsbD 0)
        then s.pc + sext9 off9 else s.pc) [] s t

/-- 44_control.md (R202 a to c): BRnzp always branches where one flag is set, BR with no condition bit never does, and any
taken branch with offset -1 has `pc = pc0`; at a plain address the step leaves the whole state as it was, so it hangs. -/
def Obligations.BrCornerCases : Prop :=
  (∀ (off9 : BitVec 9) (s : State), oneHot s.cond →
    exec (.br true true true off9) s = .next { s with pc := s.pc + sext9 off9 }) ∧
  (∀ (off9 : BitVec 9) (s : State), exec (.br false false false off9) s = .next s) ∧
  (∀ (n z p : Bool) (s : State), (n && s.cond.getLsbD 2) || (z && s.cond.getLsbD 1) || (p && s.cond.getLsbD 0) →
    exec (.br n z p 0x1FF#9) s = .next { s with pc := s.pc - 1#16 } ∧
    (s.willFetch → s.plain s.pc →
      s.mem.read s.pc.toNat = 0b0000#4 ++ BitVec.ofBool n ++ BitVec.ofBool z ++ BitVec.ofBool p ++ 0x1FF#9 →
      step s = .next s))

/-- R204; RET is `BaseR = 7`. -/
def Obligations.JmpJumpsToTheRegister : Prop :=
  ∀ (baseR : RegIdx) (ign119 : BitVec 3) (ign50 : BitVec 6) (s : State),
    decode (0b1100#4 ++ ign119 ++ baseR ++ ign50) = .jmp baseR ign119 ign50 ∧
    ∃ t, exec (.jmp baseR ign119 ign50) s = .next t ∧ jumpsTo (readReg baseR s) [] s t

/-- R206. -/
def Obligations.JsrLinksAndJumps : Prop :=
  ∀ (off11 : BitVec 11) (s : State),
    decode (0b0100#4 ++ 0b1#1 ++ off11) = .jsr off11 ∧
    ∃ t, exec (.jsr off11) s = .next t ∧ jumpsTo (s.pc + sext11 off11) [R7] s t ∧ readReg R7 t = s.pc

/-- R208, for both values of `JSRR_LINK_FIRST`: only `JSRR R7` under link-first falls through. -/
def Obligations.JsrrLinksAndJumps : Prop :=
  ∀ (baseR : RegIdx) (ign109 : BitVec 2) (ign50 : BitVec 6) (s : State),
    decode (0b0100#4 ++ 0b0#1 ++ ign109 ++ baseR ++ ign50) = .jsrr baseR ign109 ign50 ∧
    ∃ t, exec (.jsrr baseR ign109 ign50) s = .next t ∧
      jumpsTo (if baseR = R7 ∧ s.cfg.jsrrLinkFirst = true then s.pc else readReg baseR s) [R7] s t ∧
      readReg R7 t = s.pc

/-! ## The opcodes that always fault -/

/-- R220 and R222. -/
def Obligations.RtiAndReservedRaiseIllegalInstruction : Prop :=
  ∀ (ign110 : BitVec 12) (s : State),
    decode (0b1000#4 ++ ign110) = .rti ign110 ∧
    (∃ t, exec (.rti ign110) s = .next t ∧ faultsWith .illegalInstruction (s.pc - 1#16) (0b1000#4 ++ ign110) s t ∧
      sameConsole s t) ∧
    decode (0b1101#4 ++ ign110) = .reserved ign110 ∧
    (∃ t, exec (.reserved ign110) s = .next t ∧
      faultsWith .illegalInstruction (s.pc - 1#16) (0b1101#4 ++ ign110) s t ∧ sameConsole s t)

/-! ## TRAP and the services -/

/-- R248: an unrecognised vector. -/
def Obligations.UnrecognisedVectorRaisesIllegalTrap : Prop :=
  ∀ (v : BitVec 8) (ign118 : BitVec 4) (s : State), v.toNat < 0x20 ∨ 0x25 < v.toNat →
    decode (0b1111#4 ++ ign118 ++ v) = .trap v ign118 ∧
    ∃ t, exec (.trap v ign118) s = .next t ∧ faultsWith .illegalTrap (s.pc - 1#16) (0b1111#4 ++ ign118 ++ v) s t ∧
      sameConsole s t

/-- 46_trap.md (R234), with a character pending and a console call that answers. The answer used up (`conFails`) is the
model's script (log 2); that `hold` ends none is log 4. -/
def Obligations.GetcReadsOneCharacter : Prop :=
  ∀ (ign118 : BitVec 4) (c : Byte) (rest : List Byte) (s : State),
    s.conIn = c :: rest → nextCallFails s = false →
    decode (0b1111#4 ++ ign118 ++ 0x20#8) = .getc ign118 ∧
    ∃ t, exec (.getc ign118) s = .next t ∧ trapReturns [R0] s t ∧ readReg R0 t = zext8 c ∧ t.hold = none ∧ t.run = s.run ∧
      t.faultKind = s.faultKind ∧ t.faultPc = s.faultPc ∧ t.faultIr = s.faultIr ∧ sameHost s t ∧
      t.conIn = rest ∧ t.conOut = s.conOut ∧ t.kbdrLatch = s.kbdrLatch ∧ t.conFails = s.conFails.tail

/-- 46_trap.md (R236, R250): the low byte of R0 goes out, or IOError where the console call fails (R263). That a call that
fails has written nothing, and that each call uses up one scripted answer, is the model's choice (log 2). -/
def Obligations.OutWritesTheLowByteOfR0 : Prop :=
  ∀ (ign118 : BitVec 4) (s : State),
    decode (0b1111#4 ++ ign118 ++ 0x21#8) = .out ign118 ∧
    (nextCallFails s = false → ∃ t, exec (.out ign118) s = .next t ∧ trapReturns [] s t ∧ sameControl s t ∧
      t.conOut = s.conOut ++ [(readReg R0 s).extractLsb' 0 8] ∧
      t.conIn = s.conIn ∧ t.kbdrLatch = s.kbdrLatch ∧ t.conFails = s.conFails.tail) ∧
    (nextCallFails s = true → ∃ t, exec (.out ign118) s = .next t ∧
      faultsWith .ioError (s.pc - 1#16) (0b1111#4 ++ ign118 ++ 0x21#8) s t ∧
      t.conIn = s.conIn ∧ t.conOut = s.conOut ∧ t.kbdrLatch = s.kbdrLatch)

/-- 46_trap.md (R238), for a string `ws` of nonzero Words and its zero Word at plain addresses, the console not failing. The
answers used up are the model's script (log 2). -/
def Obligations.PutsWritesTheStringAndStops : Prop :=
  ∀ (ign118 : BitVec 4) (ws : List Word) (s : State),
    (∀ k, k ≤ ws.length → s.plain (readReg R0 s + BitVec.ofNat 16 k)) →
    (∀ k (h : k < ws.length), s.mem.read (readReg R0 s + BitVec.ofNat 16 k).toNat = ws[k] ∧ ws[k] ≠ 0) →
    s.mem.read (readReg R0 s + BitVec.ofNat 16 ws.length).toNat = 0 → s.consoleNeverFails →
    decode (0b1111#4 ++ ign118 ++ 0x22#8) = .puts ign118 ∧
    ∃ t, exec (.puts ign118) s = .next t ∧ trapReturns [] s t ∧ sameControl s t ∧
      t.conOut = s.conOut ++ ws.map (fun w => w.extractLsb' 0 8) ∧
      t.conIn = s.conIn ∧ t.kbdrLatch = s.kbdrLatch ∧ t.conFails = s.conFails.drop ws.length

/-- 46_trap.md (R242), for Words `ws` of two nonzero bytes and a last Word `z` with a zero byte, at plain addresses, the
console not failing: low byte, then high byte, nothing for the zero byte. The answers used up are log 2's script. -/
def Obligations.PutspWritesPackedBytesAndStops : Prop :=
  ∀ (ign118 : BitVec 4) (ws : List Word) (z : Word) (s : State),
    (∀ k, k ≤ ws.length → s.plain (readReg R0 s + BitVec.ofNat 16 k)) →
    (∀ k (h : k < ws.length), s.mem.read (readReg R0 s + BitVec.ofNat 16 k).toNat = ws[k] ∧
      ws[k].extractLsb' 0 8 ≠ 0#8 ∧ ws[k].extractLsb' 8 8 ≠ 0#8) →
    s.mem.read (readReg R0 s + BitVec.ofNat 16 ws.length).toNat = z →
    (z.extractLsb' 0 8 = 0#8 ∨ z.extractLsb' 8 8 = 0#8) → s.consoleNeverFails →
    decode (0b1111#4 ++ ign118 ++ 0x24#8) = .putsp ign118 ∧
    ∃ t, exec (.putsp ign118) s = .next t ∧ trapReturns [] s t ∧ sameControl s t ∧
      t.conOut = s.conOut ++ ws.flatMap (fun w => [w.extractLsb' 0 8, w.extractLsb' 8 8]) ++
        (if z.extractLsb' 0 8 = 0#8 then [] else [z.extractLsb' 0 8]) ∧
      t.conIn = s.conIn ∧ t.kbdrLatch = s.kbdrLatch ∧
      t.conFails = s.conFails.drop (2 * ws.length + if z.extractLsb' 0 8 = 0#8 then 0 else 1)

/-- The model's bound on the two scans (log 9) never shows: within one instruction every scan meets KBSR, which reads
0x0000 once no character is pending, so PUTS and PUTSP complete in every state whose two device addresses differ. -/
def Obligations.PutsAndPutspAlwaysComplete : Prop :=
  ∀ (ign118 : BitVec 4) (s : State), s.cfg.wf →
    (∃ t, exec (.puts ign118) s = .next t) ∧ (∃ t, exec (.putsp ign118) s = .next t)

/-- PUTS and PUTSP do what the unbounded loops of 46_trap.md (R238, R242) do, strings across a device address included:
a completed service is a run of the loop, and a run of the loop is a completed service. -/
def Obligations.PutsAndPutspAreTheirLoops : Prop :=
  ∀ (ign118 : BitVec 4) (s t : State), s.cfg.wf → s.run = .running →
    ((exec (.puts ign118) s = .next t ∧ t.run = .running) ↔ PutsRun (readReg R0 s) (linkR7 s) t) ∧
    ((exec (.putsp ign118) s = .next t ∧ t.run = .running) ↔ PutspRun (readReg R0 s) (linkR7 s) t)

/-- 46_trap.md (R240), with a character pending and the console not failing: prompt, read, echo, R0. The answers used up are
the model's script (log 2); that `hold` ends none is log 4. -/
def Obligations.InPromptsReadsAndEchoes : Prop :=
  ∀ (ign118 : BitVec 4) (c : Byte) (rest : List Byte) (s : State),
    s.conIn = c :: rest → s.consoleNeverFails →
    decode (0b1111#4 ++ ign118 ++ 0x23#8) = .inChar ign118 ∧
    ∃ t, exec (.inChar ign118) s = .next t ∧ trapReturns [R0] s t ∧ readReg R0 t = zext8 c ∧ t.hold = none ∧ t.run = s.run ∧
      t.faultKind = s.faultKind ∧ t.faultPc = s.faultPc ∧ t.faultIr = s.faultIr ∧ sameHost s t ∧
      t.conOut = s.conOut ++ s.cfg.inPrompt ++ [c] ∧ t.conIn = rest ∧ t.kbdrLatch = s.kbdrLatch ∧
      t.conFails = s.conFails.drop (s.cfg.inPrompt.length + 2)

/-- 46_trap.md (R246, R250): HALT commits, `x[7] = pc = pc0 + 1`, nothing is written out, no step follows and only reset
leaves HALTED; or IOError where the flush fails (R263). That each call uses up one scripted answer, and that one that
fails has done nothing else, is the model's choice (log 2). -/
def Obligations.HaltEndsTheRun : Prop :=
  ∀ (ign118 : BitVec 4) (s : State),
    decode (0b1111#4 ++ ign118 ++ 0x25#8) = .halt ign118 ∧
    (nextCallFails s = false → ∃ t, exec (.halt ign118) s = .next t ∧ trapReturns [] s t ∧ t.run = .halted ∧
      t.faultKind = s.faultKind ∧ t.faultPc = s.faultPc ∧ t.faultIr = s.faultIr ∧ t.hold = s.hold ∧ sameHost s t ∧
      t.conOut = s.conOut ∧ t.conIn = s.conIn ∧ t.kbdrLatch = s.kbdrLatch ∧ t.conFails = s.conFails.tail ∧
      step t = .next t ∧ ∀ m u, m ≠ HostMove.reset → hostMove m t = .done u → u.run = .halted) ∧
    (nextCallFails s = true → ∃ t, exec (.halt ign118) s = .next t ∧
      faultsWith .ioError (s.pc - 1#16) (0b1111#4 ++ ign118 ++ 0x25#8) s t ∧
      t.conIn = s.conIn ∧ t.conOut = s.conOut ∧ t.kbdrLatch = s.kbdrLatch)

/-- 46_trap.md (R244): no TRAP, completed, held or faulting, changes R1 to R6, the flags or memory. -/
def Obligations.TrapsKeepR1ToR6FlagsAndMemory : Prop :=
  ∀ (i : Instr) (s t : State), isTrap i = true → exec i s = .next t →
    sameRegsBut [R0, R7] s t ∧ t.cond = s.cond ∧ sameMem s t

/-- 46_trap.md (R250): a service whose first console call fails raises IOError with nothing committed; only the answer is
used up (that a failing call does nothing else is log 2). PUTS makes that call for a string whose first Word, at a plain
address, is nonzero, PUTSP for one whose first Word has a nonzero low byte. -/
def Obligations.FailingConsoleRaisesIOError : Prop :=
  ∀ (i : Instr) (ign118 : BitVec 4) (s : State), nextCallFails s = true →
    (i = .getc ign118 ∨ i = .out ign118 ∨ i = .inChar ign118 ∨ i = .halt ign118 ∨
      (i = .puts ign118 ∧ s.plain (readReg R0 s) ∧ s.mem.read (readReg R0 s).toNat ≠ 0#16) ∨
      (i = .putsp ign118 ∧ s.plain (readReg R0 s) ∧
        (s.mem.read (readReg R0 s).toNat).extractLsb' 0 8 ≠ 0#8)) →
    ∃ t, exec i s = .next t ∧ faultsWith .ioError (s.pc - 1#16) (encode i) s t ∧
      t.conIn = s.conIn ∧ t.conOut = s.conOut ∧ t.kbdrLatch = s.kbdrLatch ∧ t.conFails = s.conFails.tail

/-- 46_trap.md (R250), 40_instruction_cycle.md (R132): a service that fails after its first console call commits nothing,
but the characters it has written stay written and a character it has taken stays taken. IN fails in its prompt, at the
read after the whole prompt, or at the echo; IN and GETC held for a character fail in the wait, IN also at its echo (how the
wait is kept is log 4); PUTS fails after `ws`, PUTSP after `ws` or between the two bytes of `w`, strings at plain
addresses. That the call that fails does nothing itself is log 2. -/
def Obligations.FailingServiceKeepsWhatItHasDone : Prop :=
  ∀ (ign118 : BitVec 4) (s : State),
    (∀ n, n ≤ s.cfg.inPrompt.length → s.failsAfter n →
      ∃ t, exec (.inChar ign118) s = .next t ∧ faultsWith .ioError (s.pc - 1#16) (encode (.inChar ign118)) s t ∧
        t.conOut = s.conOut ++ s.cfg.inPrompt.take n ∧ t.conIn = s.conIn ∧ t.kbdrLatch = s.kbdrLatch) ∧
    (∀ c rest, s.conIn = c :: rest → s.failsAfter (s.cfg.inPrompt.length + 1) →
      ∃ t, exec (.inChar ign118) s = .next t ∧ faultsWith .ioError (s.pc - 1#16) (encode (.inChar ign118)) s t ∧
        t.conOut = s.conOut ++ s.cfg.inPrompt ∧ t.conIn = rest ∧ t.kbdrLatch = s.kbdrLatch) ∧
    (∀ h, s.run = .running → s.hold = some h → s.failsAfter 0 →
      ∃ t, step s = .next t ∧ faultsWith .ioError s.pc (encode h.instr) s t ∧
        t.conOut = s.conOut ∧ t.conIn = s.conIn ∧ t.kbdrLatch = s.kbdrLatch) ∧
    (∀ c rest, s.run = .running → s.hold = some (.inChar ign118) → s.conIn = c :: rest → s.failsAfter 1 →
      ∃ t, step s = .next t ∧ faultsWith .ioError s.pc (encode (.inChar ign118)) s t ∧
        t.conOut = s.conOut ∧ t.conIn = rest ∧ t.kbdrLatch = s.kbdrLatch) ∧
    (∀ (ws : List Word) (w : Word),
      (∀ k, k ≤ ws.length → s.plain (readReg R0 s + BitVec.ofNat 16 k)) →
      (∀ k (h : k < ws.length), s.mem.read (readReg R0 s + BitVec.ofNat 16 k).toNat = ws[k] ∧ ws[k] ≠ 0) →
      s.mem.read (readReg R0 s + BitVec.ofNat 16 ws.length).toNat = w → w ≠ 0 → s.failsAfter ws.length →
      ∃ t, exec (.puts ign118) s = .next t ∧ faultsWith .ioError (s.pc - 1#16) (encode (.puts ign118)) s t ∧
        t.conOut = s.conOut ++ ws.map (fun w => w.extractLsb' 0 8) ∧ t.conIn = s.conIn ∧
        t.kbdrLatch = s.kbdrLatch) ∧
    (∀ (ws : List Word) (w : Word),
      (∀ k, k ≤ ws.length → s.plain (readReg R0 s + BitVec.ofNat 16 k)) →
      (∀ k (h : k < ws.length), s.mem.read (readReg R0 s + BitVec.ofNat 16 k).toNat = ws[k] ∧
        ws[k].extractLsb' 0 8 ≠ 0#8 ∧ ws[k].extractLsb' 8 8 ≠ 0#8) →
      s.mem.read (readReg R0 s + BitVec.ofNat 16 ws.length).toNat = w → w.extractLsb' 0 8 ≠ 0#8 →
      (s.failsAfter (2 * ws.length) →
        ∃ t, exec (.putsp ign118) s = .next t ∧ faultsWith .ioError (s.pc - 1#16) (encode (.putsp ign118)) s t ∧
          t.conOut = s.conOut ++ ws.flatMap (fun w => [w.extractLsb' 0 8, w.extractLsb' 8 8]) ∧
          t.conIn = s.conIn ∧ t.kbdrLatch = s.kbdrLatch) ∧
      (w.extractLsb' 8 8 ≠ 0#8 → s.failsAfter (2 * ws.length + 1) →
        ∃ t, exec (.putsp ign118) s = .next t ∧ faultsWith .ioError (s.pc - 1#16) (encode (.putsp ign118)) s t ∧
          t.conOut = s.conOut ++ ws.flatMap (fun w => [w.extractLsb' 0 8, w.extractLsb' 8 8]) ++
            [w.extractLsb' 0 8] ∧
          t.conIn = s.conIn ∧ t.kbdrLatch = s.kbdrLatch))

/-! ## Waiting for a character -/

/-- 20_memory.md section 5 (R72), 46_trap.md (R234, R240): with nothing pending GETC and IN are held; nothing is
committed, and IN's prompt is already written. How the wait is kept is the model's choice (log 4). -/
def Obligations.GetcAndInAreHeldWithoutInput : Prop :=
  ∀ (ign118 : BitVec 4) (s : State), s.conIn = [] → s.consoleNeverFails →
    (∃ t, exec (.getc ign118) s = .next t ∧ t.hold = some (.getc ign118) ∧ t.conOut = s.conOut ∧
      sameRegsBut [] s t ∧ t.pc = s.pc - 1#16 ∧ t.cond = s.cond ∧ sameMem s t ∧ t.run = s.run ∧ t.conIn = [] ∧
      t.kbdrLatch = s.kbdrLatch ∧ sameHost s t) ∧
    (∃ t, exec (.inChar ign118) s = .next t ∧ t.hold = some (.inChar ign118) ∧
      t.conOut = s.conOut ++ s.cfg.inPrompt ∧
      sameRegsBut [] s t ∧ t.pc = s.pc - 1#16 ∧ t.cond = s.cond ∧ sameMem s t ∧ t.run = s.run ∧ t.conIn = [] ∧
      t.kbdrLatch = s.kbdrLatch ∧ sameHost s t)

/-- 20_memory.md section 5 (R72): a held core changes nothing while no character arrives and the console does not fail. A
pending stop is not honoured (70_reset_and_hazards.md R309). -/
def Obligations.HeldCoreWaits : Prop :=
  ∀ (h : Held) (s : State), s.run = .running → s.hold = some h → s.conIn = [] → nextCallFails s = false →
    step s = .next { s with conFails := s.conFails.tail }

/-- 20_memory.md section 5 (R72): a delivery lifts the hold, and the instruction ends as it would have ended had the
character been pending when it began. -/
def Obligations.DeliveryEndsTheHold : Prop :=
  ∀ (ign118 : BitVec 4) (c : Byte) (i : Instr) (s : State), (i = .getc ign118 ∨ i = .inChar ign118) →
    s.run = .running → s.hold = none → s.conIn = [] → s.conFails = [] →
    ∃ h, exec i s = .next h ∧ h.hold ≠ none ∧ step (deliverInput c h) = exec i (deliverInput c s) ∧
      ∃ t, exec i (deliverInput c s) = .next t ∧ t.hold = none ∧ readReg R0 t = zext8 c

/-! ## The cycle, faults, and what no instruction does -/

/-- R130: the step of a core that fetches is `exec` of the decoded Word, `pc` already incremented; at a plain address the
Word is the one in memory, and a Word that encodes a well-formed instruction runs that instruction. -/
def Obligations.StepRunsTheDecodedInstruction : Prop :=
  ∀ s : State, s.willFetch →
    (∀ ir u, memRead s.pc s = .ok ir u → step s = exec (decode ir) { u with pc := s.pc + 1#16 }) ∧
    (s.plain s.pc → step s = exec (decode (s.mem.read s.pc.toNat)) { s with pc := s.pc + 1#16 }) ∧
    (∀ i : Instr, i.WellFormed → s.plain s.pc → s.mem.read s.pc.toNat = encode i →
      step s = exec i { s with pc := s.pc + 1#16 })

/-- 40_instruction_cycle.md section 1 (R136), 10_state.md (R33): outside RUNNING a step changes nothing; a terminal run
state is left by reset alone. -/
def Obligations.OnlyResetLeavesATerminalState : Prop :=
  (∀ s : State, s.run ≠ .running → step s = .next s) ∧
  (∀ (m : HostMove) (s t : State), s.run.terminal → hostMove m s = .done t → m ≠ .reset →
    t.run = s.run ∧ t.regs = s.regs ∧ t.pc = s.pc ∧ t.cond = s.cond ∧ t.mem = s.mem ∧
    t.faultKind = s.faultKind ∧ t.faultPc = s.faultPc ∧ t.faultIr = s.faultIr)

/-- 60_exceptions.md section 2 (R264, R266): whatever instruction faults, the step leaves registers, `pc`, flags and memory
as before the fetch, and records `pc0` and the Word fetched (0x0000 if the fetch failed). -/
def Obligations.FaultsArePrecise : Prop :=
  ∀ s t : State, s.run = .running → step s = .next t → t.run = .faulted →
    sameRegsBut [] s t ∧ t.pc = s.pc ∧ t.cond = s.cond ∧ sameMem s t ∧ t.faultKind ≠ .none ∧ t.faultPc = s.pc ∧
    t.hold = none ∧
    (∀ h, s.hold = some h → t.faultIr = encode h.instr) ∧
    (s.hold = none → ∀ ir u, fetch s = .ok ir u → t.faultIr = ir) ∧
    (s.hold = none → ∀ u, fetch s = .fail u → t.faultIr = 0 ∧ t.faultKind = .ioError)

/-- R261 and R262: which Words raise which fault, and what is recorded; and that an IOError needs a console that fails
(R263). -/
def Obligations.FaultKindFollowsTheWord : Prop :=
  ∀ (s t u : State) (ir : Word), s.willFetch → fetch s = .ok ir u → step s = .next t →
    ((t.run = .faulted ∧ t.faultKind.code = 1#2) ↔
      (ir.extractLsb' 12 4 = 0b1101#4 ∨ ir.extractLsb' 12 4 = 0b1000#4)) ∧
    ((t.run = .faulted ∧ t.faultKind.code = 2#2) ↔
      (ir.extractLsb' 12 4 = 0b1111#4 ∧ ¬ (0x20 ≤ (ir.extractLsb' 0 8).toNat ∧ (ir.extractLsb' 0 8).toNat ≤ 0x25))) ∧
    (t.run = .faulted → t.faultPc = s.pc ∧ t.faultIr = ir) ∧
    ((t.run = .faulted ∧ t.faultKind.code = 3#2) → ¬ s.consoleNeverFails)

/-- 10_state.md (R21, R23), 20_memory.md (R51): the frame of every instruction at once. Registers other than those the
instruction writes stay; memory stays but for stores; `pc` stays the incremented PC but for control transfers, faults and
instructions that are held, which have it at `pc0` (for a held one that is the model's choice, log 4); the host's requests
and the parameters stay. Which Word a store changes is left to the statements of ST, STI and STR. -/
def Obligations.EveryInstructionKeepsItsFrame : Prop :=
  ∀ (i : Instr) (s t : State), exec i s = .next t →
    sameRegsBut (writtenRegs i) s t ∧
    (isStore i = false → sameMem s t) ∧
    (isControl i = false → t.pc = s.pc ∨ (t.pc = s.pc - 1#16 ∧ (t.run = .faulted ∨ t.hold ≠ none))) ∧
    sameHost s t

/-- 20_memory.md section 5 (R70): output is only appended to, input only taken from the head; a step, faulting or not,
changes no parameter. That a fault undoes no console effect is `FailingServiceKeepsWhatItHasDone`. -/
def Obligations.OutputIsAppendedAndInputTakenFromTheHead : Prop :=
  ∀ s t : State, step s = .next t →
    (∃ written, t.conOut = s.conOut ++ written) ∧ (∃ taken, s.conIn = taken ++ t.conIn) ∧ t.cfg = s.cfg

/-- R83: the Word that `ST SR, #0` stores over the next instruction is the instruction the next step runs. -/
def Obligations.StoredWordIsTheNextInstruction : Prop :=
  ∀ (sr : RegIdx) (s : State), s.mem.wf = true → s.willFetch → s.plain s.pc → s.plain (s.pc + 1#16) →
    s.mem.read s.pc.toNat = 0b0011#4 ++ sr ++ 0#9 →
    ∃ t, step s = .next t ∧ step t = exec (decode (readReg sr s)) { t with pc := s.pc + 2#16 }

/-- 45_illegal.md (R224), 20_memory.md (R65), 60_exceptions.md (R263): fetching from the device addresses. KBSR gives RTI or
a never-taken BR; KBDR with a character a never-taken BR that has consumed it, with none the latch, whatever it holds; a
fetch whose ready query fails, or whose read fails after the query answered, IOError with Word 0x0000 (that a failing call
takes nothing is log 2). -/
def Obligations.FetchFromADeviceAddress : Prop :=
  ∀ s : State, s.willFetch → s.cfg.wf →
    (s.pc = s.cfg.kbsrAddr → nextCallFails s = false → s.conIn ≠ [] →
      ∃ t, step s = .next t ∧ faultsWith .illegalInstruction s.pc 0x8000#16 s t ∧ t.conIn = s.conIn ∧
        t.conOut = s.conOut) ∧
    (s.pc = s.cfg.kbsrAddr → nextCallFails s = false → s.conIn = [] →
      step s = .next { s with pc := s.pc + 1#16, conFails := s.conFails.tail }) ∧
    (∀ c rest, s.pc = s.cfg.kbdrAddr → nextCallFails s = false → nextCallFails (callMade s) = false →
      s.conIn = c :: rest →
      step s = .next { s with
        pc := s.pc + 1#16, kbdrLatch := zext8 c, conIn := rest, conFails := s.conFails.tail.tail }) ∧
    (s.pc = s.cfg.kbdrAddr → nextCallFails s = false → s.conIn = [] →
      step s = exec (decode s.kbdrLatch) { s with pc := s.pc + 1#16, conFails := s.conFails.tail } ∧
      (s.kbdrLatch.toNat < 256 → step s = .next { s with pc := s.pc + 1#16, conFails := s.conFails.tail })) ∧
    (¬ s.plain s.pc → nextCallFails s = true →
      ∃ t, step s = .next t ∧ faultsWith .ioError s.pc 0 s t ∧ t.conIn = s.conIn ∧ t.conOut = s.conOut ∧
        t.kbdrLatch = s.kbdrLatch) ∧
    (s.pc = s.cfg.kbdrAddr → nextCallFails s = false → s.conIn ≠ [] → nextCallFails (callMade s) = true →
      ∃ t, step s = .next t ∧ faultsWith .ioError s.pc 0 s t ∧ t.conIn = s.conIn ∧ t.conOut = s.conOut ∧
        t.kbdrLatch = s.kbdrLatch)

/-! ## Invariants -/

/-- Every step keeps the invariant: parameters legal, memory canonical and empty at the device addresses, exactly one flag
set, the latch a byte, the fault record written exactly in FAULTED, held only while RUNNING, no stop pending in IDLE, IDLE for good after a LoadError (R265). -/
def Obligations.StepKeepsTheInvariant : Prop :=
  ∀ s t : State, s.Inv → step s = .next t → t.Inv

/-- So does every move of the host and the console, a load of any object file included, whether it places the image or is a
LoadError. -/
def Obligations.HostMovesKeepTheInvariant : Prop :=
  ∀ (m : HostMove) (s t : State), s.Inv →
    hostMove m s = .done t ∨ (∃ why, hostMove m s = .loadError why t) → t.Inv

/-- The state after reset meets it. -/
def Obligations.ResetMeetsTheInvariant : Prop := State.reset.Inv

/-- No state that meets the invariant stops the machine, and every state a run can reach, whatever the host and the
console do, meets it: from reset on, every step answers a next state. That PUTS and PUTSP do so in every such state, where
R238 and R323 speak of a hang, is deduced from R61 and from R76's fixed `con_in` (log 9, log 1). -/
def Obligations.NoReachableStateStopsTheMachine : Prop :=
  (∀ s : State, s.Inv → ∃ t, step s = .next t) ∧ (∀ s : State, Reachable s → s.Inv)

/-! ## Reset, loading, start and stop -/

/-- R35 for the values; R300 and R302 for the host's reset from any run state, which leaves the console alone. -/
def Obligations.ResetGivesEveryStateItsValue : Prop :=
  (∀ r, readReg r State.reset = 0x0000#16) ∧ State.reset.pc = 0x3000#16 ∧ State.reset.cond = 0b010#3 ∧
  (∀ a, State.reset.mem.read a = 0x0000#16) ∧ State.reset.kbdrLatch = 0x0000#16 ∧ State.reset.run = .idle ∧
  State.reset.faultKind.code = 0 ∧ State.reset.faultPc = 0 ∧ State.reset.faultIr = 0 ∧
  (∀ s : State, ∃ t, hostMove .reset s = .done t ∧ sameRegsBut [] State.reset t ∧ t.pc = 0x3000#16 ∧
    t.cond = 0b010#3 ∧ sameMem State.reset t ∧ t.kbdrLatch = 0x0000#16 ∧ t.run = .idle ∧ t.faultKind.code = 0 ∧
    t.faultPc = 0 ∧ t.faultIr = 0 ∧ t.conIn = s.conIn ∧ t.conOut = s.conOut)

/-- 70_reset_and_hazards.md (R306): a load of an object file, given as its big-endian bytes, in IDLE with nothing loaded yet.
The model's own field `loadStatus`, which the spec does not have, is the one other field that changes (log 6). -/
def Obligations.LoadPlacesTheImage : Prop :=
  ∀ (o : Word) (ws : List Word) (s : State),
    s.run = .idle → s.loadStatus = .notLoaded → s.mem.wf = true → o.toNat + ws.length ≤ 65536 →
    s.cfg.loadMinOrigin.toNat ≤ o.toNat →
    ∃ t, hostMove (.load (objectBytes (o :: ws))) s = .done t ∧ t.pc = o ∧
      (∀ k (h : k < ws.length), s.plain (o + BitVec.ofNat 16 k) → t.mem.read (o.toNat + k) = ws[k]) ∧
      (∀ a : Word, ¬ s.plain a → t.mem.read a.toNat = s.mem.read a.toNat) ∧
      (∀ a, a < o.toNat ∨ o.toNat + ws.length ≤ a → t.mem.read a = s.mem.read a) ∧
      sameRegsBut [] s t ∧ t.cond = s.cond ∧ t.run = .idle ∧ sameConsole s t ∧ t.faultKind = s.faultKind ∧
      t.faultPc = s.faultPc ∧ t.faultIr = s.faultIr ∧ t.hold = s.hold ∧ t.stopReq = s.stopReq ∧ t.cfg = s.cfg

/-- 70_reset_and_hazards.md (R307), 60_exceptions.md (R265): the four refusals, each leaving the state as it was but for the
model's own field `loadStatus` (log 6); the order in which they are tested is the model's too (log 6). After a LoadError
`run` never becomes RUNNING: a step changes nothing, there is no start and no further load (log 14), and every other move
but reset leaves the core in IDLE with its load failed; reset makes a load and a start moves again. -/
def Obligations.MalformedFilesAreLoadErrors : Prop :=
  (∀ (file : List Byte) (s : State), s.run = .idle → s.loadStatus = .notLoaded →
    (file.length < 2 → hostMove (.load file) s = .loadError .noOrigin { s with loadStatus := .failed }) ∧
    (2 ≤ file.length → file.length % 2 = 1 →
      hostMove (.load file) s = .loadError .truncated { s with loadStatus := .failed }) ∧
    (∀ (o : Word) (ws : List Word), file = objectBytes (o :: ws) → 65536 < o.toNat + ws.length →
      hostMove (.load file) s = .loadError .pastEnd { s with loadStatus := .failed }) ∧
    (∀ (o : Word) (ws : List Word), file = objectBytes (o :: ws) → o.toNat + ws.length ≤ 65536 →
      o.toNat < s.cfg.loadMinOrigin.toNat →
      hostMove (.load file) s = .loadError .lowOrigin { s with loadStatus := .failed })) ∧
  (∀ s : State, s.run = .idle → s.loadStatus = .failed →
    step s = .next s ∧ hostMove .start s = .noSuchMove ∧ (∀ file, hostMove (.load file) s = .noSuchMove) ∧
    (∀ (m : HostMove) (t : State), m ≠ .reset → hostMove m s = .done t → t.run = .idle ∧ t.loadStatus = .failed) ∧
    ∃ t, hostMove .reset s = .done t ∧ t.run = .idle ∧ t.loadStatus = .notLoaded)

/-- 70_reset_and_hazards.md section 2 (R308, R309), 60_exceptions.md (R265): start, allowed in IDLE only and not after a
LoadError (log 14); a stop, requested while RUNNING only, ends the run instead of the next instruction and not inside a
held one. That the request is a bit is the model's (log 5). -/
def Obligations.StartAndStop : Prop :=
  (∀ s : State, s.run = .idle → s.loadStatus ≠ .failed → hostMove .start s = .done { s with run := .running }) ∧
  (∀ s : State, s.run ≠ .idle ∨ s.loadStatus = .failed → hostMove .start s = .noSuchMove) ∧
  (∀ s : State, s.run ≠ .running → hostMove .stop s = .noSuchMove) ∧
  (∀ s : State, s.run = .running → s.stopReq = false → ∃ t, hostMove .stop s = .done t ∧
    (s.hold = none → step t = .next { s with run := .stopped }) ∧
    (∀ h, s.hold = some h → step t = resumeHeld h t))
end

