-- ==== Sys2Proof/Laws/State.lean ====
section
/-! SUPPORT. One lemma per field per update of State, each true by rfl, so that no later proof unfolds a record update; and
what a register reads after each update. -/
namespace Sys2Proof.Machine

/-! ### writeReg -/

@[simp] theorem writeReg_regs (r : RegIdx) (v : Word) (s : State) : (writeReg r v s).regs = s.regs.set r.toNat v r.isLt := rfl
@[simp] theorem writeReg_pc (r : RegIdx) (v : Word) (s : State) : (writeReg r v s).pc = s.pc := rfl
@[simp] theorem writeReg_cond (r : RegIdx) (v : Word) (s : State) : (writeReg r v s).cond = s.cond := rfl
@[simp] theorem writeReg_mem (r : RegIdx) (v : Word) (s : State) : (writeReg r v s).mem = s.mem := rfl
@[simp] theorem writeReg_kbdrLatch (r : RegIdx) (v : Word) (s : State) : (writeReg r v s).kbdrLatch = s.kbdrLatch := rfl
@[simp] theorem writeReg_run (r : RegIdx) (v : Word) (s : State) : (writeReg r v s).run = s.run := rfl
@[simp] theorem writeReg_faultKind (r : RegIdx) (v : Word) (s : State) : (writeReg r v s).faultKind = s.faultKind := rfl
@[simp] theorem writeReg_faultPc (r : RegIdx) (v : Word) (s : State) : (writeReg r v s).faultPc = s.faultPc := rfl
@[simp] theorem writeReg_faultIr (r : RegIdx) (v : Word) (s : State) : (writeReg r v s).faultIr = s.faultIr := rfl
@[simp] theorem writeReg_conIn (r : RegIdx) (v : Word) (s : State) : (writeReg r v s).conIn = s.conIn := rfl
@[simp] theorem writeReg_conOut (r : RegIdx) (v : Word) (s : State) : (writeReg r v s).conOut = s.conOut := rfl
@[simp] theorem writeReg_conFails (r : RegIdx) (v : Word) (s : State) : (writeReg r v s).conFails = s.conFails := rfl
@[simp] theorem writeReg_hold (r : RegIdx) (v : Word) (s : State) : (writeReg r v s).hold = s.hold := rfl
@[simp] theorem writeReg_stopReq (r : RegIdx) (v : Word) (s : State) : (writeReg r v s).stopReq = s.stopReq := rfl
@[simp] theorem writeReg_loadStatus (r : RegIdx) (v : Word) (s : State) : (writeReg r v s).loadStatus = s.loadStatus := rfl
@[simp] theorem writeReg_cfg (r : RegIdx) (v : Word) (s : State) : (writeReg r v s).cfg = s.cfg := rfl

/-! ### linkR7 -/

@[simp] theorem linkR7_regs (s : State) : (linkR7 s).regs = s.regs.set 7 s.pc := rfl
@[simp] theorem linkR7_pc (s : State) : (linkR7 s).pc = s.pc := rfl
@[simp] theorem linkR7_cond (s : State) : (linkR7 s).cond = s.cond := rfl
@[simp] theorem linkR7_mem (s : State) : (linkR7 s).mem = s.mem := rfl
@[simp] theorem linkR7_kbdrLatch (s : State) : (linkR7 s).kbdrLatch = s.kbdrLatch := rfl
@[simp] theorem linkR7_run (s : State) : (linkR7 s).run = s.run := rfl
@[simp] theorem linkR7_faultKind (s : State) : (linkR7 s).faultKind = s.faultKind := rfl
@[simp] theorem linkR7_faultPc (s : State) : (linkR7 s).faultPc = s.faultPc := rfl
@[simp] theorem linkR7_faultIr (s : State) : (linkR7 s).faultIr = s.faultIr := rfl
@[simp] theorem linkR7_conIn (s : State) : (linkR7 s).conIn = s.conIn := rfl
@[simp] theorem linkR7_conOut (s : State) : (linkR7 s).conOut = s.conOut := rfl
@[simp] theorem linkR7_conFails (s : State) : (linkR7 s).conFails = s.conFails := rfl
@[simp] theorem linkR7_hold (s : State) : (linkR7 s).hold = s.hold := rfl
@[simp] theorem linkR7_stopReq (s : State) : (linkR7 s).stopReq = s.stopReq := rfl
@[simp] theorem linkR7_loadStatus (s : State) : (linkR7 s).loadStatus = s.loadStatus := rfl
@[simp] theorem linkR7_cfg (s : State) : (linkR7 s).cfg = s.cfg := rfl

/-! ### setPc -/

@[simp] theorem setPc_regs (v : Word) (s : State) : (setPc v s).regs = s.regs := rfl
@[simp] theorem setPc_pc (v : Word) (s : State) : (setPc v s).pc = v := rfl
@[simp] theorem setPc_cond (v : Word) (s : State) : (setPc v s).cond = s.cond := rfl
@[simp] theorem setPc_mem (v : Word) (s : State) : (setPc v s).mem = s.mem := rfl
@[simp] theorem setPc_kbdrLatch (v : Word) (s : State) : (setPc v s).kbdrLatch = s.kbdrLatch := rfl
@[simp] theorem setPc_run (v : Word) (s : State) : (setPc v s).run = s.run := rfl
@[simp] theorem setPc_faultKind (v : Word) (s : State) : (setPc v s).faultKind = s.faultKind := rfl
@[simp] theorem setPc_faultPc (v : Word) (s : State) : (setPc v s).faultPc = s.faultPc := rfl
@[simp] theorem setPc_faultIr (v : Word) (s : State) : (setPc v s).faultIr = s.faultIr := rfl
@[simp] theorem setPc_conIn (v : Word) (s : State) : (setPc v s).conIn = s.conIn := rfl
@[simp] theorem setPc_conOut (v : Word) (s : State) : (setPc v s).conOut = s.conOut := rfl
@[simp] theorem setPc_conFails (v : Word) (s : State) : (setPc v s).conFails = s.conFails := rfl
@[simp] theorem setPc_hold (v : Word) (s : State) : (setPc v s).hold = s.hold := rfl
@[simp] theorem setPc_stopReq (v : Word) (s : State) : (setPc v s).stopReq = s.stopReq := rfl
@[simp] theorem setPc_loadStatus (v : Word) (s : State) : (setPc v s).loadStatus = s.loadStatus := rfl
@[simp] theorem setPc_cfg (v : Word) (s : State) : (setPc v s).cfg = s.cfg := rfl

/-! ### setcc -/

@[simp] theorem setcc_regs (v : Word) (s : State) : (setcc v s).regs = s.regs := rfl
@[simp] theorem setcc_pc (v : Word) (s : State) : (setcc v s).pc = s.pc := rfl
@[simp] theorem setcc_cond (v : Word) (s : State) : (setcc v s).cond = condOf v := rfl
@[simp] theorem setcc_mem (v : Word) (s : State) : (setcc v s).mem = s.mem := rfl
@[simp] theorem setcc_kbdrLatch (v : Word) (s : State) : (setcc v s).kbdrLatch = s.kbdrLatch := rfl
@[simp] theorem setcc_run (v : Word) (s : State) : (setcc v s).run = s.run := rfl
@[simp] theorem setcc_faultKind (v : Word) (s : State) : (setcc v s).faultKind = s.faultKind := rfl
@[simp] theorem setcc_faultPc (v : Word) (s : State) : (setcc v s).faultPc = s.faultPc := rfl
@[simp] theorem setcc_faultIr (v : Word) (s : State) : (setcc v s).faultIr = s.faultIr := rfl
@[simp] theorem setcc_conIn (v : Word) (s : State) : (setcc v s).conIn = s.conIn := rfl
@[simp] theorem setcc_conOut (v : Word) (s : State) : (setcc v s).conOut = s.conOut := rfl
@[simp] theorem setcc_conFails (v : Word) (s : State) : (setcc v s).conFails = s.conFails := rfl
@[simp] theorem setcc_hold (v : Word) (s : State) : (setcc v s).hold = s.hold := rfl
@[simp] theorem setcc_stopReq (v : Word) (s : State) : (setcc v s).stopReq = s.stopReq := rfl
@[simp] theorem setcc_loadStatus (v : Word) (s : State) : (setcc v s).loadStatus = s.loadStatus := rfl
@[simp] theorem setcc_cfg (v : Word) (s : State) : (setcc v s).cfg = s.cfg := rfl

/-! ### writeResult -/

@[simp] theorem writeResult_regs (r : RegIdx) (v : Word) (s : State) : (writeResult r v s).regs = s.regs.set r.toNat v r.isLt := rfl
@[simp] theorem writeResult_pc (r : RegIdx) (v : Word) (s : State) : (writeResult r v s).pc = s.pc := rfl
@[simp] theorem writeResult_cond (r : RegIdx) (v : Word) (s : State) : (writeResult r v s).cond = condOf v := rfl
@[simp] theorem writeResult_mem (r : RegIdx) (v : Word) (s : State) : (writeResult r v s).mem = s.mem := rfl
@[simp] theorem writeResult_kbdrLatch (r : RegIdx) (v : Word) (s : State) : (writeResult r v s).kbdrLatch = s.kbdrLatch := rfl
@[simp] theorem writeResult_run (r : RegIdx) (v : Word) (s : State) : (writeResult r v s).run = s.run := rfl
@[simp] theorem writeResult_faultKind (r : RegIdx) (v : Word) (s : State) : (writeResult r v s).faultKind = s.faultKind := rfl
@[simp] theorem writeResult_faultPc (r : RegIdx) (v : Word) (s : State) : (writeResult r v s).faultPc = s.faultPc := rfl
@[simp] theorem writeResult_faultIr (r : RegIdx) (v : Word) (s : State) : (writeResult r v s).faultIr = s.faultIr := rfl
@[simp] theorem writeResult_conIn (r : RegIdx) (v : Word) (s : State) : (writeResult r v s).conIn = s.conIn := rfl
@[simp] theorem writeResult_conOut (r : RegIdx) (v : Word) (s : State) : (writeResult r v s).conOut = s.conOut := rfl
@[simp] theorem writeResult_conFails (r : RegIdx) (v : Word) (s : State) : (writeResult r v s).conFails = s.conFails := rfl
@[simp] theorem writeResult_hold (r : RegIdx) (v : Word) (s : State) : (writeResult r v s).hold = s.hold := rfl
@[simp] theorem writeResult_stopReq (r : RegIdx) (v : Word) (s : State) : (writeResult r v s).stopReq = s.stopReq := rfl
@[simp] theorem writeResult_loadStatus (r : RegIdx) (v : Word) (s : State) : (writeResult r v s).loadStatus = s.loadStatus := rfl
@[simp] theorem writeResult_cfg (r : RegIdx) (v : Word) (s : State) : (writeResult r v s).cfg = s.cfg := rfl

/-! ### release -/

@[simp] theorem release_regs (s : State) : (release s).regs = s.regs := rfl
@[simp] theorem release_pc (s : State) : (release s).pc = s.pc := rfl
@[simp] theorem release_cond (s : State) : (release s).cond = s.cond := rfl
@[simp] theorem release_mem (s : State) : (release s).mem = s.mem := rfl
@[simp] theorem release_kbdrLatch (s : State) : (release s).kbdrLatch = s.kbdrLatch := rfl
@[simp] theorem release_run (s : State) : (release s).run = s.run := rfl
@[simp] theorem release_faultKind (s : State) : (release s).faultKind = s.faultKind := rfl
@[simp] theorem release_faultPc (s : State) : (release s).faultPc = s.faultPc := rfl
@[simp] theorem release_faultIr (s : State) : (release s).faultIr = s.faultIr := rfl
@[simp] theorem release_conIn (s : State) : (release s).conIn = s.conIn := rfl
@[simp] theorem release_conOut (s : State) : (release s).conOut = s.conOut := rfl
@[simp] theorem release_conFails (s : State) : (release s).conFails = s.conFails := rfl
@[simp] theorem release_hold (s : State) : (release s).hold = none := rfl
@[simp] theorem release_stopReq (s : State) : (release s).stopReq = s.stopReq := rfl
@[simp] theorem release_loadStatus (s : State) : (release s).loadStatus = s.loadStatus := rfl
@[simp] theorem release_cfg (s : State) : (release s).cfg = s.cfg := rfl

/-! ### haltCore -/

@[simp] theorem haltCore_regs (s : State) : (haltCore s).regs = s.regs := rfl
@[simp] theorem haltCore_pc (s : State) : (haltCore s).pc = s.pc := rfl
@[simp] theorem haltCore_cond (s : State) : (haltCore s).cond = s.cond := rfl
@[simp] theorem haltCore_mem (s : State) : (haltCore s).mem = s.mem := rfl
@[simp] theorem haltCore_kbdrLatch (s : State) : (haltCore s).kbdrLatch = s.kbdrLatch := rfl
@[simp] theorem haltCore_run (s : State) : (haltCore s).run = .halted := rfl
@[simp] theorem haltCore_faultKind (s : State) : (haltCore s).faultKind = s.faultKind := rfl
@[simp] theorem haltCore_faultPc (s : State) : (haltCore s).faultPc = s.faultPc := rfl
@[simp] theorem haltCore_faultIr (s : State) : (haltCore s).faultIr = s.faultIr := rfl
@[simp] theorem haltCore_conIn (s : State) : (haltCore s).conIn = s.conIn := rfl
@[simp] theorem haltCore_conOut (s : State) : (haltCore s).conOut = s.conOut := rfl
@[simp] theorem haltCore_conFails (s : State) : (haltCore s).conFails = s.conFails := rfl
@[simp] theorem haltCore_hold (s : State) : (haltCore s).hold = s.hold := rfl
@[simp] theorem haltCore_stopReq (s : State) : (haltCore s).stopReq = s.stopReq := rfl
@[simp] theorem haltCore_loadStatus (s : State) : (haltCore s).loadStatus = s.loadStatus := rfl
@[simp] theorem haltCore_cfg (s : State) : (haltCore s).cfg = s.cfg := rfl

/-! ### honourStop -/

@[simp] theorem honourStop_regs (s : State) : (honourStop s).regs = s.regs := rfl
@[simp] theorem honourStop_pc (s : State) : (honourStop s).pc = s.pc := rfl
@[simp] theorem honourStop_cond (s : State) : (honourStop s).cond = s.cond := rfl
@[simp] theorem honourStop_mem (s : State) : (honourStop s).mem = s.mem := rfl
@[simp] theorem honourStop_kbdrLatch (s : State) : (honourStop s).kbdrLatch = s.kbdrLatch := rfl
@[simp] theorem honourStop_run (s : State) : (honourStop s).run = .stopped := rfl
@[simp] theorem honourStop_faultKind (s : State) : (honourStop s).faultKind = s.faultKind := rfl
@[simp] theorem honourStop_faultPc (s : State) : (honourStop s).faultPc = s.faultPc := rfl
@[simp] theorem honourStop_faultIr (s : State) : (honourStop s).faultIr = s.faultIr := rfl
@[simp] theorem honourStop_conIn (s : State) : (honourStop s).conIn = s.conIn := rfl
@[simp] theorem honourStop_conOut (s : State) : (honourStop s).conOut = s.conOut := rfl
@[simp] theorem honourStop_conFails (s : State) : (honourStop s).conFails = s.conFails := rfl
@[simp] theorem honourStop_hold (s : State) : (honourStop s).hold = s.hold := rfl
@[simp] theorem honourStop_stopReq (s : State) : (honourStop s).stopReq = false := rfl
@[simp] theorem honourStop_loadStatus (s : State) : (honourStop s).loadStatus = s.loadStatus := rfl
@[simp] theorem honourStop_cfg (s : State) : (honourStop s).cfg = s.cfg := rfl

/-! ### failLoad -/

@[simp] theorem failLoad_regs (s : State) : (failLoad s).regs = s.regs := rfl
@[simp] theorem failLoad_pc (s : State) : (failLoad s).pc = s.pc := rfl
@[simp] theorem failLoad_cond (s : State) : (failLoad s).cond = s.cond := rfl
@[simp] theorem failLoad_mem (s : State) : (failLoad s).mem = s.mem := rfl
@[simp] theorem failLoad_kbdrLatch (s : State) : (failLoad s).kbdrLatch = s.kbdrLatch := rfl
@[simp] theorem failLoad_run (s : State) : (failLoad s).run = s.run := rfl
@[simp] theorem failLoad_faultKind (s : State) : (failLoad s).faultKind = s.faultKind := rfl
@[simp] theorem failLoad_faultPc (s : State) : (failLoad s).faultPc = s.faultPc := rfl
@[simp] theorem failLoad_faultIr (s : State) : (failLoad s).faultIr = s.faultIr := rfl
@[simp] theorem failLoad_conIn (s : State) : (failLoad s).conIn = s.conIn := rfl
@[simp] theorem failLoad_conOut (s : State) : (failLoad s).conOut = s.conOut := rfl
@[simp] theorem failLoad_conFails (s : State) : (failLoad s).conFails = s.conFails := rfl
@[simp] theorem failLoad_hold (s : State) : (failLoad s).hold = s.hold := rfl
@[simp] theorem failLoad_stopReq (s : State) : (failLoad s).stopReq = s.stopReq := rfl
@[simp] theorem failLoad_loadStatus (s : State) : (failLoad s).loadStatus = .failed := rfl
@[simp] theorem failLoad_cfg (s : State) : (failLoad s).cfg = s.cfg := rfl

/-! ### deliverInput -/

@[simp] theorem deliverInput_regs (c : Byte) (s : State) : (deliverInput c s).regs = s.regs := rfl
@[simp] theorem deliverInput_pc (c : Byte) (s : State) : (deliverInput c s).pc = s.pc := rfl
@[simp] theorem deliverInput_cond (c : Byte) (s : State) : (deliverInput c s).cond = s.cond := rfl
@[simp] theorem deliverInput_mem (c : Byte) (s : State) : (deliverInput c s).mem = s.mem := rfl
@[simp] theorem deliverInput_kbdrLatch (c : Byte) (s : State) : (deliverInput c s).kbdrLatch = s.kbdrLatch := rfl
@[simp] theorem deliverInput_run (c : Byte) (s : State) : (deliverInput c s).run = s.run := rfl
@[simp] theorem deliverInput_faultKind (c : Byte) (s : State) : (deliverInput c s).faultKind = s.faultKind := rfl
@[simp] theorem deliverInput_faultPc (c : Byte) (s : State) : (deliverInput c s).faultPc = s.faultPc := rfl
@[simp] theorem deliverInput_faultIr (c : Byte) (s : State) : (deliverInput c s).faultIr = s.faultIr := rfl
@[simp] theorem deliverInput_conIn (c : Byte) (s : State) : (deliverInput c s).conIn = s.conIn ++ [c] := rfl
@[simp] theorem deliverInput_conOut (c : Byte) (s : State) : (deliverInput c s).conOut = s.conOut := rfl
@[simp] theorem deliverInput_conFails (c : Byte) (s : State) : (deliverInput c s).conFails = s.conFails := rfl
@[simp] theorem deliverInput_hold (c : Byte) (s : State) : (deliverInput c s).hold = s.hold := rfl
@[simp] theorem deliverInput_stopReq (c : Byte) (s : State) : (deliverInput c s).stopReq = s.stopReq := rfl
@[simp] theorem deliverInput_loadStatus (c : Byte) (s : State) : (deliverInput c s).loadStatus = s.loadStatus := rfl
@[simp] theorem deliverInput_cfg (c : Byte) (s : State) : (deliverInput c s).cfg = s.cfg := rfl

/-! ### decideAnswer -/

@[simp] theorem decideAnswer_regs (b : Bool) (s : State) : (decideAnswer b s).regs = s.regs := rfl
@[simp] theorem decideAnswer_pc (b : Bool) (s : State) : (decideAnswer b s).pc = s.pc := rfl
@[simp] theorem decideAnswer_cond (b : Bool) (s : State) : (decideAnswer b s).cond = s.cond := rfl
@[simp] theorem decideAnswer_mem (b : Bool) (s : State) : (decideAnswer b s).mem = s.mem := rfl
@[simp] theorem decideAnswer_kbdrLatch (b : Bool) (s : State) : (decideAnswer b s).kbdrLatch = s.kbdrLatch := rfl
@[simp] theorem decideAnswer_run (b : Bool) (s : State) : (decideAnswer b s).run = s.run := rfl
@[simp] theorem decideAnswer_faultKind (b : Bool) (s : State) : (decideAnswer b s).faultKind = s.faultKind := rfl
@[simp] theorem decideAnswer_faultPc (b : Bool) (s : State) : (decideAnswer b s).faultPc = s.faultPc := rfl
@[simp] theorem decideAnswer_faultIr (b : Bool) (s : State) : (decideAnswer b s).faultIr = s.faultIr := rfl
@[simp] theorem decideAnswer_conIn (b : Bool) (s : State) : (decideAnswer b s).conIn = s.conIn := rfl
@[simp] theorem decideAnswer_conOut (b : Bool) (s : State) : (decideAnswer b s).conOut = s.conOut := rfl
@[simp] theorem decideAnswer_conFails (b : Bool) (s : State) : (decideAnswer b s).conFails = s.conFails ++ [b] := rfl
@[simp] theorem decideAnswer_hold (b : Bool) (s : State) : (decideAnswer b s).hold = s.hold := rfl
@[simp] theorem decideAnswer_stopReq (b : Bool) (s : State) : (decideAnswer b s).stopReq = s.stopReq := rfl
@[simp] theorem decideAnswer_loadStatus (b : Bool) (s : State) : (decideAnswer b s).loadStatus = s.loadStatus := rfl
@[simp] theorem decideAnswer_cfg (b : Bool) (s : State) : (decideAnswer b s).cfg = s.cfg := rfl

/-! ### holdIn -/

@[simp] theorem holdIn_regs (h : Held) (s u : State) : (holdIn h s u).regs = s.regs := rfl
@[simp] theorem holdIn_pc (h : Held) (s u : State) : (holdIn h s u).pc = fetchedFrom s := rfl
@[simp] theorem holdIn_cond (h : Held) (s u : State) : (holdIn h s u).cond = s.cond := rfl
@[simp] theorem holdIn_mem (h : Held) (s u : State) : (holdIn h s u).mem = s.mem := rfl
@[simp] theorem holdIn_kbdrLatch (h : Held) (s u : State) : (holdIn h s u).kbdrLatch = u.kbdrLatch := rfl
@[simp] theorem holdIn_run (h : Held) (s u : State) : (holdIn h s u).run = u.run := rfl
@[simp] theorem holdIn_faultKind (h : Held) (s u : State) : (holdIn h s u).faultKind = u.faultKind := rfl
@[simp] theorem holdIn_faultPc (h : Held) (s u : State) : (holdIn h s u).faultPc = u.faultPc := rfl
@[simp] theorem holdIn_faultIr (h : Held) (s u : State) : (holdIn h s u).faultIr = u.faultIr := rfl
@[simp] theorem holdIn_conIn (h : Held) (s u : State) : (holdIn h s u).conIn = u.conIn := rfl
@[simp] theorem holdIn_conOut (h : Held) (s u : State) : (holdIn h s u).conOut = u.conOut := rfl
@[simp] theorem holdIn_conFails (h : Held) (s u : State) : (holdIn h s u).conFails = u.conFails := rfl
@[simp] theorem holdIn_hold (h : Held) (s u : State) : (holdIn h s u).hold = some h := rfl
@[simp] theorem holdIn_stopReq (h : Held) (s u : State) : (holdIn h s u).stopReq = u.stopReq := rfl
@[simp] theorem holdIn_loadStatus (h : Held) (s u : State) : (holdIn h s u).loadStatus = u.loadStatus := rfl
@[simp] theorem holdIn_cfg (h : Held) (s u : State) : (holdIn h s u).cfg = u.cfg := rfl

/-! ### raiseFault -/

@[simp] theorem raiseFault_regs (k : FaultKind) (pc0 ir : Word) (s u : State) : (raiseFault k pc0 ir s u).regs = s.regs := rfl
@[simp] theorem raiseFault_pc (k : FaultKind) (pc0 ir : Word) (s u : State) : (raiseFault k pc0 ir s u).pc = pc0 := rfl
@[simp] theorem raiseFault_cond (k : FaultKind) (pc0 ir : Word) (s u : State) : (raiseFault k pc0 ir s u).cond = s.cond := rfl
@[simp] theorem raiseFault_mem (k : FaultKind) (pc0 ir : Word) (s u : State) : (raiseFault k pc0 ir s u).mem = s.mem := rfl
@[simp] theorem raiseFault_kbdrLatch (k : FaultKind) (pc0 ir : Word) (s u : State) : (raiseFault k pc0 ir s u).kbdrLatch = u.kbdrLatch := rfl
@[simp] theorem raiseFault_run (k : FaultKind) (pc0 ir : Word) (s u : State) : (raiseFault k pc0 ir s u).run = .faulted := rfl
@[simp] theorem raiseFault_faultKind (k : FaultKind) (pc0 ir : Word) (s u : State) : (raiseFault k pc0 ir s u).faultKind = k := rfl
@[simp] theorem raiseFault_faultPc (k : FaultKind) (pc0 ir : Word) (s u : State) : (raiseFault k pc0 ir s u).faultPc = pc0 := rfl
@[simp] theorem raiseFault_faultIr (k : FaultKind) (pc0 ir : Word) (s u : State) : (raiseFault k pc0 ir s u).faultIr = ir := rfl
@[simp] theorem raiseFault_conIn (k : FaultKind) (pc0 ir : Word) (s u : State) : (raiseFault k pc0 ir s u).conIn = u.conIn := rfl
@[simp] theorem raiseFault_conOut (k : FaultKind) (pc0 ir : Word) (s u : State) : (raiseFault k pc0 ir s u).conOut = u.conOut := rfl
@[simp] theorem raiseFault_conFails (k : FaultKind) (pc0 ir : Word) (s u : State) : (raiseFault k pc0 ir s u).conFails = u.conFails := rfl
@[simp] theorem raiseFault_hold (k : FaultKind) (pc0 ir : Word) (s u : State) : (raiseFault k pc0 ir s u).hold = none := rfl
@[simp] theorem raiseFault_stopReq (k : FaultKind) (pc0 ir : Word) (s u : State) : (raiseFault k pc0 ir s u).stopReq = u.stopReq := rfl
@[simp] theorem raiseFault_loadStatus (k : FaultKind) (pc0 ir : Word) (s u : State) : (raiseFault k pc0 ir s u).loadStatus = u.loadStatus := rfl
@[simp] theorem raiseFault_cfg (k : FaultKind) (pc0 ir : Word) (s u : State) : (raiseFault k pc0 ir s u).cfg = u.cfg := rfl

/-! ### memWrite -/

@[simp] theorem memWrite_device (a v : Word) (s : State) (h : isDevice a s = true) : memWrite a v s = s := by
  simp [memWrite, h]

theorem memWrite_plain (a v : Word) (s : State) (h : isDevice a s = false) :
    memWrite a v s = { s with mem := s.mem.write a.toNat v } := by simp [memWrite, h]

@[simp] theorem memWrite_regs (a v : Word) (s : State) : (memWrite a v s).regs = s.regs := by
  unfold memWrite; split <;> rfl
@[simp] theorem memWrite_pc (a v : Word) (s : State) : (memWrite a v s).pc = s.pc := by
  unfold memWrite; split <;> rfl
@[simp] theorem memWrite_cond (a v : Word) (s : State) : (memWrite a v s).cond = s.cond := by
  unfold memWrite; split <;> rfl
@[simp] theorem memWrite_kbdrLatch (a v : Word) (s : State) : (memWrite a v s).kbdrLatch = s.kbdrLatch := by
  unfold memWrite; split <;> rfl
@[simp] theorem memWrite_run (a v : Word) (s : State) : (memWrite a v s).run = s.run := by
  unfold memWrite; split <;> rfl
@[simp] theorem memWrite_faultKind (a v : Word) (s : State) : (memWrite a v s).faultKind = s.faultKind := by
  unfold memWrite; split <;> rfl
@[simp] theorem memWrite_faultPc (a v : Word) (s : State) : (memWrite a v s).faultPc = s.faultPc := by
  unfold memWrite; split <;> rfl
@[simp] theorem memWrite_faultIr (a v : Word) (s : State) : (memWrite a v s).faultIr = s.faultIr := by
  unfold memWrite; split <;> rfl
@[simp] theorem memWrite_conIn (a v : Word) (s : State) : (memWrite a v s).conIn = s.conIn := by
  unfold memWrite; split <;> rfl
@[simp] theorem memWrite_conOut (a v : Word) (s : State) : (memWrite a v s).conOut = s.conOut := by
  unfold memWrite; split <;> rfl
@[simp] theorem memWrite_conFails (a v : Word) (s : State) : (memWrite a v s).conFails = s.conFails := by
  unfold memWrite; split <;> rfl
@[simp] theorem memWrite_hold (a v : Word) (s : State) : (memWrite a v s).hold = s.hold := by
  unfold memWrite; split <;> rfl
@[simp] theorem memWrite_stopReq (a v : Word) (s : State) : (memWrite a v s).stopReq = s.stopReq := by
  unfold memWrite; split <;> rfl
@[simp] theorem memWrite_loadStatus (a v : Word) (s : State) : (memWrite a v s).loadStatus = s.loadStatus := by
  unfold memWrite; split <;> rfl
@[simp] theorem memWrite_cfg (a v : Word) (s : State) : (memWrite a v s).cfg = s.cfg := by
  unfold memWrite; split <;> rfl

/-! ### What a register reads -/

theorem readReg_of_regs {s t : State} (h : t.regs = s.regs) (r : RegIdx) : readReg r t = readReg r s := by
  simp only [readReg, h]

/-- A register reads what was written to it, and every other register what it read before. -/
theorem readReg_writeReg (i r : RegIdx) (v : Word) (s : State) :
    readReg i (writeReg r v s) = if i = r then v else readReg i s := by
  by_cases h : i = r
  · subst h; simp [readReg]
  · have hn : r.toNat ≠ i.toNat := fun e => h (BitVec.eq_of_toNat_eq e.symm)
    simp [readReg, hn, h]

@[simp] theorem readReg_writeReg_self (r : RegIdx) (v : Word) (s : State) : readReg r (writeReg r v s) = v := by
  simp [readReg_writeReg]

@[simp] theorem readReg_writeReg_ne {i r : RegIdx} (v : Word) (s : State) (h : i ≠ r) :
    readReg i (writeReg r v s) = readReg i s := by simp [readReg_writeReg, h]

theorem readReg_writeResult (i r : RegIdx) (v : Word) (s : State) :
    readReg i (writeResult r v s) = if i = r then v else readReg i s := readReg_writeReg i r v s

theorem readReg_linkR7 (i : RegIdx) (s : State) :
    readReg i (linkR7 s) = if i = R7 then s.pc else readReg i s := readReg_writeReg i R7 s.pc s

@[simp] theorem readReg_setPc (i : RegIdx) (v : Word) (s : State) : readReg i (setPc v s) = readReg i s := rfl
@[simp] theorem readReg_setcc (i : RegIdx) (v : Word) (s : State) : readReg i (setcc v s) = readReg i s := rfl
@[simp] theorem readReg_release (i : RegIdx) (s : State) : readReg i (release s) = readReg i s := rfl
@[simp] theorem readReg_haltCore (i : RegIdx) (s : State) : readReg i (haltCore s) = readReg i s := rfl
@[simp] theorem readReg_honourStop (i : RegIdx) (s : State) : readReg i (honourStop s) = readReg i s := rfl
@[simp] theorem readReg_deliverInput (i : RegIdx) (c : Byte) (s : State) : readReg i (deliverInput c s) = readReg i s := rfl
@[simp] theorem readReg_decideAnswer (i : RegIdx) (b : Bool) (s : State) : readReg i (decideAnswer b s) = readReg i s := rfl
@[simp] theorem readReg_holdIn (i : RegIdx) (h : Held) (s u : State) : readReg i (holdIn h s u) = readReg i s := rfl
@[simp] theorem readReg_raiseFault (i : RegIdx) (k : FaultKind) (pc0 ir : Word) (s u : State) : readReg i (raiseFault k pc0 ir s u) = readReg i s := rfl

@[simp] theorem readReg_memWrite (i : RegIdx) (a v : Word) (s : State) : readReg i (memWrite a v s) = readReg i s :=
  readReg_of_regs (memWrite_regs a v s) i

/-- The registers that `x[r] <- v` leaves alone. -/
theorem sameRegsBut_writeReg (r : RegIdx) (v : Word) (s : State) : sameRegsBut [r] s (writeReg r v s) :=
  fun _ h => readReg_writeReg_ne v s (by simpa using h)

/-- `x[dr] <- v; setcc(v)` has the effect `writesResult`. -/
theorem writesResult_writeResult (dr : RegIdx) (v : Word) (s : State) : writesResult dr v s (writeResult dr v s) :=
  ⟨by simp [readReg_writeResult], rfl, sameRegsBut_writeReg dr v s, rfl, fun _ => rfl, rfl, rfl, rfl, rfl, rfl, rfl,
    rfl, rfl⟩

/-- `raise` has the effect `faultsWith`, from a state that still has the host's requests and parameters of the first. -/
theorem faultsWith_raiseFault (k : FaultKind) (pc0 ir : Word) {s u : State} (h : sameHost s u) :
    faultsWith k pc0 ir s (raiseFault k pc0 ir s u) :=
  ⟨fun _ _ => rfl, rfl, rfl, fun _ => rfl, rfl, rfl, rfl, rfl, rfl, h⟩

end Sys2Proof.Machine
end

