-- ==== Sys2Proof/Laws/Console.lean ====
section
/-! SUPPORT. Everything a console call, MemRead and the fetch can do, said once: which fields they may change, and their
answer. Later proofs cite these and do not unfold the calls. -/
namespace Sys2Proof.Machine

/-- What console calls can do from `s` to `t`: output is appended, input taken from the head, answers used up in order,
the latch kept or given a character, and no other field changed. -/
structure ConsoleOnly (s t : State) : Prop where
  rest : t = { s with conIn := t.conIn, conOut := t.conOut, conFails := t.conFails, kbdrLatch := t.kbdrLatch }
  out : ∃ written, t.conOut = s.conOut ++ written
  taken : ∃ taken, s.conIn = taken ++ t.conIn
  used : ∃ used, s.conFails = used ++ t.conFails
  latch : t.kbdrLatch = s.kbdrLatch ∨ ∃ c, t.kbdrLatch = zext8 c

theorem ConsoleOnly.rfl {s : State} : ConsoleOnly s s :=
  ⟨Eq.refl s, ⟨[], by simp⟩, ⟨[], Eq.refl _⟩, ⟨[], Eq.refl _⟩, .inl (Eq.refl _)⟩

theorem ConsoleOnly.trans {s t u : State} (h : ConsoleOnly s t) (k : ConsoleOnly t u) : ConsoleOnly s u := by
  obtain ⟨w, hw⟩ := h.out
  obtain ⟨w', hw'⟩ := k.out
  obtain ⟨i, hi⟩ := h.taken
  obtain ⟨i', hi'⟩ := k.taken
  obtain ⟨f, hf⟩ := h.used
  obtain ⟨f', hf'⟩ := k.used
  refine ⟨?_, ⟨w ++ w', by rw [hw', hw, List.append_assoc]⟩, ⟨i ++ i', by rw [hi, hi', List.append_assoc]⟩,
    ⟨f ++ f', by rw [hf, hf', List.append_assoc]⟩, ?_⟩
  · conv_lhs => rw [k.rest, h.rest]
  · rcases k.latch with e | e
    · rw [e]; exact h.latch
    · exact .inr e

theorem ConsoleOnly.fields {s t : State} (h : ConsoleOnly s t) :
    t.regs = s.regs ∧ t.pc = s.pc ∧ t.cond = s.cond ∧ t.mem = s.mem ∧ t.hold = s.hold ∧ t.run = s.run ∧
    t.faultKind = s.faultKind ∧ t.faultPc = s.faultPc ∧ t.faultIr = s.faultIr ∧ sameHost s t := by
  rw [h.rest]
  exact ⟨Eq.refl _, Eq.refl _, Eq.refl _, Eq.refl _, Eq.refl _, Eq.refl _, Eq.refl _, Eq.refl _, Eq.refl _,
    Eq.refl _, Eq.refl _, Eq.refl _⟩

/-- The state a console-dependent answer carries. -/
def Con.state {α : Type} : Con α → State
  | .ok _ s => s
  | .fail s => s

@[simp] theorem Con.state_ok {α : Type} (a : α) (s : State) : (Con.ok a s).state = s := rfl
@[simp] theorem Con.state_fail {α : Type} (s : State) : (Con.fail s : Con α).state = s := rfl

@[simp] theorem callMade_regs (s : State) : (callMade s).regs = s.regs := rfl
@[simp] theorem callMade_pc (s : State) : (callMade s).pc = s.pc := rfl
@[simp] theorem callMade_cond (s : State) : (callMade s).cond = s.cond := rfl
@[simp] theorem callMade_mem (s : State) : (callMade s).mem = s.mem := rfl
@[simp] theorem callMade_kbdrLatch (s : State) : (callMade s).kbdrLatch = s.kbdrLatch := rfl
@[simp] theorem callMade_run (s : State) : (callMade s).run = s.run := rfl
@[simp] theorem callMade_conIn (s : State) : (callMade s).conIn = s.conIn := rfl
@[simp] theorem callMade_conOut (s : State) : (callMade s).conOut = s.conOut := rfl
@[simp] theorem callMade_conFails (s : State) : (callMade s).conFails = s.conFails.tail := rfl
@[simp] theorem callMade_faultKind (s : State) : (callMade s).faultKind = s.faultKind := rfl
@[simp] theorem callMade_faultPc (s : State) : (callMade s).faultPc = s.faultPc := rfl
@[simp] theorem callMade_faultIr (s : State) : (callMade s).faultIr = s.faultIr := rfl
@[simp] theorem callMade_stopReq (s : State) : (callMade s).stopReq = s.stopReq := rfl
@[simp] theorem callMade_loadStatus (s : State) : (callMade s).loadStatus = s.loadStatus := rfl
@[simp] theorem callMade_hold (s : State) : (callMade s).hold = s.hold := rfl
@[simp] theorem callMade_cfg (s : State) : (callMade s).cfg = s.cfg := rfl

theorem callMade_only (s : State) : ConsoleOnly s (callMade s) := by
  refine ⟨Eq.refl _, ⟨[], by simp⟩, ⟨[], Eq.refl _⟩, ?_, .inl (Eq.refl _)⟩
  cases h : s.conFails with
  | nil => exact ⟨[], by simp [h]⟩
  | cons b rest => exact ⟨[b], by simp [h]⟩

theorem put_only (b : Byte) (s : State) : ConsoleOnly s { s with conOut := s.conOut ++ [b] } :=
  ⟨Eq.refl _, ⟨[b], Eq.refl _⟩, ⟨[], Eq.refl _⟩, ⟨[], Eq.refl _⟩, .inl (Eq.refl _)⟩

theorem take_only {c : Byte} {rest : List Byte} {s : State} (h : s.conIn = c :: rest) :
    ConsoleOnly s { s with conIn := rest } :=
  ⟨Eq.refl _, ⟨[], by simp⟩, ⟨[c], h⟩, ⟨[], Eq.refl _⟩, .inl (Eq.refl _)⟩

theorem latch_only (c : Byte) (s : State) : ConsoleOnly s { s with kbdrLatch := zext8 c } :=
  ⟨Eq.refl _, ⟨[], by simp⟩, ⟨[], Eq.refl _⟩, ⟨[], Eq.refl _⟩, .inr ⟨c, Eq.refl _⟩⟩

/-- A console that never fails does not fail the next call, and goes on not failing. -/
theorem State.consoleNeverFails.next {s : State} (h : s.consoleNeverFails) : nextCallFails s = false := by
  unfold nextCallFails
  split
  · rfl
  · rename_i b rest hb
    exact h b (by simp [hb])

theorem State.consoleNeverFails.callMade {s : State} (h : s.consoleNeverFails) : (callMade s).consoleNeverFails :=
  fun b hb => h b (List.mem_of_mem_tail hb)

/-- The first of `n + 1` answering calls, and the rest after it. -/
theorem State.answers.step {n : Nat} {s : State} (h : s.answers (n + 1)) :
    nextCallFails s = false ∧ (Machine.callMade s).answers n := by
  unfold State.answers at h
  unfold nextCallFails State.answers
  cases hf : s.conFails with
  | nil => exact ⟨rfl, by simp [hf]⟩
  | cons b bs => rw [hf] at h; exact ⟨h b (by simp), fun c hc => h c (by simp [hf] at hc; simp [hc])⟩

theorem State.failsAfter.step {n : Nat} {s : State} (h : s.failsAfter (n + 1)) :
    nextCallFails s = false ∧ (Machine.callMade s).failsAfter n :=
  ⟨h.1.step.1, h.1.step.2, by
    have e := h.2
    cases hf : s.conFails with
    | nil => simp [hf] at e
    | cons b bs => simpa [hf] using e⟩

theorem State.failsAfter.now {s : State} (h : s.failsAfter 0) : nextCallFails s = true := by
  have e := h.2
  unfold nextCallFails
  cases hf : s.conFails with
  | nil => simp [hf] at e
  | cons b bs => simpa [hf] using e

/-- A console that never fails answers any number of calls. -/
theorem State.consoleNeverFails.answers {s : State} (h : s.consoleNeverFails) (n : Nat) : s.answers n :=
  fun b hb => h b (List.mem_of_mem_take hb)

/-- The failing call seen from a state after `n` of the calls that answer. -/
theorem State.failsAfter.later {n k : Nat} {s t : State} (h : s.failsAfter (n + k)) (e : t.conFails = s.conFails.drop n) :
    s.answers n ∧ t.failsAfter k := by
  refine ⟨fun b hb => h.1 b ?_, fun b hb => h.1 b ?_, ?_⟩
  · exact (List.take_prefix_take_left (by omega)).subset hb
  · rw [e] at hb
    rw [List.take_add]
    exact List.mem_append.mpr (.inr hb)
  · rw [e, List.getElem?_drop]; exact h.2

theorem consoleReady_answers {s : State} (h : nextCallFails s = false) :
    consoleReady s = .ok (!s.conIn.isEmpty) (callMade s) := by simp [consoleReady, h]

theorem consoleGet_answers {s : State} (h : nextCallFails s = false) :
    consoleGet s = .ok s.conIn.head? { callMade s with conIn := s.conIn.tail } := by
  cases hc : s.conIn <;> simp [consoleGet, h, hc]
  simp [callMade, ← hc]

theorem consolePut_answers {s : State} (h : nextCallFails s = false) (b : Byte) :
    consolePut b s = .ok () { callMade s with conOut := s.conOut ++ [b] } := by simp [consolePut, h]

theorem consoleFlush_answers {s : State} (h : nextCallFails s = false) : consoleFlush s = .ok () (callMade s) := by
  simp [consoleFlush, h]

/-- `ConsoleGet` by the input queue: it takes the head, or says that there is none. -/
theorem consoleGet_pending {s : State} {c : Byte} {rest : List Byte} (h : nextCallFails s = false)
    (hc : s.conIn = c :: rest) : consoleGet s = .ok (some c) { callMade s with conIn := rest } := by
  simp [consoleGet, h, hc]

theorem consoleGet_empty {s : State} (h : nextCallFails s = false) (hc : s.conIn = []) :
    consoleGet s = .ok none (callMade s) := by
  simp [consoleGet, h, hc]

/-- With a console that never fails every byte is written. -/
theorem consolePutAll_answers {bs : List Byte} {s : State} (h : s.consoleNeverFails) :
    consolePutAll bs s =
      .ok () { s with conOut := s.conOut ++ bs, conFails := s.conFails.drop bs.length } := by
  induction bs generalizing s with
  | nil => simp [consolePutAll]
  | cons b bs ih =>
    simp only [consolePutAll, consolePut_answers h.next]
    rw [ih (s := { callMade s with conOut := s.conOut ++ [b] }) h.callMade]
    simp [callMade]

/-- Every byte is written when the first failing call lies `n` calls after them. -/
theorem consolePutAll_before_failure {bs : List Byte} {n : Nat} {s : State} (h : s.failsAfter (bs.length + n)) :
    ∃ u, consolePutAll bs s = .ok () u ∧ u.failsAfter n ∧
      u = { s with conOut := s.conOut ++ bs, conFails := s.conFails.drop bs.length } := by
  induction bs generalizing s with
  | nil => exact ⟨s, rfl, by simpa using h, by simp⟩
  | cons b bs ih =>
    have h' : s.failsAfter (bs.length + n + 1) := by rw [List.length_cons] at h; rwa [Nat.add_right_comm]
    obtain ⟨u, e, hu, rfl⟩ := ih (s := { callMade s with conOut := s.conOut ++ [b] }) h'.step.2
    exact ⟨_, by simp only [consolePutAll, consolePut_answers h'.step.1, e], hu, by simp⟩

/-- The four calls where the environment fails them: only the answer is used up. -/
theorem consoleReady_fails {s : State} (h : nextCallFails s = true) : consoleReady s = .fail (callMade s) := by
  simp [consoleReady, h]

theorem consoleGet_fails {s : State} (h : nextCallFails s = true) : consoleGet s = .fail (callMade s) := by
  simp [consoleGet, h]

theorem consolePut_fails {s : State} (h : nextCallFails s = true) (b : Byte) : consolePut b s = .fail (callMade s) := by
  simp [consolePut, h]

theorem consoleFlush_fails {s : State} (h : nextCallFails s = true) : consoleFlush s = .fail (callMade s) := by
  simp [consoleFlush, h]

/-- `n` bytes are written and the next write fails. -/
theorem consolePutAll_fails {bs : List Byte} {n : Nat} {s : State} (hn : n < bs.length) (h : s.failsAfter n) :
    consolePutAll bs s =
      .fail { s with conOut := s.conOut ++ bs.take n, conFails := s.conFails.drop (n + 1) } := by
  induction bs generalizing s n with
  | nil => simp at hn
  | cons b bs ih =>
    cases n with
    | zero => simp [consolePutAll, consolePut_fails h.now]; rfl
    | succ n =>
      simp only [consolePutAll, consolePut_answers h.step.1]
      rw [ih (s := { callMade s with conOut := s.conOut ++ [b] }) (by simpa using hn) h.step.2]
      simp

theorem consoleReady_only (s : State) : ConsoleOnly s (consoleReady s).state := by
  unfold consoleReady; split <;> exact callMade_only s

theorem consoleGet_only (s : State) : ConsoleOnly s (consoleGet s).state := by
  unfold consoleGet
  split
  · exact callMade_only s
  · split
    · exact callMade_only s
    · exact (callMade_only s).trans (take_only ‹_›)

theorem consolePut_only (b : Byte) (s : State) : ConsoleOnly s (consolePut b s).state := by
  unfold consolePut
  split
  · exact callMade_only s
  · exact (callMade_only s).trans (put_only b (callMade s))

theorem consoleFlush_only (s : State) : ConsoleOnly s (consoleFlush s).state := by
  unfold consoleFlush; split <;> exact callMade_only s

theorem consolePut_ok_only {b : Byte} {s t : State} (h : consolePut b s = .ok () t) : ConsoleOnly s t := by
  simpa [h] using consolePut_only b s

theorem consolePut_fail_only {b : Byte} {s t : State} (h : consolePut b s = .fail t) : ConsoleOnly s t := by
  simpa [h] using consolePut_only b s

theorem consoleGet_ok_only {c : Option Byte} {s t : State} (h : consoleGet s = .ok c t) : ConsoleOnly s t := by
  simpa [h] using consoleGet_only s

theorem consoleGet_fail_only {s t : State} (h : consoleGet s = .fail t) : ConsoleOnly s t := by
  simpa [h] using consoleGet_only s

theorem consolePutAll_only : ∀ (bs : List Byte) (s : State), ConsoleOnly s (consolePutAll bs s).state
  | [], _ => ConsoleOnly.rfl
  | b :: bs, s => by
    have h := consolePut_only b s
    unfold consolePutAll
    cases hc : consolePut b s with
    | fail t => rw [hc] at h; exact h
    | ok u t => rw [hc] at h; exact h.trans (consolePutAll_only bs t)

theorem kbsrRead_only (s : State) : ConsoleOnly s (kbsrRead s).state := by
  have h := consoleReady_only s
  unfold kbsrRead
  cases hc : consoleReady s <;> rw [hc] at h <;> exact h

theorem kbdrRead_only (s : State) : ConsoleOnly s (kbdrRead s).state := by
  have h := consoleReady_only s
  unfold kbdrRead
  cases hc : consoleReady s with
  | fail t => rw [hc] at h; exact h
  | ok ready t =>
    rw [hc] at h
    cases ready with
    | false => exact h
    | true =>
      have k := consoleGet_only t
      cases hg : consoleGet t with
      | fail u => rw [hg] at k; simpa [hg] using h.trans k
      | ok c u =>
        rw [hg] at k
        cases c with
        | none => simpa [hg] using h.trans k
        | some c => simpa [hg] using (h.trans k).trans (latch_only c u)

/-- MemRead changes console state only, whatever it answers. -/
theorem memRead_only (a : Word) (s : State) : ConsoleOnly s (memRead a s).state := by
  unfold memRead
  split
  · exact kbsrRead_only s
  · split
    · exact kbdrRead_only s
    · exact ConsoleOnly.rfl

theorem memRead_ok_only {a v : Word} {s t : State} (h : memRead a s = .ok v t) : ConsoleOnly s t := by
  simpa [h] using memRead_only a s

theorem memRead_fail_only {a : Word} {s t : State} (h : memRead a s = .fail t) : ConsoleOnly s t := by
  simpa [h] using memRead_only a s

/-- A read of a plain address has no side effect (spec/20_memory.md R55). -/
theorem memRead_at_plain {a : Word} {s : State} (h : s.plain a) : memRead a s = .ok (s.mem.read a.toNat) s := by
  simp [memRead, h.1, h.2]

/-- The fetch at a plain address (spec/40_instruction_cycle.md R130). -/
theorem fetch_at_plain {s : State} (h : s.plain s.pc) :
    fetch s = .ok (s.mem.read s.pc.toNat) (setPc (s.pc + 1#16) s) := by
  simp [fetch, memRead_at_plain h]

/-- After any fetch `pc` is the incremented PC, and only console state has changed besides. -/
theorem fetch_ok {ir : Word} {s t : State} (h : fetch s = .ok ir t) :
    ∃ u, memRead s.pc s = .ok ir u ∧ t = setPc (s.pc + 1#16) u ∧ ConsoleOnly s u := by
  unfold fetch at h
  cases hm : memRead s.pc s with
  | fail u => simp [hm] at h
  | ok w u =>
    simp only [hm, Con.ok.injEq] at h
    exact ⟨u, by rw [h.1], h.2.symm, memRead_ok_only hm⟩

theorem fetch_fail {s t : State} (h : fetch s = .fail t) : ConsoleOnly s t := by
  unfold fetch at h
  cases hm : memRead s.pc s with
  | fail u => simp only [hm, Con.fail.injEq] at h; exact h ▸ memRead_fail_only hm
  | ok w u => simp [hm] at h

/-- With a console that never fails a read answers, and the console goes on not failing. -/
theorem memRead_answers {s : State} (h : s.consoleNeverFails) (a : Word) :
    ∃ v t, memRead a s = .ok v t ∧ t.consoleNeverFails := by
  unfold memRead kbsrRead kbdrRead
  rw [consoleReady_answers h.next]
  split
  · exact ⟨_, _, rfl, h.callMade⟩
  · split
    · cases hc : s.conIn with
      | nil => exact ⟨_, _, rfl, h.callMade⟩
      | cons c rest =>
        simp only [List.isEmpty_cons, Bool.not_false, if_true, consoleGet_answers h.callMade.next, callMade_conIn, hc]
        exact ⟨_, _, rfl, h.callMade.callMade⟩
    · exact ⟨_, _, rfl, h⟩

/-- Everything `orIOError` can answer. -/
theorem orIOError_cases {α : Type} (ir : Word) (s : State) (r : Con α) (k : α → State → State) :
    (∃ u, r = .fail u ∧ orIOError ir s r k = raiseFault .ioError (fetchedFrom s) ir s u) ∨
    (∃ a u, r = .ok a u ∧ orIOError ir s r k = k a u) := by
  cases r with
  | fail u => exact .inl ⟨u, rfl, rfl⟩
  | ok a u => exact .inr ⟨a, u, rfl, rfl⟩

end Sys2Proof.Machine
end

