-- ==== Sys2Proof/Laws/Decode.lean ====
section
/-! SUPPORT. The encoder and the decoder as arithmetic: the value of each instruction's Word, and the row of the decoder each
opcode selects. -/
namespace Sys2Proof

theorem toNat_append_eq {m n : Nat} (a : BitVec m) (b : BitVec n) : (a ++ b).toNat = a.toNat * 2 ^ n + b.toNat := by
  rw [BitVec.toNat_append, Nat.shiftLeft_eq, Nat.mul_comm, Nat.two_pow_add_eq_or_of_lt b.isLt]

/-- A field's value. -/
theorem field_toNat (w : Word) (lo len : Nat) : (field w lo len).toNat = w.toNat / 2 ^ lo % 2 ^ len := by
  simp [field, Nat.shiftRight_eq_div_pow]

/-- One bit as arithmetic. -/
theorem bit_eq (w : Word) (i : Nat) : bit w i = decide (w.toNat / 2 ^ i % 2 = 1) := by
  simp [bit, BitVec.getLsbD, Nat.testBit_eq_decide_div_mod_eq]

theorem encode_br (n z p : Bool) (o : BitVec 9) :
    (encode (.br n z p o)).toNat = n.toNat * 2048 + z.toNat * 1024 + p.toNat * 512 + o.toNat :=
  (toNat_append_eq _ _).trans (by simp only [toNat_append_eq, BitVec.toNat_ofBool, BitVec.toNat_ofNat]; omega)

theorem encode_addReg (d a b : RegIdx) (g : BitVec 2) :
    (encode (.addReg d a b g)).toNat = 1 * 4096 + d.toNat * 512 + a.toNat * 64 + g.toNat * 8 + b.toNat :=
  (toNat_append_eq _ _).trans (by simp only [toNat_append_eq, BitVec.toNat_ofNat]; omega)

theorem encode_addImm (d a : RegIdx) (i : BitVec 5) :
    (encode (.addImm d a i)).toNat = 1 * 4096 + d.toNat * 512 + a.toNat * 64 + 32 + i.toNat :=
  (toNat_append_eq _ _).trans (by simp only [toNat_append_eq, BitVec.toNat_ofNat]; omega)

theorem encode_ld (d : RegIdx) (o : BitVec 9) :
    (encode (.ld d o)).toNat = 2 * 4096 + d.toNat * 512 + o.toNat :=
  (toNat_append_eq _ _).trans (by simp only [toNat_append_eq, BitVec.toNat_ofNat]; omega)

theorem encode_st (d : RegIdx) (o : BitVec 9) :
    (encode (.st d o)).toNat = 3 * 4096 + d.toNat * 512 + o.toNat :=
  (toNat_append_eq _ _).trans (by simp only [toNat_append_eq, BitVec.toNat_ofNat]; omega)

theorem encode_jsrr (b : RegIdx) (g : BitVec 2) (k : BitVec 6) :
    (encode (.jsrr b g k)).toNat = 4 * 4096 + g.toNat * 512 + b.toNat * 64 + k.toNat :=
  (toNat_append_eq _ _).trans (by simp only [toNat_append_eq, BitVec.toNat_ofNat]; omega)

theorem encode_jsr (o : BitVec 11) :
    (encode (.jsr o)).toNat = 4 * 4096 + 2048 + o.toNat :=
  (toNat_append_eq _ _).trans (by simp only [toNat_append_eq, BitVec.toNat_ofNat]; omega)

theorem encode_andReg (d a b : RegIdx) (g : BitVec 2) :
    (encode (.andReg d a b g)).toNat = 5 * 4096 + d.toNat * 512 + a.toNat * 64 + g.toNat * 8 + b.toNat :=
  (toNat_append_eq _ _).trans (by simp only [toNat_append_eq, BitVec.toNat_ofNat]; omega)

theorem encode_andImm (d a : RegIdx) (i : BitVec 5) :
    (encode (.andImm d a i)).toNat = 5 * 4096 + d.toNat * 512 + a.toNat * 64 + 32 + i.toNat :=
  (toNat_append_eq _ _).trans (by simp only [toNat_append_eq, BitVec.toNat_ofNat]; omega)

theorem encode_ldr (d b : RegIdx) (o : BitVec 6) :
    (encode (.ldr d b o)).toNat = 6 * 4096 + d.toNat * 512 + b.toNat * 64 + o.toNat :=
  (toNat_append_eq _ _).trans (by simp only [toNat_append_eq, BitVec.toNat_ofNat]; omega)

theorem encode_str (d b : RegIdx) (o : BitVec 6) :
    (encode (.str d b o)).toNat = 7 * 4096 + d.toNat * 512 + b.toNat * 64 + o.toNat :=
  (toNat_append_eq _ _).trans (by simp only [toNat_append_eq, BitVec.toNat_ofNat]; omega)

theorem encode_rti (g : BitVec 12) : (encode (.rti g)).toNat = 8 * 4096 + g.toNat :=
  (toNat_append_eq _ _).trans (by simp only [BitVec.toNat_ofNat]; omega)

theorem encode_not (d a : RegIdx) (k : BitVec 6) :
    (encode (.not d a k)).toNat = 9 * 4096 + d.toNat * 512 + a.toNat * 64 + k.toNat :=
  (toNat_append_eq _ _).trans (by simp only [toNat_append_eq, BitVec.toNat_ofNat]; omega)

theorem encode_ldi (d : RegIdx) (o : BitVec 9) :
    (encode (.ldi d o)).toNat = 10 * 4096 + d.toNat * 512 + o.toNat :=
  (toNat_append_eq _ _).trans (by simp only [toNat_append_eq, BitVec.toNat_ofNat]; omega)

theorem encode_sti (d : RegIdx) (o : BitVec 9) :
    (encode (.sti d o)).toNat = 11 * 4096 + d.toNat * 512 + o.toNat :=
  (toNat_append_eq _ _).trans (by simp only [toNat_append_eq, BitVec.toNat_ofNat]; omega)

theorem encode_jmp (b : RegIdx) (g : BitVec 3) (k : BitVec 6) :
    (encode (.jmp b g k)).toNat = 12 * 4096 + g.toNat * 512 + b.toNat * 64 + k.toNat :=
  (toNat_append_eq _ _).trans (by simp only [toNat_append_eq, BitVec.toNat_ofNat]; omega)

theorem encode_reserved (g : BitVec 12) : (encode (.reserved g)).toNat = 13 * 4096 + g.toNat :=
  (toNat_append_eq _ _).trans (by simp only [BitVec.toNat_ofNat]; omega)

theorem encode_lea (d : RegIdx) (o : BitVec 9) :
    (encode (.lea d o)).toNat = 14 * 4096 + d.toNat * 512 + o.toNat :=
  (toNat_append_eq _ _).trans (by simp only [toNat_append_eq, BitVec.toNat_ofNat]; omega)

theorem encode_trap (v : BitVec 8) (g : BitVec 4) :
    (encode (.trap v g)).toNat = 15 * 4096 + g.toNat * 256 + v.toNat :=
  (toNat_append_eq _ _).trans (by simp only [toNat_append_eq, BitVec.toNat_ofNat]; omega)

theorem encode_getc (g : BitVec 4) : (encode (.getc g)).toNat = 15 * 4096 + g.toNat * 256 + 0x20 := encode_trap 0x20#8 g

theorem encode_out (g : BitVec 4) : (encode (.out g)).toNat = 15 * 4096 + g.toNat * 256 + 0x21 := encode_trap 0x21#8 g

theorem encode_puts (g : BitVec 4) : (encode (.puts g)).toNat = 15 * 4096 + g.toNat * 256 + 0x22 := encode_trap 0x22#8 g

theorem encode_inChar (g : BitVec 4) : (encode (.inChar g)).toNat = 15 * 4096 + g.toNat * 256 + 0x23 := encode_trap 0x23#8 g

theorem encode_putsp (g : BitVec 4) : (encode (.putsp g)).toNat = 15 * 4096 + g.toNat * 256 + 0x24 := encode_trap 0x24#8 g

theorem encode_halt (g : BitVec 4) : (encode (.halt g)).toNat = 15 * 4096 + g.toNat * 256 + 0x25 := encode_trap 0x25#8 g

/-- The opcode is the Word's top four bits (spec/30_encoding.md R90). -/
theorem opcode_toNat (w : Word) : (field w 12 4).toNat = w.toNat / 4096 := by
  have := w.isLt
  rw [field_toNat]
  omega

end Sys2Proof
end

