-- ==== Sys2Proof/Laws/Memory.lean ====
section
/-! SUPPORT. The memory array: reads after writes, and that every operation keeps the canonical form. -/
namespace Sys2Proof.Machine

@[simp] theorem Memory.read_nil (a : Nat) : Memory.read [] a = Memory.unlisted := rfl

/-- A lower bound can be lowered. -/
theorem Memory.wfFrom_mono {lo hi : Nat} (h : lo ≤ hi) : ∀ {m : Memory}, Memory.wfFrom hi m = true → Memory.wfFrom lo m = true
  | [], _ => rfl
  | (a, v) :: t, hm => by
    simp only [Memory.wfFrom, Bool.and_eq_true, decide_eq_true_eq] at hm ⊢
    exact ⟨⟨by omega, hm.1.2⟩, hm.2⟩

/-- An address below every listed one is unlisted. -/
theorem Memory.read_below {lo a : Nat} (h : a < lo) : ∀ {m : Memory}, Memory.wfFrom lo m = true → m.read a = Memory.unlisted
  | [], _ => rfl
  | (b, w) :: t, hm => by
    simp only [Memory.wfFrom, Bool.and_eq_true, decide_eq_true_eq] at hm
    have hne : a ≠ b := by omega
    have := Memory.read_below (lo := b + 1) (a := a) (by omega) hm.2
    simp [Memory.read, hne, this]

/-- A write leaves every other address alone, in any list. -/
theorem Memory.read_write_other {a b : Nat} (h : b ≠ a) (v : Word) :
    ∀ m : Memory, (m.write a v).read b = m.read b
  | [] => by
    by_cases hv : v = Memory.unlisted <;> simp [Memory.write, hv, Memory.read, h]
  | (c, w) :: t => by
    have ih := Memory.read_write_other h v t
    unfold Memory.write
    split
    · split <;> simp [Memory.read, h]
    · split
      · rename_i hc
        subst hc
        split <;> simp [Memory.read, h]
      · simp [Memory.read, ih]

/-- A write is read back, in a canonical memory. -/
theorem Memory.read_write_from {a : Nat} (v : Word) :
    ∀ {lo : Nat} {m : Memory}, Memory.wfFrom lo m = true → (m.write a v).read a = v
  | _, [], _ => by
    by_cases hv : v = Memory.unlisted <;> simp [Memory.write, hv, Memory.read]
  | lo, (c, w) :: t, hm => by
    simp only [Memory.wfFrom, Bool.and_eq_true, decide_eq_true_eq] at hm
    unfold Memory.write
    split
    · rename_i hlt
      split
      · rename_i hv
        have hr := Memory.read_below (lo := c + 1) (a := a) (by omega) hm.2
        have hne : a ≠ c := by omega
        simp [Memory.read, hne, hr, hv]
      · simp [Memory.read]
    · split
      · rename_i hc
        subst hc
        split
        · rename_i hv
          rw [Memory.read_below (Nat.lt_succ_self a) hm.2, hv]
        · simp [Memory.read]
      · rename_i hc
        simp [Memory.read, hc, Memory.read_write_from v hm.2]

theorem Memory.read_write_same {m : Memory} (h : m.wf = true) (a : Nat) (v : Word) : (m.write a v).read a = v :=
  Memory.read_write_from v h

/-- Both laws in one. -/
theorem Memory.read_write {m : Memory} (h : m.wf = true) (a b : Nat) (v : Word) :
    (m.write a v).read b = if b = a then v else m.read b := by
  split
  · subst b; exact Memory.read_write_same h a v
  · exact Memory.read_write_other ‹_› v m

theorem Memory.wfFrom_write {a : Nat} (ha : a < 65536) (v : Word) :
    ∀ {lo : Nat} {m : Memory}, lo ≤ a → Memory.wfFrom lo m = true → Memory.wfFrom lo (m.write a v) = true
  | lo, [], hlo, _ => by
    by_cases hv : v = Memory.unlisted <;> simp [Memory.write, hv, Memory.wfFrom, ha, hlo]
  | lo, (c, w) :: t, hlo, hm => by
    have hm' := hm
    simp only [Memory.wfFrom, Bool.and_eq_true, decide_eq_true_eq] at hm
    unfold Memory.write
    split
    · rename_i hlt
      split
      · exact hm'
      · rename_i hv
        simp only [Memory.wfFrom, Bool.and_eq_true, decide_eq_true_eq]
        exact ⟨⟨hlo, ha, hv⟩, ⟨by omega, hm.1.2⟩, hm.2⟩
    · split
      · rename_i hc
        subst hc
        split
        · exact Memory.wfFrom_mono (by omega) hm.2
        · rename_i hv
          simp only [Memory.wfFrom, Bool.and_eq_true, decide_eq_true_eq]
          exact ⟨⟨hlo, ha, hv⟩, hm.2⟩
      · simp only [Memory.wfFrom, Bool.and_eq_true, decide_eq_true_eq]
        exact ⟨hm.1, Memory.wfFrom_write ha v (by omega) hm.2⟩

/-- Every write of a machine address keeps the canonical form. -/
theorem Memory.wf_write {m : Memory} (h : m.wf = true) {a : Nat} (ha : a < 65536) (v : Word) : (m.write a v).wf = true :=
  Memory.wfFrom_write ha v (Nat.zero_le a) h

/-- MemWrite keeps the canonical form. -/
theorem memWrite_wf {s : State} (h : s.mem.wf = true) (a v : Word) : (memWrite a v s).mem.wf = true := by
  unfold memWrite
  split
  · exact h
  · exact Memory.wf_write h a.isLt v

/-- The loader's writes keep the canonical form. -/
theorem storeWords_wf : ∀ (ws : List Word) (a : Word) {s : State}, s.mem.wf = true → (storeWords a ws s).mem.wf = true
  | [], _, _, h => h
  | w :: ws, a, _, h => storeWords_wf ws (a + 1) (memWrite_wf h a w)

theorem loadImage_wf {s : State} (h : s.mem.wf = true) (o : Word) (ws : List Word) : (loadImage o ws s).mem.wf = true :=
  storeWords_wf ws o h

/-- The host's placing of one Word keeps it too. -/
theorem withFetchWord_wf {s : State} (h : s.mem.wf = true) (nbits w : Nat) : (s.withFetchWord nbits w).mem.wf = true :=
  Memory.wf_write h (plainFetchAddr s).isLt _

theorem reset_mem_wf : State.reset.mem.wf = true := rfl

theorem isDevice_eq_false {a : Word} {s : State} : isDevice a s = false ↔ s.plain a := by
  simp [isDevice, State.plain]

/-- What MemWrite does to memory as a reader sees it (spec/20_memory.md R56). -/
theorem memWrite_read {s : State} (h : s.mem.wf = true) (ea v : Word) (a : Nat) :
    (memWrite ea v s).mem.read a = if isDevice ea s = false ∧ a = ea.toNat then v else s.mem.read a := by
  unfold memWrite
  by_cases hd : isDevice ea s = true
  · simp [hd]
  · simp only [Bool.not_eq_true] at hd
    simp [hd, Memory.read_write h]

/-- Two memories in canonical form that read alike are the same list. -/
theorem Memory.eq_of_read {lo : Nat} : ∀ {m n : Memory}, Memory.wfFrom lo m = true → Memory.wfFrom lo n = true →
    (∀ a, m.read a = n.read a) → m = n := by
  intro m
  induction m generalizing lo with
  | nil =>
    intro n _ hn h
    cases n with
    | nil => rfl
    | cons q n =>
      simp only [Memory.wfFrom, Bool.and_eq_true, decide_eq_true_eq] at hn
      exact absurd (by simpa [Memory.read] using (h q.1).symm) hn.1.2.2
  | cons p m ih =>
    intro n hm hn h
    simp only [Memory.wfFrom, Bool.and_eq_true, decide_eq_true_eq] at hm
    cases n with
    | nil => exact absurd (by simpa [Memory.read] using h p.1) hm.1.2.2
    | cons q n =>
      simp only [Memory.wfFrom, Bool.and_eq_true, decide_eq_true_eq] at hn
      obtain ⟨a, v⟩ := p
      obtain ⟨b, w⟩ := q
      have ha := h a
      have hb := h b
      simp only [Memory.read, if_true] at ha hb
      have hab : a = b := by
        rcases Nat.lt_trichotomy a b with hlt | he | hlt
        · rw [if_neg (by omega), Memory.read_below (by omega) hn.2] at ha
          exact absurd ha hm.1.2.2
        · exact he
        · rw [if_neg (by omega), Memory.read_below (by omega) hm.2] at hb
          exact absurd hb.symm hn.1.2.2
      subst hab
      simp only [if_true] at ha
      have : m = n := ih hm.2 hn.2 fun c => by
        by_cases hc : c = a
        · rw [hc, Memory.read_below (by omega) hm.2, Memory.read_below (by omega) hn.2]
        · simpa [Memory.read, hc] using h c
      rw [ha, this]

end Sys2Proof.Machine
end

