-- ==== Sys2Proof/Laws/Effects.lean ====
section
/-! SUPPORT. The shared operations have the effects the statements name: one lemma for each of `writeResult`, `raiseFault`,
`memWrite`, `holdIn` and `orIOError`, after console calls at most. -/
namespace Sys2Proof.Machine

@[simp] theorem sameConsole.refl (s : State) : sameConsole s s := ⟨rfl, rfl, rfl, rfl⟩
@[simp] theorem sameHost.refl (s : State) : sameHost s s := ⟨rfl, rfl, rfl⟩
@[simp] theorem sameControl.refl (s : State) : sameControl s s := ⟨rfl, rfl, rfl, rfl, rfl, sameHost.refl s⟩
@[simp] theorem sameMem.refl (s : State) : sameMem s s := fun _ => rfl
@[simp] theorem sameRegsBut.refl (l : List RegIdx) (s : State) : sameRegsBut l s s := fun _ _ => rfl

namespace ConsoleOnly

variable {s t : State}

theorem readReg (h : ConsoleOnly s t) (r : RegIdx) : Machine.readReg r t = Machine.readReg r s :=
  readReg_of_regs h.fields.1 r

theorem sameMem (h : ConsoleOnly s t) : Machine.sameMem s t := fun a => by rw [h.fields.2.2.2.1]

theorem sameHost (h : ConsoleOnly s t) : Machine.sameHost s t := h.fields.2.2.2.2.2.2.2.2.2

theorem sameControl (h : ConsoleOnly s t) : Machine.sameControl s t :=
  ⟨h.fields.2.2.2.2.2.1, h.fields.2.2.2.2.2.2.1, h.fields.2.2.2.2.2.2.2.1, h.fields.2.2.2.2.2.2.2.2.1,
    h.fields.2.2.2.2.1, h.sameHost⟩

theorem cfg (h : ConsoleOnly s t) : t.cfg = s.cfg := h.sameHost.2.2

theorem isDevice (h : ConsoleOnly s t) (a : Word) : Machine.isDevice a t = Machine.isDevice a s := by
  simp [Machine.isDevice, h.cfg]

end ConsoleOnly

/-- `x[dr] <- v; setcc(v)` after console calls. -/
theorem writeResult_effect {s u : State} (h : ConsoleOnly s u) (dr : RegIdx) (v : Word) :
    writesResult dr v s (writeResult dr v u) ∧ sameConsole u (writeResult dr v u) := by
  refine ⟨⟨by simp [readReg_writeResult], rfl, ?_, h.fields.2.1, h.sameMem, h.sameControl⟩, rfl, rfl, rfl, rfl⟩
  intro r hr
  have hne : r ≠ dr := by simpa using hr
  rw [readReg_writeResult, if_neg hne, h.readReg]

/-- `raise` after console calls. -/
theorem raiseFault_effect {s u : State} (h : ConsoleOnly s u) (k : FaultKind) (pc0 ir : Word) :
    faultsWith k pc0 ir s (raiseFault k pc0 ir s u) ∧ sameConsole u (raiseFault k pc0 ir s u) :=
  ⟨faultsWith_raiseFault k pc0 ir h.sameHost, rfl, rfl, rfl, rfl⟩

/-- MemWrite after console calls. -/
theorem memWrite_effect {s u : State} (h : ConsoleOnly s u) (hw : s.mem.wf = true) (ea v : Word) :
    storesWord ea v s (memWrite ea v u) ∧ sameConsole u (memWrite ea v u) := by
  have hm : u.mem = s.mem := h.fields.2.2.2.1
  have hr (a : Nat) : (memWrite ea v u).mem.read a =
      if isDevice ea s = false ∧ a = ea.toNat then v else s.mem.read a := by
    rw [memWrite_read (by rw [hm]; exact hw), h.isDevice, hm]
  refine ⟨⟨fun hp => ⟨?_, fun a ha => ?_⟩, fun hp a => ?_, fun r _ => ?_, ?_, ?_, ?_⟩, ?_⟩
  · simp [hr, isDevice_eq_false.mpr hp]
  · simp [hr, ha]
  · simp [hr, isDevice_eq_false, hp]
  · rw [readReg_memWrite, h.readReg]
  · rw [memWrite_cond, h.fields.2.2.1]
  · rw [memWrite_pc, h.fields.2.1]
  · simpa [sameControl, sameHost] using h.sameControl
  · simp [sameConsole]

/-- `raise` of an IOError by a console-dependent read that fails. -/
theorem orIOError_fail {α : Type} (ir : Word) (s u : State) (k : α → State → State) :
    orIOError ir s (.fail u) k = raiseFault .ioError (fetchedFrom s) ir s u := rfl

theorem orIOError_ok {α : Type} (ir : Word) (s u : State) (a : α) (k : α → State → State) :
    orIOError ir s (.ok a u) k = k a u := rfl

/-- The link register after console calls: R7 is written and nothing else. -/
theorem linkR7_effect (s : State) : sameRegsBut [R7] s (linkR7 s) ∧ readReg R7 (linkR7 s) = s.pc ∧ sameMem s (linkR7 s) ∧
    sameConsole s (linkR7 s) ∧ sameControl s (linkR7 s) :=
  ⟨sameRegsBut_writeReg R7 s.pc s, by simp [readReg_linkR7], fun _ => rfl, ⟨rfl, rfl, rfl, rfl⟩,
    ⟨rfl, rfl, rfl, rfl, rfl, rfl, rfl, rfl⟩⟩

end Sys2Proof.Machine
end

