-- ==== Sys2Proof/Laws/Services.lean ====
section
/-! SUPPORT. What the loops of the services can do: the console at most, whatever they end in. -/
namespace Sys2Proof.Machine

theorem putsLoop_only : ∀ (fuel : Nat) (a : Word) (s t : State),
    putsLoop fuel a s = .done t ∨ putsLoop fuel a s = .fail t → ConsoleOnly s t
  | 0, _, _, _, h => by simp [putsLoop] at h
  | fuel + 1, a, s, t, h => by
    unfold putsLoop at h
    cases hm : memRead a s with
    | fail u =>
      simp only [hm, Scan.fail.injEq, reduceCtorEq, false_or] at h
      exact h ▸ memRead_fail_only hm
    | ok w u =>
      have hu := memRead_ok_only hm
      by_cases hw : w = 0x0000#16
      · simp only [hm, hw, if_true, Scan.done.injEq, reduceCtorEq, or_false] at h
        exact h ▸ hu
      · cases hp : consolePut (lowByte w) u with
        | fail v =>
          simp only [hm, hw, if_false, hp, Scan.fail.injEq, reduceCtorEq, false_or] at h
          exact h ▸ hu.trans (consolePut_fail_only hp)
        | ok x v =>
          simp only [hm, hw, if_false, hp] at h
          exact (hu.trans (consolePut_ok_only hp)).trans (putsLoop_only fuel (a + 1#16) v t h)

theorem putspLoop_only : ∀ (fuel : Nat) (a : Word) (s t : State),
    putspLoop fuel a s = .done t ∨ putspLoop fuel a s = .fail t → ConsoleOnly s t
  | 0, _, _, _, h => by simp [putspLoop] at h
  | fuel + 1, a, s, t, h => by
    unfold putspLoop at h
    cases hm : memRead a s with
    | fail u =>
      simp only [hm, Scan.fail.injEq, reduceCtorEq, false_or] at h
      exact h ▸ memRead_fail_only hm
    | ok w u =>
      have hu := memRead_ok_only hm
      by_cases hw : lowByte w = 0x00#8
      · simp only [hm, hw, if_true, Scan.done.injEq, reduceCtorEq, or_false] at h
        exact h ▸ hu
      · cases hp : consolePut (lowByte w) u with
        | fail v =>
          simp only [hm, hw, if_false, hp, Scan.fail.injEq, reduceCtorEq, false_or] at h
          exact h ▸ hu.trans (consolePut_fail_only hp)
        | ok x v =>
          have hv := hu.trans (consolePut_ok_only hp)
          by_cases hh : highByte w = 0x00#8
          · simp only [hm, hw, if_false, hp, hh, if_true, Scan.done.injEq, reduceCtorEq, or_false] at h
            exact h ▸ hv
          · cases hq : consolePut (highByte w) v with
            | fail y =>
              simp only [hm, hw, if_false, hp, hh, hq, Scan.fail.injEq, reduceCtorEq, false_or] at h
              exact h ▸ hv.trans (consolePut_fail_only hq)
            | ok x y =>
              simp only [hm, hw, if_false, hp, hh, hq] at h
              exact (hv.trans (consolePut_ok_only hq)).trans (putspLoop_only fuel (a + 1#16) y t h)

theorem offset_succ (a : Word) (k : Nat) : a + 1#16 + BitVec.ofNat 16 k = a + BitVec.ofNat 16 (k + 1) := by
  rw [BitVec.add_assoc, Nat.add_comm k 1, BitVec.ofNat_add]

/-- A run of plain addresses is shorter than memory, since it does not meet KBSR. -/
theorem plain_run_short {a : Word} {n : Nat} {s : State} (h : ∀ k, k ≤ n → s.plain (a + BitVec.ofNat 16 k)) :
    n < 65535 := by
  by_contra hc
  have hk := (s.cfg.kbsrAddr - a).isLt
  refine (h (s.cfg.kbsrAddr - a).toNat (by omega)).1 ?_
  rw [BitVec.ofNat_toNat, BitVec.setWidth_eq, BitVec.add_comm, BitVec.sub_add_cancel]

/-- So the scan's bound reaches past it. -/
theorem scanFuel_past {n : Nat} (h : n < 65535) (s : State) : ∃ fuel, scanFuel s = n + (fuel + 1) :=
  ⟨scanFuel s - n - 1, by unfold scanFuel; omega⟩

/-- PUTS over nonzero Words at plain addresses, each written by a call that answers: the scan is where it was, that many
Words on. -/
theorem putsLoop_string : ∀ (ws : List Word) (fuel : Nat) (a : Word) (s : State), s.answers ws.length →
    (∀ k, k < ws.length → s.plain (a + BitVec.ofNat 16 k)) →
    (∀ k (h : k < ws.length), s.mem.read (a + BitVec.ofNat 16 k).toNat = ws[k] ∧ ws[k] ≠ 0) →
    putsLoop (ws.length + fuel) a s =
      putsLoop fuel (a + BitVec.ofNat 16 ws.length)
        { s with conOut := s.conOut ++ ws.map lowByte, conFails := s.conFails.drop ws.length }
  | [], fuel, a, s, _, _, _ => by simp
  | w :: ws, fuel, a, s, hn, hp, hw => by
    have h0 : s.plain a := by simpa using hp 0 (by simp)
    obtain ⟨r0, z0⟩ : s.mem.read a.toNat = w ∧ w ≠ 0#16 := by
      have h := hw 0 (Nat.zero_lt_succ _)
      rw [BitVec.add_zero] at h
      exact h
    rw [List.length_cons, Nat.add_right_comm]
    simp only [putsLoop, memRead_at_plain h0, r0, z0, if_false, consolePut_answers hn.step.1]
    rw [putsLoop_string ws fuel (a + 1#16) { callMade s with conOut := s.conOut ++ [lowByte w] } hn.step.2
      (fun k hk => by rw [offset_succ]; exact hp (k + 1) (by simpa using hk))
      (fun k hk => by rw [offset_succ]; exact hw (k + 1) (by simpa using hk)), offset_succ]
    simp

/-- PUTSP over Words of two nonzero bytes at plain addresses, each written by calls that answer. -/
theorem putspLoop_string : ∀ (ws : List Word) (fuel : Nat) (a : Word) (s : State), s.answers (2 * ws.length) →
    (∀ k, k < ws.length → s.plain (a + BitVec.ofNat 16 k)) →
    (∀ k (h : k < ws.length), s.mem.read (a + BitVec.ofNat 16 k).toNat = ws[k] ∧
      lowByte ws[k] ≠ 0#8 ∧ highByte ws[k] ≠ 0#8) →
    putspLoop (ws.length + fuel) a s =
      putspLoop fuel (a + BitVec.ofNat 16 ws.length)
        { s with conOut := s.conOut ++ ws.flatMap (fun w => [lowByte w, highByte w]),
                 conFails := s.conFails.drop (2 * ws.length) }
  | [], fuel, a, s, _, _, _ => by simp
  | w :: ws, fuel, a, s, hn, hp, hw => by
    have h0 : s.plain a := by simpa using hp 0 (by simp)
    obtain ⟨r0, l0, u0⟩ : s.mem.read a.toNat = w ∧ lowByte w ≠ 0#8 ∧ highByte w ≠ 0#8 := by
      have h := hw 0 (Nat.zero_lt_succ _)
      rw [BitVec.add_zero] at h
      exact h
    have hn' : s.answers (2 * ws.length + 1 + 1) := by simpa [Nat.mul_add] using hn
    rw [List.length_cons, Nat.add_right_comm]
    simp only [putspLoop, memRead_at_plain h0, r0, l0, u0, if_false, consolePut_answers hn'.step.1]
    rw [consolePut_answers (by exact hn'.step.2.step.1)]
    dsimp only
    rw [putspLoop_string ws fuel (a + 1#16) _ (by exact hn'.step.2.step.2)
      (fun k hk => by rw [offset_succ]; exact hp (k + 1) (by simpa using hk))
      (fun k hk => by rw [offset_succ]; exact hw (k + 1) (by simpa using hk)), offset_succ]
    simp [Nat.mul_add]

/-- Everything the end of a scan can answer. -/
theorem endScan_next {ir : Word} {s t : State} {r : Scan} (h : endScan ir s r = .next t) :
    r = .done t ∨ ∃ u, r = .fail u ∧ t = raiseFault .ioError (fetchedFrom s) ir s u := by
  cases r with
  | done u => exact .inl (by simpa [endScan] using h)
  | fail u => exact .inr ⟨u, rfl, by simpa [endScan] using h.symm⟩
  | endless => simp [endScan] at h

/-- Everything GETC can do: a console failure, a wait, or a character in R0. -/
theorem serviceGetc_cases (g : BitVec 4) (ir : Word) (s : State) :
    (∃ u, ConsoleOnly (linkR7 s) u ∧ serviceGetc g ir s = raiseFault .ioError (fetchedFrom s) ir s u) ∨
    (∃ u, ConsoleOnly (linkR7 s) u ∧ serviceGetc g ir s = holdIn (.getc g) s u) ∨
    (∃ c u, ConsoleOnly (linkR7 s) u ∧ serviceGetc g ir s = release (writeReg R0 (zext8 c) u)) := by
  unfold serviceGetc
  cases hg : consoleGet (linkR7 s) with
  | fail u => exact .inl ⟨u, consoleGet_fail_only hg, rfl⟩
  | ok c u =>
    cases c with
    | none => exact .inr (.inl ⟨u, consoleGet_ok_only hg, rfl⟩)
    | some c => exact .inr (.inr ⟨c, u, consoleGet_ok_only hg, rfl⟩)

/-- Everything IN can do from its wait on. -/
theorem serviceInWait_cases (g : BitVec 4) (ir : Word) (s0 s : State) :
    (∃ u, ConsoleOnly s u ∧ serviceInWait g ir s0 s = raiseFault .ioError (fetchedFrom s0) ir s0 u) ∨
    (∃ u, ConsoleOnly s u ∧ serviceInWait g ir s0 s = holdIn (.inChar g) s0 u) ∨
    (∃ c u, ConsoleOnly s u ∧ serviceInWait g ir s0 s = release (writeReg R0 (zext8 c) u)) := by
  unfold serviceInWait
  cases hg : consoleGet s with
  | fail u => exact .inl ⟨u, consoleGet_fail_only hg, rfl⟩
  | ok c u =>
    have hu := consoleGet_ok_only hg
    cases c with
    | none => exact .inr (.inl ⟨u, hu, rfl⟩)
    | some c =>
      cases hp : consolePut c u with
      | fail v => exact .inl ⟨v, hu.trans (consolePut_fail_only hp), by simp [orIOError, hp]⟩
      | ok x v => exact .inr (.inr ⟨c, v, hu.trans (consolePut_ok_only hp), by simp [orIOError, hp]⟩)

/-- Everything IN can do. -/
theorem serviceIn_cases (g : BitVec 4) (ir : Word) (s : State) :
    (∃ u, ConsoleOnly (linkR7 s) u ∧ serviceIn g ir s = raiseFault .ioError (fetchedFrom s) ir s u) ∨
    (∃ u, ConsoleOnly (linkR7 s) u ∧ serviceIn g ir s = holdIn (.inChar g) s u) ∨
    (∃ c u, ConsoleOnly (linkR7 s) u ∧ serviceIn g ir s = release (writeReg R0 (zext8 c) u)) := by
  have hp := consolePutAll_only s.cfg.inPrompt (linkR7 s)
  unfold serviceIn
  cases hc : consolePutAll s.cfg.inPrompt (linkR7 s) with
  | fail u => rw [hc] at hp; exact .inl ⟨u, hp, rfl⟩
  | ok x u =>
    rw [hc, Con.state_ok] at hp
    simp only [orIOError_ok]
    rcases serviceInWait_cases g ir s u with ⟨v, hv, e⟩ | ⟨v, hv, e⟩ | ⟨c, v, hv, e⟩
    · exact .inl ⟨v, hp.trans hv, e⟩
    · exact .inr (.inl ⟨v, hp.trans hv, e⟩)
    · exact .inr (.inr ⟨c, v, hp.trans hv, e⟩)

/-- Everything OUT can do. -/
theorem serviceOut_cases (ir : Word) (s : State) :
    (∃ u, ConsoleOnly (linkR7 s) u ∧ serviceOut ir s = raiseFault .ioError (fetchedFrom s) ir s u) ∨
    ConsoleOnly (linkR7 s) (serviceOut ir s) := by
  unfold serviceOut
  cases hp : consolePut (lowByte (readReg R0 s)) (linkR7 s) with
  | fail u => exact .inl ⟨u, consolePut_fail_only hp, rfl⟩
  | ok x u => exact .inr (consolePut_ok_only hp)

/-- Everything HALT can do. -/
theorem serviceHalt_cases (ir : Word) (s : State) :
    (∃ u, ConsoleOnly (linkR7 s) u ∧ serviceHalt ir s = raiseFault .ioError (fetchedFrom s) ir s u) ∨
    (∃ u, ConsoleOnly (linkR7 s) u ∧ serviceHalt ir s = haltCore u) := by
  have h := consoleFlush_only (linkR7 s)
  unfold serviceHalt
  cases hf : consoleFlush (linkR7 s) with
  | fail u => rw [hf] at h; exact .inl ⟨u, h, rfl⟩
  | ok x u => rw [hf] at h; exact .inr ⟨u, h, rfl⟩

/-- Everything PUTS and PUTSP can do when they answer. -/
theorem servicePuts_next {ir : Word} {s t : State} (h : servicePuts ir s = .next t) :
    ConsoleOnly (linkR7 s) t ∨
    ∃ u, ConsoleOnly (linkR7 s) u ∧ t = raiseFault .ioError (fetchedFrom s) ir s u := by
  rcases endScan_next h with e | ⟨u, e, rfl⟩
  · exact .inl (putsLoop_only _ _ _ _ (.inl e))
  · exact .inr ⟨u, putsLoop_only _ _ _ _ (.inr e), rfl⟩

theorem servicePutsp_next {ir : Word} {s t : State} (h : servicePutsp ir s = .next t) :
    ConsoleOnly (linkR7 s) t ∨
    ∃ u, ConsoleOnly (linkR7 s) u ∧ t = raiseFault .ioError (fetchedFrom s) ir s u := by
  rcases endScan_next h with e | ⟨u, e, rfl⟩
  · exact .inl (putspLoop_only _ _ _ _ (.inl e))
  · exact .inr ⟨u, putspLoop_only _ _ _ _ (.inr e), rfl⟩

end Sys2Proof.Machine
end

