-- ==== Sys2Proof/Laws/Step.lean ====
section
/-! SUPPORT. The inversion of one step: everything `step` can do, said once. -/
namespace Sys2Proof.Machine

/-- Every step is one of these five. -/
theorem step_cases (s : State) :
    (s.run ≠ .running ∧ step s = .next s) ∨
    (∃ h, s.run = .running ∧ s.hold = some h ∧ step s = resumeHeld h s) ∨
    (s.run = .running ∧ s.hold = none ∧ s.stopReq = true ∧ step s = .next (honourStop s)) ∨
    (∃ u, s.willFetch ∧ fetch s = .fail u ∧ step s = .next (raiseFault .ioError s.pc 0 s u)) ∨
    (∃ ir u, s.willFetch ∧ fetch s = .ok ir u ∧ step s = exec (decode ir) u) := by
  cases hr : s.run with
  | idle | halted | faulted | stopped => exact .inl ⟨by simp, by simp [step, hr]⟩
  | running =>
    cases hh : s.hold with
    | some h => exact .inr (.inl ⟨h, rfl, rfl, by simp [step, hr, hh]⟩)
    | none =>
      cases hq : s.stopReq with
      | true => exact .inr (.inr (.inl ⟨rfl, rfl, rfl, by simp [step, hr, hh, hq]⟩))
      | false =>
        cases hf : fetch s with
        | fail u => exact .inr (.inr (.inr (.inl ⟨u, ⟨hr, hh, hq⟩, rfl, by simp [step, hr, hh, hq, hf]⟩)))
        | ok ir u => exact .inr (.inr (.inr (.inr ⟨ir, u, ⟨hr, hh, hq⟩, rfl, by simp [step, hr, hh, hq, hf]⟩)))

end Sys2Proof.Machine
end

