-- ==== Sys2Proof/Laws/Exec.lean ====
section
/-! SUPPORT. The inversion of `exec`: everything an instruction can do when it answers a next state, said once. Invariants
and frames follow from it by a case split and do not unfold the meanings. -/
namespace Sys2Proof.Machine

/-- The ways an instruction can end. `u` is a state that console calls alone separate from `s`, or from `s` with R7
written by a TRAP. -/
inductive ExecEnds (i : Instr) (s t : State) : Prop where
  | result (dr : RegIdx) (v : Word) (u : State) (hd : flagDest i = some dr) (hu : ConsoleOnly s u)
      (ht : t = writeResult dr v u)
  | store (ea v : Word) (u : State) (hi : isStore i = true) (hu : ConsoleOnly s u) (ht : t = memWrite ea v u)
  | jump (target : Word) (hi : isControl i = true) (ht : t = setPc target s)
  | link (target : Word) (hi : isControl i = true) (hw : writtenRegs i = [R7]) (ht : t = setPc target (linkR7 s))
  | trapDone (u : State) (hi : isTrap i = true) (hw : R7 ∈ writtenRegs i) (hu : ConsoleOnly (linkR7 s) u) (ht : t = u)
  | trapHalt (u : State) (hi : isTrap i = true) (hw : R7 ∈ writtenRegs i) (hu : ConsoleOnly (linkR7 s) u)
      (ht : t = haltCore u)
  | trapChar (c : Byte) (u : State) (hi : isTrap i = true) (hw : writtenRegs i = [R0, R7])
      (hu : ConsoleOnly (linkR7 s) u) (ht : t = release (writeReg R0 (zext8 c) u))
  | held (h : Held) (u : State) (hi : isTrap i = true) (he : encode h.instr = encode i)
      (hu : ConsoleOnly (linkR7 s) u) (ht : t = holdIn h s u)
  | fault (k : FaultKind) (u : State) (hu : ConsoleOnly s u ∨ ConsoleOnly (linkR7 s) u) (hk : k ≠ .none)
      (ht : t = raiseFault k (fetchedFrom s) (encode i) s u)

theorem exec_getc_ends {g : BitVec 4} {i : Instr} {s t : State} (hi : isTrap i = true) (hw : writtenRegs i = [R0, R7])
    (he : encode (.getc g) = encode i) (h : execGetc g s = .next t) : ExecEnds i s t := by
  have h' : serviceGetc g (encode (.getc g)) s = t := by simpa [execGetc] using h
  rcases serviceGetc_cases g (encode (.getc g)) s with ⟨u, hu, e⟩ | ⟨u, hu, e⟩ | ⟨c, u, hu, e⟩
  · exact .fault .ioError u (.inr hu) (by simp) (by rw [← h', e, he])
  · exact .held (.getc g) u hi he hu (h' ▸ e)
  · exact .trapChar c u hi hw hu (h' ▸ e)

theorem exec_inChar_ends {g : BitVec 4} {i : Instr} {s t : State} (hi : isTrap i = true) (hw : writtenRegs i = [R0, R7])
    (he : encode (.inChar g) = encode i) (h : execInChar g s = .next t) : ExecEnds i s t := by
  have h' : serviceIn g (encode (.inChar g)) s = t := by simpa [execInChar] using h
  rcases serviceIn_cases g (encode (.inChar g)) s with ⟨u, hu, e⟩ | ⟨u, hu, e⟩ | ⟨c, u, hu, e⟩
  · exact .fault .ioError u (.inr hu) (by simp) (by rw [← h', e, he])
  · exact .held (.inChar g) u hi he hu (h' ▸ e)
  · exact .trapChar c u hi hw hu (h' ▸ e)

theorem exec_out_ends {g : BitVec 4} {i : Instr} {s t : State} (hi : isTrap i = true) (hw : R7 ∈ writtenRegs i)
    (he : encode (.out g) = encode i) (h : execOut g s = .next t) : ExecEnds i s t := by
  have h' : serviceOut (encode (.out g)) s = t := by simpa [execOut] using h
  rcases serviceOut_cases (encode (.out g)) s with ⟨u, hu, e⟩ | hu
  · exact .fault .ioError u (.inr hu) (by simp) (by rw [← h', e, he])
  · exact .trapDone t hi hw (h' ▸ hu) rfl

theorem exec_halt_ends {g : BitVec 4} {i : Instr} {s t : State} (hi : isTrap i = true) (hw : R7 ∈ writtenRegs i)
    (he : encode (.halt g) = encode i) (h : execHalt g s = .next t) : ExecEnds i s t := by
  have h' : serviceHalt (encode (.halt g)) s = t := by simpa [execHalt] using h
  rcases serviceHalt_cases (encode (.halt g)) s with ⟨u, hu, e⟩ | ⟨u, hu, e⟩
  · exact .fault .ioError u (.inr hu) (by simp) (by rw [← h', e, he])
  · exact .trapHalt u hi hw hu (h' ▸ e)

theorem exec_puts_ends {g : BitVec 4} {i : Instr} {s t : State} (hi : isTrap i = true) (hw : R7 ∈ writtenRegs i)
    (he : encode (.puts g) = encode i) (h : execPuts g s = .next t) : ExecEnds i s t := by
  rcases servicePuts_next h with hu | ⟨u, hu, e⟩
  · exact .trapDone t hi hw hu rfl
  · exact .fault .ioError u (.inr hu) (by simp) (by rw [e, he])

theorem exec_putsp_ends {g : BitVec 4} {i : Instr} {s t : State} (hi : isTrap i = true) (hw : R7 ∈ writtenRegs i)
    (he : encode (.putsp g) = encode i) (h : execPutsp g s = .next t) : ExecEnds i s t := by
  rcases servicePutsp_next h with hu | ⟨u, hu, e⟩
  · exact .trapDone t hi hw hu rfl
  · exact .fault .ioError u (.inr hu) (by simp) (by rw [e, he])

/-- A load or an STI: its reads answer or raise IOError. -/
theorem orIOError_ends {i : Instr} {s t : State} {r : Con Word} {k : Word → State → State} (hr : ConsoleOnly s r.state)
    (h : orIOError (encode i) s r k = t) (hk : ∀ v u, ConsoleOnly s u → t = k v u → ExecEnds i s t) : ExecEnds i s t := by
  cases r with
  | fail u => exact .fault .ioError u (.inl hr) (by simp) h.symm
  | ok v u => exact hk v u hr h.symm

theorem indirect9_only (o : BitVec 9) (s : State) : ConsoleOnly s (indirect9 o s).state := memRead_only _ s

theorem readIndirect_only (o : BitVec 9) (s : State) : ConsoleOnly s (readIndirect o s).state := by
  have h := indirect9_only o s
  unfold readIndirect
  cases hi : indirect9 o s with
  | fail u => rw [hi] at h; exact h
  | ok ea u => rw [hi] at h; exact ConsoleOnly.trans h (memRead_only ea u)

/-- Every instruction that answers a next state ends in one of the ways of `ExecEnds`. -/
theorem exec_ends {i : Instr} {s t : State} (h : exec i s = .next t) : ExecEnds i s t := by
  cases i with
  | br n z p o =>
    by_cases hb : branchTaken n z p s = true
    · exact .jump (pcRel9 o s) rfl (by simpa [exec, execBr, hb] using h.symm)
    · exact .jump s.pc rfl (by simpa [exec, execBr, hb, setPc] using h.symm)
  | addReg d a b g => exact .result d _ s rfl ConsoleOnly.rfl (by simpa [exec, execAddReg] using h.symm)
  | addImm d a k => exact .result d _ s rfl ConsoleOnly.rfl (by simpa [exec, execAddImm] using h.symm)
  | andReg d a b g => exact .result d _ s rfl ConsoleOnly.rfl (by simpa [exec, execAndReg] using h.symm)
  | andImm d a k => exact .result d _ s rfl ConsoleOnly.rfl (by simpa [exec, execAndImm] using h.symm)
  | not d a g => exact .result d _ s rfl ConsoleOnly.rfl (by simpa [exec, execNot] using h.symm)
  | lea d o => exact .result d _ s rfl ConsoleOnly.rfl (by simpa [exec, execLea] using h.symm)
  | ld d o =>
    exact orIOError_ends (memRead_only _ s) (by simpa [exec, execLd] using h) fun v u hu e => .result d v u rfl hu e
  | ldi d o =>
    exact orIOError_ends (readIndirect_only o s) (by simpa [exec, execLdi] using h) fun v u hu e => .result d v u rfl hu e
  | ldr d b o =>
    exact orIOError_ends (memRead_only _ s) (by simpa [exec, execLdr] using h) fun v u hu e => .result d v u rfl hu e
  | st a o => exact .store _ _ s rfl ConsoleOnly.rfl (by simpa [exec, execSt] using h.symm)
  | str a b o => exact .store _ _ s rfl ConsoleOnly.rfl (by simpa [exec, execStr] using h.symm)
  | sti a o =>
    exact orIOError_ends (indirect9_only o s) (by simpa [exec, execSti] using h) fun v u hu e => .store v _ u rfl hu e
  | jmp b g k => exact .jump (readReg b s) rfl (by simpa [exec, execJmp] using h.symm)
  | jsr o => exact .link (pcRel11 o s) rfl rfl (by simpa [exec, execJsr] using h.symm)
  | jsrr b g k =>
    exact .link (if s.cfg.jsrrLinkFirst then readReg b (linkR7 s) else readReg b s) rfl rfl
      (by simpa [exec, execJsrr] using h.symm)
  | rti g =>
    exact .fault .illegalInstruction s (.inl ConsoleOnly.rfl) (by simp) (by simpa [exec, execRti] using h.symm)
  | reserved g =>
    exact .fault .illegalInstruction s (.inl ConsoleOnly.rfl) (by simp) (by simpa [exec, execReserved] using h.symm)
  | getc g => exact exec_getc_ends rfl rfl rfl h
  | out g => exact exec_out_ends rfl (by simp [writtenRegs]) rfl h
  | puts g => exact exec_puts_ends rfl (by simp [writtenRegs]) rfl h
  | inChar g => exact exec_inChar_ends rfl rfl rfl h
  | putsp g => exact exec_putsp_ends rfl (by simp [writtenRegs]) rfl h
  | halt g => exact exec_halt_ends rfl (by simp [writtenRegs]) rfl h
  | trap v g =>
    have hv (x : BitVec 8) (e : v.toNat = x.toNat) : v = x := BitVec.eq_of_toNat_eq e
    simp only [exec, execTrap] at h
    split at h
    · rename_i e; obtain rfl := hv 0x20#8 e; exact exec_getc_ends rfl rfl rfl h
    · rename_i e; obtain rfl := hv 0x21#8 e; exact exec_out_ends rfl (.tail _ (.head _)) rfl h
    · rename_i e; obtain rfl := hv 0x22#8 e; exact exec_puts_ends rfl (.tail _ (.head _)) rfl h
    · rename_i e; obtain rfl := hv 0x23#8 e; exact exec_inChar_ends rfl rfl rfl h
    · rename_i e; obtain rfl := hv 0x24#8 e; exact exec_putsp_ends rfl (.tail _ (.head _)) rfl h
    · rename_i e; obtain rfl := hv 0x25#8 e; exact exec_halt_ends rfl (.tail _ (.head _)) rfl h
    · exact .fault .illegalTrap s (.inl ConsoleOnly.rfl) (by simp) (by simpa using h.symm)

end Sys2Proof.Machine
end

