-- ==== Sys2Proof/Laws/HostOps.lean ====
section
/-! SUPPORT. The inversion of the host's moves: everything a move can leave, said once. -/
namespace Sys2Proof.Machine

/-- A move that is done left one of these states. -/
theorem hostMove_done_cases {m : HostMove} {s t : State} (h : hostMove m s = .done t) :
    (m = .reset ∧ t = hostReset s) ∨
    (∃ o ws, s.run = .idle ∧ s.loadStatus = .notLoaded ∧ t = loadImage o ws s) ∨
    (s.run = .idle ∧ s.loadStatus ≠ .failed ∧ t = { s with run := .running }) ∨
    (s.run = .running ∧ t = { s with stopReq := true }) ∨
    (∃ c, t = deliverInput c s) ∨ (∃ b, t = decideAnswer b s) := by
  cases m with
  | reset => exact .inl ⟨rfl, by simpa [hostMove] using h.symm⟩
  | load file =>
    simp only [hostMove, hostLoad] at h
    split at h
    · rename_i hs
      split at h
      · simp at h
      · rename_i o ws _
        exact .inr (.inl ⟨o, ws, hs.1, hs.2, by simpa using h.symm⟩)
    · simp at h
  | start =>
    simp only [hostMove, hostStart] at h
    split at h
    · rename_i hs
      exact .inr (.inr (.inl ⟨hs.1, hs.2, by simpa using h.symm⟩))
    · simp at h
  | stop =>
    simp only [hostMove, hostStop] at h
    split at h
    · rename_i hs
      exact .inr (.inr (.inr (.inl ⟨hs, by simpa using h.symm⟩)))
    · simp at h
  | deliver c => exact .inr (.inr (.inr (.inr (.inl ⟨c, by simpa [hostMove] using h.symm⟩))))
  | answer b => exact .inr (.inr (.inr (.inr (.inr ⟨b, by simpa [hostMove] using h.symm⟩))))

/-- A LoadError comes of the one load of a reset, in IDLE, and leaves `failLoad` (spec/60_exceptions.md R265). -/
theorem hostMove_loadError_cases {m : HostMove} {s t : State} {why : LoadError} (h : hostMove m s = .loadError why t) :
    s.run = .idle ∧ s.loadStatus = .notLoaded ∧ t = failLoad s := by
  cases m with
  | load file =>
    simp only [hostMove, hostLoad] at h
    split at h
    · rename_i hs
      split at h
      · exact ⟨hs.1, hs.2, by simpa using (HostReply.loadError.inj h).2.symm⟩
      · simp at h
    · simp at h
  | start => simp only [hostMove, hostStart] at h; split at h <;> simp at h
  | stop => simp only [hostMove, hostStop] at h; split at h <;> simp at h
  | reset | deliver _ | answer _ => simp [hostMove] at h

/-- A load writes memory, `pc` and `loadStatus`, and no other field. -/
theorem storeWords_rest : ∀ (ws : List Word) (a : Word) (s : State),
    storeWords a ws s = { s with mem := (storeWords a ws s).mem }
  | [], _, _ => rfl
  | w :: ws, a, s => by
    have hw : memWrite a w s = { s with mem := (memWrite a w s).mem } := by unfold memWrite; split <;> rfl
    rw [storeWords, storeWords_rest ws (a + 1#16) (memWrite a w s), hw]

theorem loadImage_rest (o : Word) (ws : List Word) (s : State) :
    loadImage o ws s = { s with mem := (storeWords o ws s).mem, pc := o, loadStatus := .loaded } := by
  unfold loadImage; rw [storeWords_rest]; rfl

end Sys2Proof.Machine
end

