-- ==== Sys2Proof/Laws/PerInstr.lean ====
section
/-! SUPPORT. Statements about every instruction as syntax, one lemma per constructor. -/
namespace Sys2Proof.Laws

/-- A Word masked, bit by bit: the bits of the mask are the Word's, read from its value, and the others are 0. -/
theorem masked_eq {w m k : Word} (h0 : k &&& ~~~m = 0)
    (h : ∀ i, i < 16 → m.getLsbD i = true → decide (w.toNat / 2 ^ i % 2 = 1) = k.getLsbD i) : w &&& m = k := by
  refine BitVec.eq_of_getLsbD_eq fun i hi => ?_
  rw [BitVec.getLsbD_and]
  cases hm : m.getLsbD i with
  | true => rw [Bool.and_true, ← h i hi hm]; exact bit_eq w i
  | false =>
    have e := congrArg (·.getLsbD i) h0
    simp only [BitVec.getLsbD_and, BitVec.getLsbD_not, hi, hm, decide_true, Bool.not_false, Bool.and_true] at e
    simpa using e.symm

/-- The encoder puts an instruction in its own row of spec/opcode_table.json, whatever its operands
(spec/30_encoding.md R108): the mask bits of its Word are the row's match. -/
def TableRow.Statement (i : Instr) : Prop := encode i &&& i.rowMask = i.rowMatch

theorem TableRow.br (n z p : Bool) (off9 : BitVec 9) : TableRow.Statement (.br n z p off9) := by
  refine masked_eq (by simp only [Instr.rowMask, Instr.rowMatch]; decide) fun i hi hm => ?_
  rw [encode_br]
  have hn := Bool.toNat_le n
  have hz := Bool.toNat_le z
  have hp := Bool.toNat_le p
  interval_cases i <;> simp [Instr.rowMask, Instr.rowMatch] at hm ⊢ <;> omega

theorem TableRow.addReg (dr sr1 sr2 : RegIdx) (ign43 : BitVec 2) : TableRow.Statement (.addReg dr sr1 sr2 ign43) := by
  refine masked_eq (by simp only [Instr.rowMask, Instr.rowMatch]; decide) fun i hi hm => ?_
  rw [encode_addReg]
  interval_cases i <;> simp [Instr.rowMask, Instr.rowMatch] at hm ⊢ <;> omega

theorem TableRow.addImm (dr sr1 : RegIdx) (imm5 : BitVec 5) : TableRow.Statement (.addImm dr sr1 imm5) := by
  refine masked_eq (by simp only [Instr.rowMask, Instr.rowMatch]; decide) fun i hi hm => ?_
  rw [encode_addImm]
  interval_cases i <;> simp [Instr.rowMask, Instr.rowMatch] at hm ⊢ <;> omega

theorem TableRow.ld (dr : RegIdx) (off9 : BitVec 9) : TableRow.Statement (.ld dr off9) := by
  refine masked_eq (by simp only [Instr.rowMask, Instr.rowMatch]; decide) fun i hi hm => ?_
  rw [encode_ld]
  interval_cases i <;> simp [Instr.rowMask, Instr.rowMatch] at hm ⊢ <;> omega

theorem TableRow.st (sr : RegIdx) (off9 : BitVec 9) : TableRow.Statement (.st sr off9) := by
  refine masked_eq (by simp only [Instr.rowMask, Instr.rowMatch]; decide) fun i hi hm => ?_
  rw [encode_st]
  interval_cases i <;> simp [Instr.rowMask, Instr.rowMatch] at hm ⊢ <;> omega

theorem TableRow.jsrr (baseR : RegIdx) (ign109 : BitVec 2) (ign50 : BitVec 6) : TableRow.Statement (.jsrr baseR ign109 ign50) := by
  refine masked_eq (by simp only [Instr.rowMask, Instr.rowMatch]; decide) fun i hi hm => ?_
  rw [encode_jsrr]
  interval_cases i <;> simp [Instr.rowMask, Instr.rowMatch] at hm ⊢ <;> omega

theorem TableRow.jsr (off11 : BitVec 11) : TableRow.Statement (.jsr off11) := by
  refine masked_eq (by simp only [Instr.rowMask, Instr.rowMatch]; decide) fun i hi hm => ?_
  rw [encode_jsr]
  interval_cases i <;> simp [Instr.rowMask, Instr.rowMatch] at hm ⊢ <;> omega

theorem TableRow.andReg (dr sr1 sr2 : RegIdx) (ign43 : BitVec 2) : TableRow.Statement (.andReg dr sr1 sr2 ign43) := by
  refine masked_eq (by simp only [Instr.rowMask, Instr.rowMatch]; decide) fun i hi hm => ?_
  rw [encode_andReg]
  interval_cases i <;> simp [Instr.rowMask, Instr.rowMatch] at hm ⊢ <;> omega

theorem TableRow.andImm (dr sr1 : RegIdx) (imm5 : BitVec 5) : TableRow.Statement (.andImm dr sr1 imm5) := by
  refine masked_eq (by simp only [Instr.rowMask, Instr.rowMatch]; decide) fun i hi hm => ?_
  rw [encode_andImm]
  interval_cases i <;> simp [Instr.rowMask, Instr.rowMatch] at hm ⊢ <;> omega

theorem TableRow.ldr (dr baseR : RegIdx) (off6 : BitVec 6) : TableRow.Statement (.ldr dr baseR off6) := by
  refine masked_eq (by simp only [Instr.rowMask, Instr.rowMatch]; decide) fun i hi hm => ?_
  rw [encode_ldr]
  interval_cases i <;> simp [Instr.rowMask, Instr.rowMatch] at hm ⊢ <;> omega

theorem TableRow.str (sr baseR : RegIdx) (off6 : BitVec 6) : TableRow.Statement (.str sr baseR off6) := by
  refine masked_eq (by simp only [Instr.rowMask, Instr.rowMatch]; decide) fun i hi hm => ?_
  rw [encode_str]
  interval_cases i <;> simp [Instr.rowMask, Instr.rowMatch] at hm ⊢ <;> omega

theorem TableRow.rti (ign110 : BitVec 12) : TableRow.Statement (.rti ign110) := by
  refine masked_eq (by simp only [Instr.rowMask, Instr.rowMatch]; decide) fun i hi hm => ?_
  rw [encode_rti]
  interval_cases i <;> simp [Instr.rowMask, Instr.rowMatch] at hm ⊢ <;> omega

theorem TableRow.not (dr sr : RegIdx) (ign50 : BitVec 6) : TableRow.Statement (.not dr sr ign50) := by
  refine masked_eq (by simp only [Instr.rowMask, Instr.rowMatch]; decide) fun i hi hm => ?_
  rw [encode_not]
  interval_cases i <;> simp [Instr.rowMask, Instr.rowMatch] at hm ⊢ <;> omega

theorem TableRow.ldi (dr : RegIdx) (off9 : BitVec 9) : TableRow.Statement (.ldi dr off9) := by
  refine masked_eq (by simp only [Instr.rowMask, Instr.rowMatch]; decide) fun i hi hm => ?_
  rw [encode_ldi]
  interval_cases i <;> simp [Instr.rowMask, Instr.rowMatch] at hm ⊢ <;> omega

theorem TableRow.sti (sr : RegIdx) (off9 : BitVec 9) : TableRow.Statement (.sti sr off9) := by
  refine masked_eq (by simp only [Instr.rowMask, Instr.rowMatch]; decide) fun i hi hm => ?_
  rw [encode_sti]
  interval_cases i <;> simp [Instr.rowMask, Instr.rowMatch] at hm ⊢ <;> omega

theorem TableRow.jmp (baseR : RegIdx) (ign119 : BitVec 3) (ign50 : BitVec 6) : TableRow.Statement (.jmp baseR ign119 ign50) := by
  refine masked_eq (by simp only [Instr.rowMask, Instr.rowMatch]; decide) fun i hi hm => ?_
  rw [encode_jmp]
  interval_cases i <;> simp [Instr.rowMask, Instr.rowMatch] at hm ⊢ <;> omega

theorem TableRow.reserved (ign110 : BitVec 12) : TableRow.Statement (.reserved ign110) := by
  refine masked_eq (by simp only [Instr.rowMask, Instr.rowMatch]; decide) fun i hi hm => ?_
  rw [encode_reserved]
  interval_cases i <;> simp [Instr.rowMask, Instr.rowMatch] at hm ⊢ <;> omega

theorem TableRow.lea (dr : RegIdx) (off9 : BitVec 9) : TableRow.Statement (.lea dr off9) := by
  refine masked_eq (by simp only [Instr.rowMask, Instr.rowMatch]; decide) fun i hi hm => ?_
  rw [encode_lea]
  interval_cases i <;> simp [Instr.rowMask, Instr.rowMatch] at hm ⊢ <;> omega

theorem TableRow.trap (trapvect8 : BitVec 8) (ign118 : BitVec 4) : TableRow.Statement (.trap trapvect8 ign118) := by
  refine masked_eq (by simp only [Instr.rowMask, Instr.rowMatch]; decide) fun i hi hm => ?_
  rw [encode_trap]
  interval_cases i <;> simp [Instr.rowMask, Instr.rowMatch] at hm ⊢ <;> omega

theorem TableRow.getc (ign118 : BitVec 4) : TableRow.Statement (.getc ign118) := by
  refine masked_eq (by simp only [Instr.rowMask, Instr.rowMatch]; decide) fun i hi hm => ?_
  rw [encode_getc]
  interval_cases i <;> simp [Instr.rowMask, Instr.rowMatch] at hm ⊢ <;> omega

theorem TableRow.out (ign118 : BitVec 4) : TableRow.Statement (.out ign118) := by
  refine masked_eq (by simp only [Instr.rowMask, Instr.rowMatch]; decide) fun i hi hm => ?_
  rw [encode_out]
  interval_cases i <;> simp [Instr.rowMask, Instr.rowMatch] at hm ⊢ <;> omega

theorem TableRow.puts (ign118 : BitVec 4) : TableRow.Statement (.puts ign118) := by
  refine masked_eq (by simp only [Instr.rowMask, Instr.rowMatch]; decide) fun i hi hm => ?_
  rw [encode_puts]
  interval_cases i <;> simp [Instr.rowMask, Instr.rowMatch] at hm ⊢ <;> omega

theorem TableRow.inChar (ign118 : BitVec 4) : TableRow.Statement (.inChar ign118) := by
  refine masked_eq (by simp only [Instr.rowMask, Instr.rowMatch]; decide) fun i hi hm => ?_
  rw [encode_inChar]
  interval_cases i <;> simp [Instr.rowMask, Instr.rowMatch] at hm ⊢ <;> omega

theorem TableRow.putsp (ign118 : BitVec 4) : TableRow.Statement (.putsp ign118) := by
  refine masked_eq (by simp only [Instr.rowMask, Instr.rowMatch]; decide) fun i hi hm => ?_
  rw [encode_putsp]
  interval_cases i <;> simp [Instr.rowMask, Instr.rowMatch] at hm ⊢ <;> omega

theorem TableRow.halt (ign118 : BitVec 4) : TableRow.Statement (.halt ign118) := by
  refine masked_eq (by simp only [Instr.rowMask, Instr.rowMatch]; decide) fun i hi hm => ?_
  rw [encode_halt]
  interval_cases i <;> simp [Instr.rowMask, Instr.rowMatch] at hm ⊢ <;> omega

end Sys2Proof.Laws
end

