-- ==== Sys2Proof/Tests/Slice0.lean ====
section
/-! SUPPORT. Tests whose results come from the spec (spec/95_test_vectors.md unless a comment names another file): ill-formed
terms, one Word per constructor, at most two single steps per instruction, devices, waiting, the host; and for every
obligation with hypotheses a witness that meets them. -/
namespace Sys2Proof.Machine

/-! ### Helpers: the start state of spec/95_test_vectors.md, and one step seen through a function -/

def setRegs (rs : List (RegIdx × Word)) (s : State) : State := rs.foldl (fun s p => writeReg p.1 p.2 s) s

def setCells (cs : List (Nat × Word)) (s : State) : State :=
  { s with mem := cs.foldl (fun m p => m.write p.1 p.2) s.mem }

/-- Reset, RUNNING, `pc = pc0`, the Word `ir` there, and the registers and cells listed. -/
def startAt (pc0 ir : Word) (rs : List (RegIdx × Word)) (cs : List (Nat × Word)) : State :=
  setRegs rs (setCells ((pc0.toNat, ir) :: cs) { State.reset with run := .running, pc := pc0 })

/-- What `f` sees after one step; none if the step stops. -/
def after {α : Type} (f : State → α) (s : State) : Option α :=
  match step s with
  | .next t => some (f t)
  | .fault _ | .refused _ => none

/-- A register, the flags and the program counter. -/
def seen (r : RegIdx) (t : State) : Word × BitVec 3 × Word := (readReg r t, t.cond, t.pc)

/-- A cell, the flags and the program counter. -/
def stored (a : Nat) (t : State) : Word × BitVec 3 × Word := (t.mem.read a, t.cond, t.pc)

/-- Run state, fault record, program counter and R7. -/
def faultSeen (t : State) : RunState × BitVec 2 × Word × Word × Word × Word :=
  (t.run, t.faultKind.code, t.faultPc, t.faultIr, t.pc, readReg R7 t)

/-- Output, R0, R7, program counter and flags. -/
def service (t : State) : List Byte × Word × Word × Word × BitVec 3 :=
  (t.conOut, readReg R0 t, readReg R7 t, t.pc, t.cond)

/-! ### WellFormed smoke: the one check, at both ends of the service range -/

theorem test_wf_refuses_service_vectors :
    Instr.wf (.trap 0x20 0) = false ∧ Instr.wf (.trap 0x21 0) = false ∧ Instr.wf (.trap 0x22 0) = false ∧
    Instr.wf (.trap 0x23 0) = false ∧ Instr.wf (.trap 0x24 0) = false ∧ Instr.wf (.trap 0x25 0xF) = false ∧
    Instr.wf (.trap 0x1F 0) = true ∧ Instr.wf (.trap 0x26 0) = true := by decide

/-! ### Decoding, section 2.8 (field by field from the formats of spec/30_encoding.md R91) -/

theorem test_decode_br : decode 0b0000_111_000000000#16 = .br true true true 0 ∧
    decode 0b0000_000_111111111#16 = .br false false false (-1) := by decide
theorem test_decode_addReg : decode 0b0001_000_001_0_00_011#16 = .addReg 0 1 3 0 := by decide
theorem test_decode_addImm : decode 0b0001_000_000_1_11111#16 = .addImm 0 0 (-1) := by decide
theorem test_decode_ld : decode 0b0010_111_000000000#16 = .ld 7 0 := by decide
theorem test_decode_st : decode 0b0011_111_111111111#16 = .st 7 (-1) := by decide
theorem test_decode_jsrr : decode 0b0100_0_11_111_111111#16 = .jsrr 7 3 0x3F := by decide
theorem test_decode_jsr : decode 0b0100_1_10000000000#16 = .jsr (-1024) := by decide
theorem test_decode_andReg : decode 0b0101_111_111_0_00_111#16 = .andReg 7 7 7 0 := by decide
theorem test_decode_andImm : decode 0b0101_111_111_1_11111#16 = .andImm 7 7 (-1) := by decide
theorem test_decode_ldr : decode 0b0110_111_001_111111#16 = .ldr 7 1 (-1) := by decide
theorem test_decode_str : decode 0b0111_000_000_100000#16 = .str 0 0 (-32) := by decide
theorem test_decode_rti : decode 0b1000_000000000000#16 = .rti 0 ∧ decode 0x8FFF#16 = .rti 0xFFF := by decide
theorem test_decode_not : decode 0b1001_000_000_111111#16 = .not 0 0 0x3F := by decide
theorem test_decode_ldi : decode 0b1010_010_111111111#16 = .ldi 2 (-1) := by decide
theorem test_decode_sti : decode 0b1011_010_000000001#16 = .sti 2 1 := by decide
theorem test_decode_jmp : decode 0b1100_000_111_000000#16 = .jmp 7 0 0 := by decide
theorem test_decode_reserved : decode 0b1101_000000000000#16 = .reserved 0 ∧ decode 0xDFFF#16 = .reserved 0xFFF := by
  decide
theorem test_decode_lea : decode 0b1110_000_111111111#16 = .lea 0 (-1) := by decide
theorem test_decode_trap : decode 0b1111_0000_00011111#16 = .trap 0x1F 0 ∧ decode 0xF026#16 = .trap 0x26 0 ∧
    decode 0xF0FF#16 = .trap 0xFF 0 := by decide
theorem test_decode_services :
    decode 0b1111_0000_00100000#16 = .getc 0 ∧ decode 0b1111_0000_00100001#16 = .out 0 ∧
    decode 0b1111_0000_00100010#16 = .puts 0 ∧ decode 0b1111_0000_00100011#16 = .inChar 0 ∧
    decode 0b1111_0000_00100100#16 = .putsp 0 ∧ decode 0b1111_0000_00100101#16 = .halt 0 ∧
    decode 0xFF25#16 = .halt 0xF := by decide
theorem test_decodeTableWord : decodeTableWord 16 0x1025 = some (.addImm 0 0 5) ∧ decodeTableWord 32 0x1025 = none := by
  decide

/-! ### Sign extension, section 2.9 -/

theorem test_sext : sext5 0b10000 = 0xFFF0#16 ∧ sext5 0b01111 = 0x000F#16 ∧ sext6 0b100000 = 0xFFE0#16 ∧
    sext9 0x100 = 0xFF00#16 ∧ sext9 0x0FF = 0x00FF#16 ∧ sext11 0x400 = 0xFC00#16 ∧ zext8 0xFF = 0x00FF#16 := by decide

/-! ### Operate, section 2.1 -/

theorem test_addReg_wraps : after (seen 1) (startAt 0x3000 0x1241 [(1, 0x8000)] []) = some (0, 0b010, 0x3001) := by decide
theorem test_addReg_order : after (seen 2) (startAt 0x3000 0x14C4 [(3, 7), (4, 0xFFFE)] []) = some (5, 0b001, 0x3001) := by
  decide
theorem test_addImm_negative : after (seen 0) (startAt 0x3000 0x1030 [(0, 0x10)] []) = some (0, 0b010, 0x3001) := by decide
theorem test_addImm_sign : after (seen 5) (startAt 0x3000 0x1BA1 [(6, 0x7FFF)] []) = some (0x8000, 0b100, 0x3001) := by
  decide
theorem test_andReg : after (seen 0) (startAt 0x3000 0x5042 [(1, 0xF0F0), (2, 0x0FF0)] []) = some (0x00F0, 0b001, 0x3001) := by
  decide
theorem test_andImm : after (seen 1) (startAt 0x3000 0x5270 [(1, 0xABCD)] []) = some (0xABC0, 0b100, 0x3001) := by decide
theorem test_not : after (seen 3) (startAt 0x3000 0x973F [(4, 0x00FF)] []) = some (0xFF00, 0b100, 0x3001) := by decide
theorem test_not_ignored : after (seen 0) (startAt 0x3000 0x9000 [(0, 0x8000)] []) = some (0x7FFF, 0b001, 0x3001) := by
  decide

/-! ### Loads, section 2.2 -/

theorem test_ld_backwards : after (seen 1) (startAt 0x3000 0x2300 [] [(0x2F01, 1)]) = some (1, 0b001, 0x3001) := by decide
theorem test_ld_wraps : after (seen 1) (startAt 0xFFFE 0x2201 [] [(0, 0x1234)]) = some (0x1234, 0b001, 0xFFFF) := by decide
theorem test_ldi : after (seen 2) (startAt 0x3000 0xA401 [] [(0x3002, 0x4000), (0x4000, 0x1234)])
    = some (0x1234, 0b001, 0x3001) := by decide
theorem test_ldr_wraps : after (seen 1) (startAt 0x3000 0x629F [(2, 0xFFFF)] [(0x001E, 9)]) = some (9, 0b001, 0x3001) := by
  decide
theorem test_ldr_same_register : after (seen 1) (startAt 0x3000 0x6240 [(1, 0x4000)] [(0x4000, 0x8765)])
    = some (0x8765, 0b100, 0x3001) := by decide
theorem test_lea_flags : after (seen 0) (startAt 0x8000 0xE1FF [] []) = some (0x8000, 0b100, 0x8001) := by decide
theorem test_lea_pc_wraps : after (seen 0) (startAt 0xFFFF 0xE000 [(0, 0x1111)] []) = some (0, 0b010, 0) := by decide

/-! ### Stores, section 2.3 -/

theorem test_st : after (stored 0x3003) (startAt 0x3000 0x3202 [(1, 0x1234)] []) = some (0x1234, 0b010, 0x3001) := by decide
theorem test_sti : after (fun t => (t.mem.read 0x4000, t.mem.read 0x3002))
    (startAt 0x3000 0xB401 [(2, 0xAA)] [(0x3002, 0x4000)]) = some (0xAA, 0x4000) := by decide
theorem test_sti_device_discarded : after (fun t => (t.mem.read 0xFE02, t.kbdrLatch, t.pc))
    (startAt 0x3000 0xB401 [(2, 0xAA)] [(0x3002, 0xFE02)]) = some (0, 0, 0x3001) := by decide
theorem test_str_wraps : after (stored 0) (startAt 0x3000 0x7701 [(4, 0xFFFF), (3, 7)] []) = some (7, 0b010, 0x3001) := by
  decide

/-! ### Control, section 2.4 -/

theorem test_br_np : after (·.pc) { startAt 0x3005 0x0A03 [] [] with cond := 0b100 } = some 0x3009 ∧
    after (·.pc) { startAt 0x3005 0x0A03 [] [] with cond := 0b010 } = some 0x3006 ∧
    after (·.pc) { startAt 0x3005 0x0A03 [] [] with cond := 0b001 } = some 0x3009 := by decide
theorem test_br_z : after (·.pc) { startAt 0x3005 0x0403 [] [] with cond := 0b100 } = some 0x3006 ∧
    after (·.pc) { startAt 0x3005 0x0403 [] [] with cond := 0b010 } = some 0x3009 ∧
    after (·.pc) { startAt 0x3005 0x0403 [] [] with cond := 0b001 } = some 0x3006 := by decide
theorem test_jmp : after (·.pc) (startAt 0x3000 0xC080 [(2, 0x4000)] []) = some 0x4000 := by decide
theorem test_jmp_ret_ignored : after (·.pc) (startAt 0x3000 0xCFC0 [(7, 0x1234)] []) = some 0x1234 := by decide
theorem test_jsr : after (seen 7) (startAt 0x3000 0x4C00 [] []) = some (0x3001, 0b010, 0x2C01) := by decide
theorem test_jsrr : after (seen 7) (startAt 0x3000 0x40C0 [(3, 0x5000)] []) = some (0x3001, 0b010, 0x5000) := by decide
theorem test_jsrr_r7 : after (seen 7) (startAt 0x3000 0x41C0 [(7, 0x5000)] []) = some (0x3001, 0b010, 0x3001) ∧
    after (seen 7) { startAt 0x3000 0x41C0 [(7, 0x5000)] [] with cfg := { Config.default with jsrrLinkFirst := false } }
      = some (0x3001, 0b010, 0x5000) := by decide

/-! ### Illegal opcodes, section 2.5 -/

theorem test_rti : after faultSeen (startAt 0x3002 0x8000 [] []) = some (.faulted, 1, 0x3002, 0x8000, 0x3002, 0) := by decide
theorem test_reserved : after faultSeen (startAt 0x3000 0xDFFF [(7, 9)] [])
    = some (.faulted, 1, 0x3000, 0xDFFF, 0x3000, 9) := by decide

/-! ### TRAP, section 2.6 -/

theorem test_trap_above : after faultSeen (startAt 0x3000 0xF026 [(7, 0x1111)] [])
    = some (.faulted, 2, 0x3000, 0xF026, 0x3000, 0x1111) := by decide
theorem test_trap_below : after faultSeen (startAt 0x3000 0xF01F [] []) = some (.faulted, 2, 0x3000, 0xF01F, 0x3000, 0) := by
  decide
theorem test_getc : after (fun t => (service t, t.conIn)) { startAt 0x3000 0xF020 [(0, 0x1234)] [] with conIn := [0xFF] }
    = some (([], 0x00FF, 0x3001, 0x3001, 0b010), []) := by decide
theorem test_out : after service (startAt 0x3002 0xF021 [(0, 0x1248)] [])
    = some ([0x48], 0x1248, 0x3003, 0x3003, 0b010) := by decide
theorem test_puts_low_bytes :
    after service (startAt 0x3000 0xF022 [(0, 0x3005)] [(0x3005, 0x1248), (0x3006, 0x0100), (0x3007, 0x0021)])
      = some ([0x48, 0x00, 0x21], 0x3005, 0x3001, 0x3001, 0b010) := by decide
theorem test_puts_wraps :
    after service (startAt 0x3000 0xF022 [(0, 0xFFFF)] [(0xFFFF, 0x41), (0, 0x42)])
      = some ([0x41, 0x42], 0xFFFF, 0x3001, 0x3001, 0b010) := by decide
theorem test_in : after service { startAt 0x3000 0xF023 [] [] with conIn := [0x79] }
    = some ([0x45, 0x6E, 0x74, 0x65, 0x72, 0x20, 0x61, 0x20, 0x63, 0x68, 0x61, 0x72, 0x61, 0x63, 0x74, 0x65, 0x72, 0x3A,
        0x20, 0x79], 0x79, 0x3001, 0x3001, 0b010) := by decide
theorem test_putsp :
    after service (startAt 0x3000 0xF024 [(0, 0x4000)] [(0x4000, 0x6548), (0x4001, 0x6C6C), (0x4002, 0x006F)])
      = some ([0x48, 0x65, 0x6C, 0x6C, 0x6F], 0x4000, 0x3001, 0x3001, 0b010) := by decide
theorem test_putsp_low_zero : after service (startAt 0x3000 0xF024 [(0, 0x4000)] [(0x4000, 0x4100), (0x4001, 0x4242)])
    = some ([], 0x4000, 0x3001, 0x3001, 0b010) := by decide
theorem test_halt : after (fun t => (t.run, readReg R7 t, t.pc)) (startAt 0x3000 0xF125 [] [])
    = some (.halted, 0x3001, 0x3001) := by decide

/-! ### Device registers, section 2.7, and the console (spec/20_memory.md R72, R75) -/

theorem test_kbsr_ready : after (fun t => (seen 1 t, t.conIn))
    { startAt 0x3000 0xA201 [] [(0x3002, 0xFE00)] with conIn := [0x61] }
      = some ((0x8000, 0b100, 0x3001), [0x61]) := by decide
theorem test_kbdr_consumes : after (fun t => (seen 0 t, t.kbdrLatch, t.conIn))
    { startAt 0x3000 0xA001 [] [(0x3002, 0xFE02)] with conIn := [0x61] }
      = some ((0x61, 0b001, 0x3001), 0x61, []) := by decide
theorem test_kbdr_latch : after (seen 0) { startAt 0x3000 0xA001 [] [(0x3002, 0xFE02)] with kbdrLatch := 0x61 }
    = some (0x61, 0b001, 0x3001) := by decide
theorem test_fetch_from_kbsr : after faultSeen
    { State.reset with run := .running, pc := 0xFE00, conIn := [0x61] }
      = some (.faulted, 1, 0xFE00, 0x8000, 0xFE00, 0) := by decide
theorem test_getc_is_held : after (fun t => (t.hold, t.run, t.pc, readReg R7 t)) (startAt 0x3000 0xF020 [] [])
    = some (some (.getc 0), .running, 0x3000, 0) := by decide
theorem test_failing_put : after faultSeen { startAt 0x3000 0xF021 [] [] with conFails := [true] }
    = some (.faulted, 3, 0x3000, 0xF021, 0x3000, 0) := by decide

theorem test_in_fails_after_its_prompt : after (fun t => (t.run, t.conOut.length, t.pc)) { startAt 0x3000 0xF023 [] [] with
    conFails := List.replicate 19 false ++ [true] } = some (.faulted, 19, 0x3000) := by decide

/-! ### The host (spec/70_reset_and_hazards.md R306, R307; section S10) -/

theorem test_load : hostMove (.load [0x30, 0x00, 0x10, 0x25, 0x10, 0x25, 0xF0, 0x25]) State.reset
    = .done { State.reset with
        mem := [(0x3000, 0x1025), (0x3001, 0x1025), (0x3002, 0xF025)], pc := 0x3000, loadStatus := .loaded } := by decide
theorem test_load_truncated : hostMove (.load [0x30, 0x00, 0x10]) State.reset =
    .loadError .truncated { State.reset with loadStatus := .failed } := by decide
theorem test_no_start_after_load_error :
    hostMove .start { State.reset with loadStatus := .failed } = .noSuchMove := by decide
theorem test_withFetchWord : (State.reset.withFetchWord 16 0xF025).mem = [(0x3000, 0xF025)] ∧
    after (·.run) (State.reset.withFetchWord 16 0xF025) = some .halted := by decide

/-! ### Witnesses: for each obligation with hypotheses, states and operands that meet them, clause by clause

The state of a statement about `exec` is one after the fetch: `demo`. -/

/-- A running core after the fetch of an instruction at 0x3000, R0 and R4 pointing at 0x4000. -/
def demo : State := startAt 0x3001 0x0000 [(0, 0x4000), (4, 0x4000)] [(0x3002, 0x4000), (0x4000, 0x0041)]

/-- `demo` with a character pending. -/
def demoIn : State := { demo with conIn := [0x61] }

/-- `demo` with a console that fails its next call, or the one after it. -/
def demoFail (fs : List Bool) : State := { demo with conFails := fs }

theorem demo_never : demo.consoleNeverFails := fun _ h => absurd h List.not_mem_nil
theorem demoIn_never : demoIn.consoleNeverFails := fun _ h => absurd h List.not_mem_nil

theorem witness_DecodeInvertsEncode : Instr.WellFormed (.trap 0x26 0xF) ∧ Instr.WellFormed (.halt 0xF) := by decide

theorem witness_DecoderTakesTheRowWithMostMaskBits :
    (Instr.WellFormed (.halt 1) ∧ 0xF025#16 &&& (Instr.halt 1).rowMask = (Instr.halt 1).rowMatch) ∧
    (Instr.WellFormed (.trap 0 0) ∧ 0xF025#16 &&& (Instr.trap 0 0).rowMask = (Instr.trap 0 0).rowMatch) := by decide

theorem witness_OnlySevenInstructionsWriteFlags :
    (∃ t, exec (.st 0 0) demo = .next t) ∧ flagDest (.st 0 0) = none ∧
    (∃ t, exec (.ld 1 0) demo = .next t) ∧ flagDest (.ld 1 0) = some 1 := ⟨⟨_, rfl⟩, rfl, ⟨_, rfl⟩, rfl⟩

theorem witness_OnlyBrReadsFlags : isBr (.addReg 0 0 0 0) = false ∧ isBr (.trap 0xFF 0) = false := ⟨rfl, rfl⟩

theorem witness_LdLoadsPcRelative :
    (∃ v u, memRead (demo.pc + sext9 1) demo = .ok v u) ∧
    (∃ u, memRead (0xFDFF#16 + sext9 1) { demoFail [true] with pc := 0xFDFF } = .fail u) ∧ demo.consoleNeverFails :=
  ⟨⟨_, _, rfl⟩, ⟨_, rfl⟩, demo_never⟩

theorem witness_LdiLoadsThroughPointer :
    (∃ ea v u1 u2, memRead (demo.pc + sext9 1) demo = .ok ea u1 ∧ memRead ea u1 = .ok v u2) ∧
    (∃ u, memRead (0xFDFF#16 + sext9 1) { demoFail [true] with pc := 0xFDFF } = .fail u) ∧
    (∃ ea u1 u, memRead (0x3001#16 + sext9 0) (startAt 0x3001 0xFE00 [] [] |> fun s => { s with conFails := [true] })
        = .ok ea u1 ∧ memRead ea u1 = .fail u) ∧
    demo.consoleNeverFails :=
  ⟨⟨_, _, _, _, rfl, rfl⟩, ⟨_, rfl⟩, ⟨_, _, _, rfl, rfl⟩, demo_never⟩

theorem witness_LdrLoadsBasePlusOffset :
    (∃ v u, memRead (readReg 4 demo + sext6 (-32)) demo = .ok v u) ∧
    (∃ u, memRead (readReg 4 { demoFail [true] with cfg := { Config.default with kbsrAddr := 0x401F } } + sext6 31)
        { demoFail [true] with cfg := { Config.default with kbsrAddr := 0x401F } } = .fail u) ∧
    demo.consoleNeverFails := ⟨⟨_, _, rfl⟩, ⟨_, rfl⟩, demo_never⟩

theorem witness_MemReadAnswersByAddress :
    demo.plain 0xFE01 ∧ demo.plain 0xFFFF ∧ demo.cfg.wf ∧ demo.conIn = [] ∧ nextCallFails demo = false ∧
    demoIn.conIn = 0x61 :: [] ∧ nextCallFails demoIn = false ∧ nextCallFails (callMade demoIn) = false ∧
    ¬ demo.plain 0xFE00 ∧ ¬ demo.plain 0xFE02 ∧ nextCallFails (demoFail [true]) = true ∧
    (let s := { demoIn with conFails := [false, true] }
     s.conIn ≠ [] ∧ nextCallFails s = false ∧ nextCallFails (callMade s) = true) := by
  unfold State.plain; decide

theorem witness_MemWriteReplacesOneWord :
    demo.mem.wf = true ∧ demo.plain 0xFFFF ∧ ¬ demo.plain 0xFE00 ∧ (0x4000 : Nat) ≠ (0xFFFF#16).toNat := by
  unfold State.plain; decide

theorem witness_StStoresPcRelative : demo.mem.wf = true := by decide

theorem witness_StiStoresThroughPointer :
    demo.mem.wf = true ∧ (∃ ea u, memRead (pcRel9 1 demo) demo = .ok ea u) ∧
    (demoFail [true]).mem.wf = true ∧
    (∃ u, memRead (pcRel9 1 { demoFail [true] with pc := 0xFE01 }) { demoFail [true] with pc := 0xFE01 } = .fail u) ∧
    demo.consoleNeverFails := ⟨by decide, ⟨_, _, rfl⟩, by decide, ⟨_, rfl⟩, demo_never⟩

theorem witness_StrStoresBasePlusOffset : demo.mem.wf = true := by decide

theorem witness_BrCornerCases :
    oneHot demo.cond ∧
    (let s := startAt 0xFFFF 0x05FF [] []
     ((false && s.cond.getLsbD 2) || (true && s.cond.getLsbD 1) || (false && s.cond.getLsbD 0)) = true ∧
       s.willFetch ∧ s.plain s.pc ∧
       s.mem.read s.pc.toNat =
         0b0000#4 ++ BitVec.ofBool false ++ BitVec.ofBool true ++ BitVec.ofBool false ++ 0x1FF#9) := by
  unfold State.willFetch State.plain oneHot; decide

theorem witness_UnrecognisedVectorRaisesIllegalTrap :
    ((0x1F#8).toNat < 0x20 ∨ 0x25 < (0x1F#8).toNat) ∧ ((0x26#8).toNat < 0x20 ∨ 0x25 < (0x26#8).toNat) := by decide

theorem witness_GetcReadsOneCharacter : demoIn.conIn = 0x61 :: [] ∧ nextCallFails demoIn = false := ⟨rfl, rfl⟩

theorem witness_OutWritesTheLowByteOfR0 : nextCallFails demo = false ∧ nextCallFails (demoFail [true]) = true := ⟨rfl, rfl⟩

theorem witness_PutsWritesTheStringAndStops :
    (∀ k, k ≤ [0x0041#16].length → demo.plain (readReg R0 demo + BitVec.ofNat 16 k)) ∧
    (∀ k (h : k < [0x0041#16].length),
      demo.mem.read (readReg R0 demo + BitVec.ofNat 16 k).toNat = [0x0041#16][k] ∧ [0x0041#16][k] ≠ 0) ∧
    demo.mem.read (readReg R0 demo + BitVec.ofNat 16 [0x0041#16].length).toNat = 0 ∧ demo.consoleNeverFails := by
  refine ⟨?_, by decide, by decide, demo_never⟩
  unfold State.plain; decide

theorem witness_PutspWritesPackedBytesAndStops :
    let s := startAt 0x3001 0 [(0, 0xFFFF)] [(0xFFFF, 0x4241), (0, 0x0043)]
    (∀ k, k ≤ [0x4241#16].length → s.plain (readReg R0 s + BitVec.ofNat 16 k)) ∧
    (∀ k (h : k < [0x4241#16].length), s.mem.read (readReg R0 s + BitVec.ofNat 16 k).toNat = [0x4241#16][k] ∧
      [0x4241#16][k].extractLsb' 0 8 ≠ 0#8 ∧ [0x4241#16][k].extractLsb' 8 8 ≠ 0#8) ∧
    s.mem.read (readReg R0 s + BitVec.ofNat 16 [0x4241#16].length).toNat = 0x0043#16 ∧
    ((0x0043#16).extractLsb' 0 8 = 0#8 ∨ (0x0043#16).extractLsb' 8 8 = 0#8) ∧ s.consoleNeverFails := by
  refine ⟨?_, by decide, by decide, by decide, fun _ h => absurd h List.not_mem_nil⟩
  unfold State.plain; decide

theorem witness_PutsAndPutspAlwaysComplete : demo.cfg.wf ∧ demoIn.cfg.wf := by decide

theorem witness_PutsAndPutspAreTheirLoops : demo.cfg.wf ∧ demo.run = .running := by decide

theorem witness_InPromptsReadsAndEchoes : demoIn.conIn = 0x61 :: [] ∧ demoIn.consoleNeverFails := ⟨rfl, demoIn_never⟩

theorem witness_HaltEndsTheRun :
    nextCallFails demo = false ∧ HostMove.deliver 0 ≠ .reset ∧ nextCallFails (demoFail [true]) = true := by decide

theorem witness_TrapsKeepR1ToR6FlagsAndMemory :
    (isTrap (.out 0) = true ∧ ∃ t, exec (.out 0) demo = .next t) ∧
    (isTrap (.trap 0xFF 0) = true ∧ ∃ t, exec (.trap 0xFF 0) demo = .next t) := ⟨⟨rfl, _, rfl⟩, rfl, _, rfl⟩

/-- The first four instructions need no more; PUTS a nonzero first Word, PUTSP one with a nonzero low byte. -/
theorem witness_FailingConsoleRaisesIOError :
    nextCallFails (demoFail [true]) = true ∧ (demoFail [true]).plain (readReg R0 (demoFail [true])) ∧
    ((demoFail [true]).mem.read (readReg R0 (demoFail [true])).toNat).extractLsb' 0 8 ≠ 0#8 ∧
    (let s := { startAt 0x3001 0 [(0, 0x4000)] [(0x4000, 0x0100)] with conFails := [true] }
     nextCallFails s = true ∧ s.plain (readReg R0 s) ∧ s.mem.read (readReg R0 s).toNat ≠ 0#16) := by
  unfold State.plain; decide

/-- `n` answers, then a failure. -/
theorem failsAfter_replicate (n : Nat) : (demoFail (List.replicate n false ++ [true])).failsAfter n := by
  refine ⟨fun b hb => ?_, by simp [demoFail]⟩
  simp only [demoFail, List.take_append, List.length_replicate, Nat.sub_self, List.take_zero, List.append_nil] at hb
  exact List.eq_of_mem_replicate (List.mem_of_mem_take hb)

/-- Clause by clause: IN at each end of its prompt, at its echo; held, at once and at its echo; PUTS after no Word and after
one; PUTSP after no Word, after one, and between two bytes. -/
theorem witness_FailingServiceKeepsWhatItHasDone :
    (0 ≤ (demoFail [true]).cfg.inPrompt.length ∧ (demoFail [true]).failsAfter 0) ∧
    (19 ≤ demo.cfg.inPrompt.length ∧ (demoFail (List.replicate 19 false ++ [true])).failsAfter 19) ∧
    (let s := { demoIn with conFails := List.replicate 20 false ++ [true] }
     s.conIn = 0x61 :: [] ∧ s.failsAfter (s.cfg.inPrompt.length + 1)) ∧
    (let s := { demoFail [true] with hold := some (.getc 0) }
     s.run = .running ∧ s.hold = some (.getc 0) ∧ s.failsAfter 0) ∧
    (let s := { demoIn with conFails := [false, true], hold := some (.inChar 0) }
     s.run = .running ∧ s.hold = some (.inChar 0) ∧ s.conIn = 0x61 :: [] ∧ s.failsAfter 1) ∧
    (let s := { startAt 0x3001 0 [(0, 0xFFFF)] [(0xFFFF, 0x4241), (0, 0x4443)] with conFails := [false, true] }
     (∀ k, k ≤ [0x4241#16].length → s.plain (readReg R0 s + BitVec.ofNat 16 k)) ∧
     (∀ k (h : k < [0x4241#16].length), s.mem.read (readReg R0 s + BitVec.ofNat 16 k).toNat = [0x4241#16][k] ∧
       [0x4241#16][k].extractLsb' 0 8 ≠ 0#8 ∧ [0x4241#16][k].extractLsb' 8 8 ≠ 0#8 ∧ [0x4241#16][k] ≠ 0) ∧
     s.mem.read (readReg R0 s + BitVec.ofNat 16 [0x4241#16].length).toNat = 0x4443#16 ∧
     (0x4443#16).extractLsb' 0 8 ≠ 0#8 ∧ (0x4443#16).extractLsb' 8 8 ≠ 0#8 ∧
     s.failsAfter [0x4241#16].length ∧
     { s with conFails := [false, false, true] }.failsAfter (2 * [0x4241#16].length) ∧
     { s with conFails := [false, false, false, true] }.failsAfter (2 * [0x4241#16].length + 1)) :=
  ⟨⟨by decide, failsAfter_replicate 0⟩, ⟨by decide, failsAfter_replicate 19⟩, ⟨rfl, failsAfter_replicate 20⟩,
    ⟨rfl, rfl, failsAfter_replicate 0⟩, ⟨rfl, rfl, rfl, failsAfter_replicate 1⟩,
    by unfold State.plain; decide, by decide, by decide, by decide, by decide,
    failsAfter_replicate 1, failsAfter_replicate 2, failsAfter_replicate 3⟩

theorem witness_GetcAndInAreHeldWithoutInput : demo.conIn = [] ∧ demo.consoleNeverFails := ⟨rfl, demo_never⟩

theorem witness_HeldCoreWaits :
    let s := { demo with hold := some (.inChar 3) }
    s.run = .running ∧ s.hold = some (.inChar 3) ∧ s.conIn = [] ∧ nextCallFails s = false := by decide

theorem witness_DeliveryEndsTheHold :
    demo.run = .running ∧ demo.hold = none ∧ demo.conIn = [] ∧ demo.conFails = [] := by decide

/-- `ADD R0, R0, #5` at 0x3000, about to be fetched. -/
def demoAdd : State := startAt 0x3000 0x1025 [] []

theorem witness_StepRunsTheDecodedInstruction :
    demoAdd.willFetch ∧ (∃ ir u, memRead demoAdd.pc demoAdd = .ok ir u) ∧ demoAdd.plain demoAdd.pc ∧
    Instr.WellFormed (.addImm 0 0 5) ∧ demoAdd.mem.read demoAdd.pc.toNat = encode (.addImm 0 0 5) := by
  refine ⟨?_, ⟨_, _, rfl⟩, ?_, rfl, by decide⟩
  · unfold State.willFetch; decide
  · unfold State.plain; decide

theorem witness_OnlyResetLeavesATerminalState :
    State.reset.run ≠ .running ∧
    (let s := { demo with run := .stopped }
     s.run.terminal ∧ (∃ t, hostMove (.deliver 0x61) s = .done t) ∧ HostMove.deliver 0x61 ≠ .reset) :=
  ⟨by decide, .inr (.inr rfl), ⟨_, rfl⟩, by decide⟩

theorem witness_FaultsArePrecise :
    (let s := startAt 0x3000 0xD000 [] []
     s.run = .running ∧ s.hold = none ∧ (∃ ir u, fetch s = .ok ir u) ∧ ∃ t, step s = .next t ∧ t.run = .faulted) ∧
    (let s := { demoFail [true] with hold := some (.getc 0) }
     s.run = .running ∧ s.hold = some (.getc 0) ∧ ∃ t, step s = .next t ∧ t.run = .faulted) ∧
    (let s := { demoFail [true] with pc := 0xFE00 }
     s.run = .running ∧ s.hold = none ∧ (∃ u, fetch s = .fail u) ∧ ∃ t, step s = .next t ∧ t.run = .faulted) :=
  ⟨⟨rfl, rfl, ⟨_, _, rfl⟩, _, rfl, rfl⟩, ⟨rfl, rfl, _, rfl, rfl⟩, rfl, rfl, ⟨_, rfl⟩, _, rfl, rfl⟩

theorem witness_FaultKindFollowsTheWord :
    (let s := startAt 0x3000 0xF0FF [] []
     s.willFetch ∧ (∃ ir u, fetch s = .ok ir u) ∧ ∃ t, step s = .next t ∧ t.run = .faulted ∧ t.faultKind = .illegalTrap) ∧
    (let s := startAt 0x3000 0x8000 [] []
     s.willFetch ∧ (∃ ir u, fetch s = .ok ir u) ∧
       ∃ t, step s = .next t ∧ t.run = .faulted ∧ t.faultKind = .illegalInstruction) ∧
    (let s := { startAt 0x3000 0xF021 [] [] with conFails := [true] }
     s.willFetch ∧ (∃ ir u, fetch s = .ok ir u) ∧ ∃ t, step s = .next t ∧ t.run = .faulted ∧ t.faultKind = .ioError) :=
  ⟨⟨⟨rfl, rfl, rfl⟩, ⟨_, _, rfl⟩, _, rfl, rfl, rfl⟩, ⟨⟨rfl, rfl, rfl⟩, ⟨_, _, rfl⟩, _, rfl, rfl, rfl⟩,
    ⟨rfl, rfl, rfl⟩, ⟨_, _, rfl⟩, _, rfl, rfl, rfl⟩

theorem witness_EveryInstructionKeepsItsFrame :
    (∃ t, exec (.addImm 0 0 5) demo = .next t) ∧ isStore (.addImm 0 0 5) = false ∧ isControl (.addImm 0 0 5) = false ∧
    (∃ t, exec (.str 1 4 0) demo = .next t) := ⟨⟨_, rfl⟩, rfl, rfl, _, rfl⟩

theorem witness_OutputIsAppendedAndInputTakenFromTheHead : ∃ t, step { demoAdd with conIn := [0x61] } = .next t := ⟨_, rfl⟩

theorem witness_StoredWordIsTheNextInstruction :
    let s := startAt 0x3000 0x3200 [(1, 0xD000)] []
    s.mem.wf = true ∧ s.willFetch ∧ s.plain s.pc ∧ s.plain (s.pc + 1#16) ∧
      s.mem.read s.pc.toNat = 0b0011#4 ++ 1#3 ++ 0#9 := by
  unfold State.willFetch State.plain; decide

theorem witness_FetchFromADeviceAddress :
    (let s := { demoIn with pc := 0xFE00 }
     s.willFetch ∧ s.cfg.wf ∧ s.pc = s.cfg.kbsrAddr ∧ nextCallFails s = false ∧ s.conIn ≠ []) ∧
    (let s := { demo with pc := 0xFE00 }
     s.willFetch ∧ s.cfg.wf ∧ s.pc = s.cfg.kbsrAddr ∧ nextCallFails s = false ∧ s.conIn = []) ∧
    (let s := { demoIn with pc := 0xFE02 }
     s.willFetch ∧ s.cfg.wf ∧ s.pc = s.cfg.kbdrAddr ∧ nextCallFails s = false ∧ nextCallFails (callMade s) = false ∧
       s.conIn = 0x61 :: []) ∧
    (let s := { demo with pc := 0xFE02, kbdrLatch := 0x61 }
     s.willFetch ∧ s.cfg.wf ∧ s.pc = s.cfg.kbdrAddr ∧ nextCallFails s = false ∧ s.conIn = [] ∧ s.kbdrLatch.toNat < 256) ∧
    (let s := { demoFail [true] with pc := 0xFE02 }
     s.willFetch ∧ s.cfg.wf ∧ ¬ s.plain s.pc ∧ nextCallFails s = true) ∧
    (let s := { demoIn with pc := 0xFE02, conFails := [false, true] }
     s.willFetch ∧ s.cfg.wf ∧ s.pc = s.cfg.kbdrAddr ∧ nextCallFails s = false ∧ s.conIn ≠ [] ∧
       nextCallFails (callMade s) = true) := by
  unfold State.willFetch State.plain; decide

theorem demoAdd_inv : demoAdd.Inv where
  devicesDiffer := by decide
  memCanonical := by decide
  devicesUnlisted := by decide
  condOneHot := .inr (.inl rfl)
  latchIsByte := by decide
  faultedHasKind := by decide
  recordOnlyWhenFaulted := fun _ => ⟨rfl, rfl, rfl⟩
  heldOnlyWhenRunning := by decide
  noStopInIdle := by decide
  failedLoadStaysIdle := by decide

theorem witness_StepKeepsTheInvariant : demoAdd.Inv ∧ ∃ t, step demoAdd = .next t := ⟨demoAdd_inv, _, rfl⟩

/-- Reset, with a character delivered before anything is loaded. -/
def demoIdle : State := { State.reset with conIn := [0x61] }

theorem demoIdle_inv : demoIdle.Inv where
  devicesDiffer := by decide
  memCanonical := rfl
  devicesUnlisted := ⟨rfl, rfl⟩
  condOneHot := .inr (.inl rfl)
  latchIsByte := by decide
  faultedHasKind := by decide
  recordOnlyWhenFaulted := fun _ => ⟨rfl, rfl, rfl⟩
  heldOnlyWhenRunning := by decide
  noStopInIdle := fun _ => rfl
  failedLoadStaysIdle := by decide

theorem witness_HostMovesKeepTheInvariant :
    (demoAdd.Inv ∧ ∃ t, hostMove .stop demoAdd = .done t) ∧
    (demoIdle.Inv ∧ ∃ t, ∃ why, hostMove (.load [0x30]) demoIdle = .loadError why t) :=
  ⟨⟨demoAdd_inv, _, rfl⟩, demoIdle_inv, _, _, rfl⟩

/-- Two moves from reset: start, then a first step. -/
theorem witness_NoReachableStateStopsTheMachine :
    demoAdd.Inv ∧ ∃ t, Reachable t ∧ t.run = .running ∧ t.pc = 0x3001 :=
  ⟨demoAdd_inv, _, .next (.next .reset (.host .start rfl)) (.core rfl), rfl, rfl⟩

theorem witness_LoadPlacesTheImage :
    State.reset.run = .idle ∧ State.reset.loadStatus = .notLoaded ∧ State.reset.mem.wf = true ∧
    (0xFFFF#16).toNat + [0xF025#16].length ≤ 65536 ∧ State.reset.cfg.loadMinOrigin.toNat ≤ (0xFFFF#16).toNat ∧
    (0 < [0xF025#16].length ∧ State.reset.plain (0xFFFF#16 + BitVec.ofNat 16 0)) ∧ ¬ State.reset.plain 0xFE00 := by
  unfold State.plain; decide

theorem witness_MalformedFilesAreLoadErrors :
    let s := { State.reset with cfg := { Config.default with loadMinOrigin := 0x3000 } }
    s.run = .idle ∧ s.loadStatus = .notLoaded ∧ ([0x30] : List Byte).length < 2 ∧
    2 ≤ ([0x30, 0, 1] : List Byte).length ∧ ([0x30, 0, 1] : List Byte).length % 2 = 1 ∧
    65536 < (0xFFFF#16).toNat + [0#16, 1#16].length ∧
    (0x2FFF#16).toNat + [0#16].length ≤ 65536 ∧ (0x2FFF#16).toNat < s.cfg.loadMinOrigin.toNat ∧
    (let u := { s with loadStatus := .failed }
     u.run = .idle ∧ u.loadStatus = .failed ∧ HostMove.deliver 0x61 ≠ .reset) := by decide

theorem witness_StartAndStop :
    State.reset.run = .idle ∧ State.reset.loadStatus ≠ .failed ∧ demoAdd.run ≠ .idle ∧
    { State.reset with loadStatus := .failed }.loadStatus = .failed ∧ State.reset.run ≠ .running ∧
    demoAdd.run = .running ∧ demoAdd.stopReq = false ∧ demoAdd.hold = none ∧
    (let s := { demoAdd with hold := some (.getc 0) }
     s.run = .running ∧ s.stopReq = false ∧ s.hold = some (.getc 0)) := by decide

end Sys2Proof.Machine
end

section
/-! PROOFS. The sign extensions (spec/30_encoding.md R93 to R96) and the zero extension (spec/00_scope.md R10) by value. -/
namespace Sys2Proof.Machine

/-- Replicating the sign bit up to bit 15 adds `65536 - 2 ^ n` to a negative field of any width `n` up to a Word's. -/
theorem toNat_signExtend_word {n : Nat} (hn : n ≤ 16) (f : BitVec n) :
    (f.signExtend 16).toNat = if f.msb then f.toNat + 65536 - 2 ^ n else f.toNat := by
  have hpow : 2 ^ n ≤ 65536 := Nat.pow_le_pow_right (by decide) hn
  rw [BitVec.toNat_signExtend, BitVec.toNat_setWidth_of_le hn]
  split
  · exact (Nat.add_sub_assoc hpow _).symm
  · rfl

theorem sext5_toNat (f : BitVec 5) : (sext5 f).toNat = if f.msb then f.toNat + 65536 - 2 ^ 5 else f.toNat :=
  toNat_signExtend_word (by decide) f

theorem sext6_toNat (f : BitVec 6) : (sext6 f).toNat = if f.msb then f.toNat + 65536 - 2 ^ 6 else f.toNat :=
  toNat_signExtend_word (by decide) f

theorem sext9_toNat (f : BitVec 9) : (sext9 f).toNat = if f.msb then f.toNat + 65536 - 2 ^ 9 else f.toNat :=
  toNat_signExtend_word (by decide) f

theorem sext11_toNat (f : BitVec 11) : (sext11 f).toNat = if f.msb then f.toNat + 65536 - 2 ^ 11 else f.toNat :=
  toNat_signExtend_word (by decide) f

@[simp] theorem zext8_toNat (c : Byte) : (zext8 c).toNat = c.toNat :=
  BitVec.toNat_setWidth_of_le (by decide)

/-- Settles O1: the four sign extensions are one fact about every width up to 16, the zero extension keeps the value. -/
theorem extensionsReplicateTheSignBit : Obligations.ExtensionsReplicateTheSignBit :=
  ⟨sext5_toNat, sext6_toNat, sext9_toNat, sext11_toNat, zext8_toNat⟩

end Sys2Proof.Machine
end

section
/-! PROOFS. The fields that console calls keep by name, and what a step of a held core can do. -/
namespace Sys2Proof.Machine

namespace ConsoleOnly

variable {s t : State}

theorem pc (h : ConsoleOnly s t) : t.pc = s.pc := by rw [h.rest]

theorem cond (h : ConsoleOnly s t) : t.cond = s.cond := by rw [h.rest]

theorem run (h : ConsoleOnly s t) : t.run = s.run := by rw [h.rest]

theorem hold (h : ConsoleOnly s t) : t.hold = s.hold := by rw [h.rest]

end ConsoleOnly

/-- One more step of a held core, from the state `s0` after the fetch, fails, goes on waiting or takes its character
(spec/20_memory.md R72). -/
theorem resumeHeld_cases (w : Held) {s s0 : State} (h0 : s0 = setPc (s.pc + 1#16) s) :
    (∃ u, ConsoleOnly (linkR7 s0) u ∧
      resumeHeld w s = .next (raiseFault .ioError (fetchedFrom s0) (encode w.instr) s0 u)) ∨
    (∃ u, ConsoleOnly (linkR7 s0) u ∧ resumeHeld w s = .next (holdIn w s0 u)) ∨
    (∃ c u, ConsoleOnly (linkR7 s0) u ∧ resumeHeld w s = .next (release (writeReg R0 (zext8 c) u))) := by
  subst h0
  cases w with
  | getc g => simpa [resumeHeld, Held.instr] using serviceGetc_cases g (encode (.getc g)) (setPc (s.pc + 1#16) s)
  | inChar g =>
    simpa [resumeHeld, Held.instr] using
      serviceInWait_cases g (encode (.inChar g)) (setPc (s.pc + 1#16) s) (linkR7 (setPc (s.pc + 1#16) s))

end Sys2Proof.Machine
end

section
/-! PROOFS. Reset: every piece of state at its value (spec/10_state.md R35, spec/70_reset_and_hazards.md R300). -/
namespace Sys2Proof.Machine

theorem readReg_reset (r : RegIdx) : readReg r State.reset = 0x0000#16 := by
  have h : State.reset.regs = Vector.replicate 8 0x0000#16 := by decide
  simp [readReg, h]

/-- Settles O56: each value is read off `State.reset`; `hostReset` changes the console and the parameters only. -/
theorem resetGivesEveryStateItsValue : Obligations.ResetGivesEveryStateItsValue :=
  ⟨readReg_reset, rfl, rfl, fun _ => rfl, rfl, rfl, rfl, rfl, rfl, fun s =>
    ⟨hostReset s, rfl, fun _ _ => rfl, rfl, rfl, fun _ => rfl, rfl, rfl, rfl, rfl, rfl, rfl, rfl⟩⟩

/-- Settles O54: memory is empty, Z alone is set, nothing is held, pending or recorded. -/
theorem resetMeetsTheInvariant : Obligations.ResetMeetsTheInvariant where
  devicesDiffer := by decide
  memCanonical := reset_mem_wf
  devicesUnlisted := ⟨rfl, rfl⟩
  condOneHot := .inr (.inl rfl)
  latchIsByte := by decide
  faultedHasKind := by decide
  recordOnlyWhenFaulted := fun _ => ⟨rfl, rfl, rfl⟩
  heldOnlyWhenRunning := fun h => absurd rfl h
  noStopInIdle := fun _ => rfl
  failedLoadStaysIdle := fun _ => rfl

end Sys2Proof.Machine
end

section
/-! PROOFS. The invariant of the machine (spec/10_state.md R26, R34): one lemma for each operation a step is built from,
then every end of an instruction, then every step. -/
namespace Sys2Proof.Machine

variable {s u : State}

theorem oneHot_condOf (v : Word) : oneHot (condOf v) := by
  unfold condOf
  split
  · exact .inl rfl
  · split
    · exact .inr (.inl rfl)
    · exact .inr (.inr rfl)

theorem setPc_inv (h : s.Inv) (target : Word) : (setPc target s).Inv := { h with }

theorem writeReg_inv (h : s.Inv) (r : RegIdx) (v : Word) : (writeReg r v s).Inv := { h with }

theorem linkR7_inv (h : s.Inv) : (linkR7 s).Inv := writeReg_inv h R7 s.pc

/-- The flags of any Word are one flag. -/
theorem writeResult_inv (h : s.Inv) (dr : RegIdx) (v : Word) : (writeResult dr v s).Inv :=
  { h with condOneHot := oneHot_condOf v }

/-- MemWrite discards what is stored at a device address (spec/20_memory.md R67), so both still read 0x0000. -/
theorem memWrite_inv (h : s.Inv) (a v : Word) : (memWrite a v s).Inv := by
  by_cases hd : isDevice a s = true
  · rwa [memWrite_device a v s hd]
  · rw [Bool.not_eq_true] at hd
    obtain ⟨hs, hr⟩ := isDevice_eq_false.mp hd
    have unchanged {b : Word} (hb : a ≠ b) : (s.mem.write a.toNat v).read b.toNat = s.mem.read b.toNat :=
      Memory.read_write_other (fun e => hb (BitVec.eq_of_toNat_eq e.symm)) v s.mem
    rw [memWrite_plain a v s hd]
    exact { h with
      memCanonical := Memory.wf_write h.memCanonical a.isLt v
      devicesUnlisted := ⟨(unchanged hs).trans h.devicesUnlisted.1, (unchanged hr).trans h.devicesUnlisted.2⟩ }

theorem release_inv (h : s.Inv) : (release s).Inv := { h with heldOnlyWhenRunning := fun hn => absurd rfl hn }

/-- A character in the latch is a byte (spec/20_memory.md R63). -/
theorem ConsoleOnly.inv (hu : ConsoleOnly s u) (h : s.Inv) : u.Inv := by
  have hl : u.kbdrLatch.toNat < 256 := by
    rcases hu.latch with e | ⟨c, e⟩
    · rw [e]; exact h.latchIsByte
    · rw [e, zext8_toNat]; exact c.isLt
  rw [hu.rest]
  exact { h with latchIsByte := hl }

/-- A failed load leaves the core in IDLE, so a running core has none. -/
theorem State.Inv.loadStatus_ne_failed (h : s.Inv) (hr : s.run = .running) : s.loadStatus ≠ .failed :=
  fun e => by simp [h.failedLoadStaysIdle e] at hr

/-- A running core that is not held may enter one of the other states, but FAULTED with the record written only. -/
theorem leaveRunning_inv (h : s.Inv) (hr : s.run = .running) (hh : s.hold = none) {r : RunState} (hi : r ≠ .idle)
    (hf : r ≠ .faulted) (b : Bool) : ({ s with run := r, stopReq := b } : State).Inv :=
  { h with
    faultedHasKind := fun e => absurd e hf
    recordOnlyWhenFaulted := fun _ => h.recordOnlyWhenFaulted (by simp [hr])
    heldOnlyWhenRunning := fun hn => absurd hh hn
    noStopInIdle := fun e => absurd e hi
    failedLoadStaysIdle := fun e => absurd e (h.loadStatus_ne_failed hr) }

theorem haltCore_inv (h : s.Inv) (hr : s.run = .running) (hh : s.hold = none) : (haltCore s).Inv :=
  leaveRunning_inv h hr hh (by decide) (by decide) s.stopReq

theorem honourStop_inv (h : s.Inv) (hr : s.run = .running) (hh : s.hold = none) : (honourStop s).Inv :=
  leaveRunning_inv h hr hh (by decide) (by decide) false

/-- Going back to the flags and the memory of `s`: `u` is a state of the same machine. -/
theorem uncommitted_inv (h : s.Inv) (hu : u.Inv) (hc : u.cfg = s.cfg) (pc0 : Word) : (uncommitted pc0 s u).Inv :=
  { hu with
    memCanonical := h.memCanonical
    devicesUnlisted := by simpa [uncommitted, hc] using h.devicesUnlisted
    condOneHot := h.condOneHot }

theorem holdIn_inv (h : s.Inv) (hu : u.Inv) (hc : u.cfg = s.cfg) (hr : u.run = .running) (w : Held) :
    (holdIn w s u).Inv :=
  { uncommitted_inv h hu hc (fetchedFrom s) with heldOnlyWhenRunning := fun _ => hr }

/-- `raise` writes the record on entry to FAULTED (spec/10_state.md R34). -/
theorem raiseFault_inv (h : s.Inv) (hu : u.Inv) (hc : u.cfg = s.cfg) (hr : u.run = .running) {k : FaultKind}
    (hk : k ≠ .none) (pc0 ir : Word) : (raiseFault k pc0 ir s u).Inv :=
  { uncommitted_inv h hu hc pc0 with
    faultedHasKind := fun _ => hk
    recordOnlyWhenFaulted := fun hn => absurd rfl hn
    heldOnlyWhenRunning := fun hn => absurd rfl hn
    noStopInIdle := fun e => nomatch e
    failedLoadStaysIdle := fun e => absurd e (hu.loadStatus_ne_failed hr) }

/-- Every end of an instruction keeps the invariant of a running core that is not held. -/
theorem exec_inv {i : Instr} {t : State} (h : s.Inv) (hr : s.run = .running) (hh : s.hold = none)
    (he : exec i s = .next t) : t.Inv := by
  have linked {u : State} (hu : ConsoleOnly (linkR7 s) u) : u.Inv := hu.inv (linkR7_inv h)
  cases exec_ends he with
  | result dr v u _ hu ht => exact ht ▸ writeResult_inv (hu.inv h) dr v
  | store ea v u _ hu ht => exact ht ▸ memWrite_inv (hu.inv h) ea v
  | jump target _ ht => exact ht ▸ setPc_inv h target
  | link target _ _ ht => exact ht ▸ setPc_inv (linkR7_inv h) target
  | trapDone u _ _ hu ht => exact ht ▸ linked hu
  | trapHalt u _ _ hu ht => exact ht ▸ haltCore_inv (linked hu) (hu.run.trans hr) (hu.hold.trans hh)
  | trapChar c u _ _ hu ht => exact ht ▸ release_inv (writeReg_inv (linked hu) R0 (zext8 c))
  | held w u _ _ hu ht => exact ht ▸ holdIn_inv h (linked hu) hu.cfg (hu.run.trans hr) w
  | fault k u hu hk ht =>
    rcases hu with hu | hu
    · exact ht ▸ raiseFault_inv h (hu.inv h) hu.cfg (hu.run.trans hr) hk _ _
    · exact ht ▸ raiseFault_inv h (linked hu) hu.cfg (hu.run.trans hr) hk _ _

/-- So does every step of a held core. -/
theorem resumeHeld_inv {w : Held} {t : State} (h : s.Inv) (hr : s.run = .running) (he : resumeHeld w s = .next t) :
    t.Inv := by
  obtain ⟨s0, e0⟩ : ∃ s0, s0 = setPc (s.pc + 1#16) s := ⟨_, rfl⟩
  have h0 : s0.Inv := e0 ▸ setPc_inv h (s.pc + 1#16)
  have hr0 : s0.run = .running := e0 ▸ hr
  have linked {u : State} (hu : ConsoleOnly (linkR7 s0) u) : u.Inv := hu.inv (linkR7_inv h0)
  rcases resumeHeld_cases w e0 with ⟨u, hu, e⟩ | ⟨u, hu, e⟩ | ⟨c, u, hu, e⟩ <;> rw [e] at he <;> cases he
  · exact raiseFault_inv h0 (linked hu) hu.cfg (hu.run.trans hr0) (by decide) _ _
  · exact holdIn_inv h0 (linked hu) hu.cfg (hu.run.trans hr0) w
  · exact release_inv (writeReg_inv (linked hu) R0 (zext8 c))

/-- Settles O52, by the five cases of a step. -/
theorem stepKeepsTheInvariant : Obligations.StepKeepsTheInvariant := by
  intro s t h he
  rcases step_cases s with ⟨_, e⟩ | ⟨w, hr, _, e⟩ | ⟨hr, hh, _, e⟩ | ⟨u, hf, hu, e⟩ | ⟨ir, u, hf, hu, e⟩ <;>
    rw [e] at he
  · cases he; exact h
  · exact resumeHeld_inv h hr he
  · cases he; exact honourStop_inv h hr hh
  · obtain ⟨hr, _, _⟩ := hf
    have hc := fetch_fail hu
    cases he
    exact raiseFault_inv h (hc.inv h) hc.cfg (hc.run.trans hr) (by decide) _ _
  · obtain ⟨hr, hh, _⟩ := hf
    obtain ⟨v, _, rfl, hc⟩ := fetch_ok hu
    exact exec_inv (setPc_inv (hc.inv h) (s.pc + 1#16)) (hc.run.trans hr) (hc.hold.trans hh) he

end Sys2Proof.Machine
end

section
/-! PROOFS. The frame of every instruction and the writers of the flags (spec/10_state.md R21, R23, R27), from the ways
an instruction can end. -/
namespace Sys2Proof.Machine

variable {i : Instr} {l : List RegIdx} {s t u : State}

/-! ### Classes of instructions: only ADD, AND, NOT and the loads have a flag destination, and it is what they write -/

theorem flagDest_eq_none (h : isStore i = true ∨ isControl i = true ∨ isTrap i = true) : flagDest i = none := by
  cases i <;> simp [isStore, isControl, isTrap] at h <;> rfl

theorem writtenRegs_of_flagDest {dr : RegIdx} (h : flagDest i = some dr) : writtenRegs i = [dr] := by
  cases i <;> cases h <;> rfl

/-! ### Registers that stay -/

theorem sameRegsBut.mono {l' : List RegIdx} (h : sameRegsBut l s t) (hl : l ⊆ l') : sameRegsBut l' s t :=
  fun r hr => h r fun hm => hr (hl hm)

theorem sameRegsBut.trans (h : sameRegsBut l s t) (k : sameRegsBut l t u) : sameRegsBut l s u :=
  fun r hr => (k r hr).trans (h r hr)

theorem ConsoleOnly.sameRegsBut (h : ConsoleOnly s t) (l : List RegIdx) : Machine.sameRegsBut l s t :=
  fun r _ => h.readReg r

/-- A TRAP with R7 written and only console calls made since. -/
theorem linkR7_console_sameRegsBut (h : ConsoleOnly (linkR7 s) u) (hl : R7 ∈ l) : sameRegsBut l s u :=
  ((sameRegsBut_writeReg R7 s.pc s).mono (by simpa using hl)).trans (h.sameRegsBut l)

/-- What an instruction does to the flags: it ends in `writeResult`, or it keeps them and either has no flag
destination or faulted. -/
theorem exec_cond (h : exec i s = .next t) :
    (∃ dr v u, flagDest i = some dr ∧ ConsoleOnly s u ∧ t = writeResult dr v u) ∨
    (t.cond = s.cond ∧ (flagDest i = none ∨ t.run = .faulted)) := by
  cases exec_ends h with
  | result dr v u hd hu ht => exact .inl ⟨dr, v, u, hd, hu, ht⟩
  | store ea v u hi hu ht =>
    exact .inr ⟨by rw [ht, memWrite_cond, hu.cond], .inl (flagDest_eq_none (.inl hi))⟩
  | jump target hi ht | link target hi _ ht => exact .inr ⟨ht ▸ rfl, .inl (flagDest_eq_none (.inr (.inl hi)))⟩
  | trapDone u hi _ hu ht | trapHalt u hi _ hu ht | trapChar c u hi _ hu ht =>
    exact .inr ⟨ht ▸ hu.cond, .inl (flagDest_eq_none (.inr (.inr hi)))⟩
  | held w u hi _ hu ht => exact .inr ⟨ht ▸ rfl, .inl (flagDest_eq_none (.inr (.inr hi)))⟩
  | fault k u _ _ ht => exact .inr ⟨ht ▸ rfl, .inr (ht ▸ rfl)⟩

/-- Settles O8: `writeResult` gives the destination its value and sets the flags by it. -/
theorem onlySevenInstructionsWriteFlags : Obligations.OnlySevenInstructionsWriteFlags := by
  intro i s t h
  rcases exec_cond h with ⟨dr, v, u, hd, hu, rfl⟩ | ⟨hc, hn | hf⟩
  · refine ⟨fun hn => by simp [hn] at hd, fun d e => .inl ⟨?_, hu.run⟩⟩
    obtain rfl : d = dr := by simpa [e] using hd
    simp [readReg_writeResult]
  · exact ⟨fun _ => hc, fun dr hd => by simp [hn] at hd⟩
  · exact ⟨fun _ => hc, fun _ _ => .inr ⟨hc, hf⟩⟩

/-- Settles O48, by the ways an instruction can end. -/
theorem everyInstructionKeepsItsFrame : Obligations.EveryInstructionKeepsItsFrame := by
  intro i s t h
  cases exec_ends h with
  | result dr v u hd hu ht =>
    subst ht
    obtain ⟨⟨_, _, hregs, hpc, hmem, _⟩, _⟩ := writeResult_effect hu dr v
    exact ⟨writtenRegs_of_flagDest hd ▸ hregs, fun _ => hmem, fun _ => .inl hpc, hu.sameHost⟩
  | store ea v u hi hu ht =>
    subst ht
    refine ⟨fun r _ => ?_, fun hn => by simp [hi] at hn, fun _ => .inl ?_, ?_⟩
    · rw [readReg_memWrite, hu.readReg]
    · rw [memWrite_pc, hu.pc]
    · simpa [sameHost] using hu.sameHost
  | jump target hi ht =>
    subst ht
    exact ⟨fun _ _ => rfl, fun _ _ => rfl, fun hn => by simp [hi] at hn, rfl, rfl, rfl⟩
  | link target hi hw ht =>
    subst ht
    exact ⟨hw ▸ sameRegsBut_writeReg R7 s.pc s, fun _ _ => rfl, fun hn => by simp [hi] at hn, rfl, rfl, rfl⟩
  | trapDone u _ hw hu ht | trapHalt u _ hw hu ht =>
    have hregs : sameRegsBut (writtenRegs i) s u := linkR7_console_sameRegsBut hu hw
    subst ht
    exact ⟨hregs, fun _ => hu.sameMem, fun _ => .inl hu.pc, hu.sameHost⟩
  | trapChar c u _ hw hu ht =>
    subst ht
    refine ⟨hw ▸ ?_, fun _ => hu.sameMem, fun _ => .inl hu.pc, hu.sameHost⟩
    exact (linkR7_console_sameRegsBut hu (by simp)).trans ((sameRegsBut_writeReg R0 (zext8 c) u).mono (by simp))
  | held w u _ _ hu ht =>
    subst ht
    exact ⟨fun _ _ => rfl, fun _ _ => rfl, fun _ => .inr ⟨rfl, .inr (by simp)⟩, hu.sameHost⟩
  | fault k u hu _ ht =>
    subst ht
    exact ⟨fun _ _ => rfl, fun _ _ => rfl, fun _ => .inr ⟨rfl, .inl rfl⟩, hu.elim (·.sameHost) (·.sameHost)⟩

end Sys2Proof.Machine
end

section
/-! PROOFS. Only BR reads the flags (spec/10_state.md R27): every operation an instruction is built from goes the same
way with the flags blanked. -/
namespace Sys2Proof.Machine

/-! ### Console calls and reads -/

/-- A console-dependent answer with the flags of the state it carries blanked. -/
def Con.blankCond {α : Type} : Con α → Con α
  | .ok a s => .ok a (Machine.blankCond s)
  | .fail s => .fail (Machine.blankCond s)

theorem consoleReady_blankCond (s : State) : consoleReady (blankCond s) = (consoleReady s).blankCond := by
  cases h : nextCallFails s with
  | true => rw [consoleReady_fails h, consoleReady_fails (s := blankCond s) h]; rfl
  | false => rw [consoleReady_answers h, consoleReady_answers (s := blankCond s) h]; rfl

theorem consoleGet_blankCond (s : State) : consoleGet (blankCond s) = (consoleGet s).blankCond := by
  cases h : nextCallFails s with
  | true => rw [consoleGet_fails h, consoleGet_fails (s := blankCond s) h]; rfl
  | false => rw [consoleGet_answers h, consoleGet_answers (s := blankCond s) h]; rfl

theorem consolePut_blankCond (b : Byte) (s : State) : consolePut b (blankCond s) = (consolePut b s).blankCond := by
  cases h : nextCallFails s with
  | true => rw [consolePut_fails h, consolePut_fails (s := blankCond s) h]; rfl
  | false => rw [consolePut_answers h, consolePut_answers (s := blankCond s) h]; rfl

theorem consoleFlush_blankCond (s : State) : consoleFlush (blankCond s) = (consoleFlush s).blankCond := by
  cases h : nextCallFails s with
  | true => rw [consoleFlush_fails h, consoleFlush_fails (s := blankCond s) h]; rfl
  | false => rw [consoleFlush_answers h, consoleFlush_answers (s := blankCond s) h]; rfl

theorem consolePutAll_blankCond (bs : List Byte) (s : State) :
    consolePutAll bs (blankCond s) = (consolePutAll bs s).blankCond := by
  induction bs generalizing s with
  | nil => rfl
  | cons b bs ih =>
    simp only [consolePutAll, consolePut_blankCond]
    cases consolePut b s with
    | fail u => rfl
    | ok x u => exact ih u

theorem kbsrRead_blankCond (s : State) : kbsrRead (blankCond s) = (kbsrRead s).blankCond := by
  simp only [kbsrRead, consoleReady_blankCond]
  cases consoleReady s <;> rfl

theorem kbdrRead_blankCond (s : State) : kbdrRead (blankCond s) = (kbdrRead s).blankCond := by
  simp only [kbdrRead, consoleReady_blankCond]
  cases consoleReady s with
  | fail u => rfl
  | ok ready u =>
    cases ready with
    | false => rfl
    | true =>
      simp only [Con.blankCond, if_true, consoleGet_blankCond]
      cases consoleGet u with
      | fail v => rfl
      | ok c v => cases c <;> rfl

/-- A device address is read from its register (spec/20_memory.md R55). -/
theorem memRead_at_kbsr {a : Word} {s : State} (h : a = s.cfg.kbsrAddr) : memRead a s = kbsrRead s := if_pos h

theorem memRead_at_kbdr {a : Word} {s : State} (hn : a ≠ s.cfg.kbsrAddr) (h : a = s.cfg.kbdrAddr) :
    memRead a s = kbdrRead s := (if_neg hn).trans (if_pos h)

theorem memRead_blankCond (a : Word) (s : State) : memRead a (blankCond s) = (memRead a s).blankCond := by
  by_cases hs : a = s.cfg.kbsrAddr
  · rw [memRead_at_kbsr hs, memRead_at_kbsr (s := blankCond s) hs, kbsrRead_blankCond]
  · by_cases hd : a = s.cfg.kbdrAddr
    · rw [memRead_at_kbdr hs hd, memRead_at_kbdr (s := blankCond s) hs hd, kbdrRead_blankCond]
    · rw [memRead_at_plain ⟨hs, hd⟩, memRead_at_plain (s := blankCond s) ⟨hs, hd⟩]; rfl

theorem readIndirect_blankCond (o : BitVec 9) (s : State) :
    readIndirect o (blankCond s) = (readIndirect o s).blankCond := by
  have h : indirect9 o (blankCond s) = (indirect9 o s).blankCond := memRead_blankCond (pcRel9 o s) s
  simp only [readIndirect, h]
  cases indirect9 o s with
  | fail u => rfl
  | ok ea u => exact memRead_blankCond ea u

theorem memWrite_blankCond (a v : Word) (s : State) :
    blankCond (memWrite a v (blankCond s)) = blankCond (memWrite a v s) := by
  cases h : isDevice a s with
  | true => rw [memWrite_device a v s h, memWrite_device a v (blankCond s) h]; rfl
  | false => rw [memWrite_plain a v s h, memWrite_plain a v (blankCond s) h]; rfl

/-- A read that answers or raises IOError ends alike with the flags blanked, when what follows the answer does. -/
theorem orIOError_blankCond {α : Type} {ir : Word} {s : State} {r r' : Con α} {k k' : α → State → State}
    (hr : r' = r.blankCond) (hk : ∀ a u, blankCond (k' a (blankCond u)) = blankCond (k a u)) :
    blankCond (orIOError ir (blankCond s) r' k') = blankCond (orIOError ir s r k) := by
  subst hr
  cases r with
  | fail u => rfl
  | ok a u => exact hk a u

/-! ### The scans of PUTS and PUTSP -/

/-- The end of a scan with the flags of its state blanked. -/
def Scan.blankCond : Scan → Scan
  | .done s => .done (Machine.blankCond s)
  | .fail s => .fail (Machine.blankCond s)
  | .endless => .endless

theorem putsLoop_blankCond (fuel : Nat) (a : Word) (s : State) :
    putsLoop fuel a (blankCond s) = (putsLoop fuel a s).blankCond := by
  induction fuel generalizing a s with
  | zero => rfl
  | succ fuel ih =>
    simp only [putsLoop, memRead_blankCond]
    cases memRead a s with
    | fail u => rfl
    | ok w u =>
      by_cases hw : w = 0x0000#16
      · simp [Con.blankCond, hw, Scan.blankCond]
      · simp only [Con.blankCond, hw, if_false, consolePut_blankCond]
        cases consolePut (lowByte w) u with
        | fail v => rfl
        | ok x v => exact ih (a + 1#16) v

theorem putspLoop_blankCond (fuel : Nat) (a : Word) (s : State) :
    putspLoop fuel a (blankCond s) = (putspLoop fuel a s).blankCond := by
  induction fuel generalizing a s with
  | zero => rfl
  | succ fuel ih =>
    simp only [putspLoop, memRead_blankCond]
    cases memRead a s with
    | fail u => rfl
    | ok w u =>
      by_cases hl : lowByte w = 0x00#8
      · simp [Con.blankCond, hl, Scan.blankCond]
      · simp only [Con.blankCond, hl, if_false, consolePut_blankCond]
        cases consolePut (lowByte w) u with
        | fail v => rfl
        | ok x v =>
          by_cases hh : highByte w = 0x00#8
          · simp [hh, Scan.blankCond]
          · simp only [Con.blankCond, hh, if_false, consolePut_blankCond]
            cases consolePut (highByte w) v with
            | fail y => rfl
            | ok x y => exact ih (a + 1#16) y

theorem endScan_blankCond {ir : Word} {s : State} {r r' : Scan} (h : r' = r.blankCond) :
    mapNext blankCond (endScan ir (blankCond s) r') = mapNext blankCond (endScan ir s r) := by
  subst h
  cases r <;> rfl

/-! ### The services -/

theorem serviceGetc_blankCond (g : BitVec 4) (ir : Word) (s : State) :
    blankCond (serviceGetc g ir (blankCond s)) = blankCond (serviceGetc g ir s) :=
  orIOError_blankCond (consoleGet_blankCond (linkR7 s)) fun c _ => by cases c <;> rfl

theorem serviceOut_blankCond (ir : Word) (s : State) :
    blankCond (serviceOut ir (blankCond s)) = blankCond (serviceOut ir s) :=
  orIOError_blankCond (consolePut_blankCond _ (linkR7 s)) fun _ _ => rfl

theorem serviceInWait_blankCond (g : BitVec 4) (ir : Word) (s0 s : State) :
    blankCond (serviceInWait g ir (blankCond s0) (blankCond s)) = blankCond (serviceInWait g ir s0 s) :=
  orIOError_blankCond (consoleGet_blankCond s) fun c u => by
    cases c with
    | none => rfl
    | some c => exact orIOError_blankCond (consolePut_blankCond c u) fun _ _ => rfl

theorem serviceIn_blankCond (g : BitVec 4) (ir : Word) (s : State) :
    blankCond (serviceIn g ir (blankCond s)) = blankCond (serviceIn g ir s) :=
  orIOError_blankCond (consolePutAll_blankCond s.cfg.inPrompt (linkR7 s)) fun _ u => serviceInWait_blankCond g ir s u

theorem serviceHalt_blankCond (ir : Word) (s : State) :
    blankCond (serviceHalt ir (blankCond s)) = blankCond (serviceHalt ir s) :=
  orIOError_blankCond (consoleFlush_blankCond (linkR7 s)) fun _ _ => rfl

theorem servicePuts_blankCond (ir : Word) (s : State) :
    mapNext blankCond (servicePuts ir (blankCond s)) = mapNext blankCond (servicePuts ir s) :=
  endScan_blankCond (putsLoop_blankCond (scanFuel s) (readReg R0 s) (linkR7 s))

theorem servicePutsp_blankCond (ir : Word) (s : State) :
    mapNext blankCond (servicePutsp ir (blankCond s)) = mapNext blankCond (servicePutsp ir s) :=
  endScan_blankCond (putspLoop_blankCond (scanFuel s) (readReg R0 s) (linkR7 s))

/-! ### Every instruction but BR -/

/-- The general TRAP row is one of the six services or a fault. -/
theorem execTrap_blankCond (v : BitVec 8) (g : BitVec 4) (s : State) :
    mapNext blankCond (execTrap v g (blankCond s)) = mapNext blankCond (execTrap v g s) := by
  unfold execTrap
  split
  · exact congrArg Host.Outcome.next (serviceGetc_blankCond g _ s)
  · exact congrArg Host.Outcome.next (serviceOut_blankCond _ s)
  · exact servicePuts_blankCond _ s
  · exact congrArg Host.Outcome.next (serviceIn_blankCond g _ s)
  · exact servicePutsp_blankCond _ s
  · exact congrArg Host.Outcome.next (serviceHalt_blankCond _ s)
  · rfl

/-- An instruction other than BR ends alike, but for the flags, when it begins with the flags blanked. -/
theorem exec_blankCond {i : Instr} (hi : isBr i = false) (s : State) :
    mapNext blankCond (exec i (blankCond s)) = mapNext blankCond (exec i s) := by
  cases i with
  | br => cases hi
  | addReg | addImm | andReg | andImm | not | lea | jsr | jmp | rti | reserved => rfl
  | jsrr b =>
    have hc : (blankCond s).cfg = s.cfg := rfl
    cases h : s.cfg.jsrrLinkFirst <;> simp only [exec, execJsrr, hc, h] <;> rfl
  | ld d o => exact congrArg Host.Outcome.next (orIOError_blankCond (memRead_blankCond _ s) fun _ _ => rfl)
  | ldr d b o => exact congrArg Host.Outcome.next (orIOError_blankCond (memRead_blankCond _ s) fun _ _ => rfl)
  | ldi d o => exact congrArg Host.Outcome.next (orIOError_blankCond (readIndirect_blankCond o s) fun _ _ => rfl)
  | st a o => exact congrArg Host.Outcome.next (memWrite_blankCond _ _ s)
  | str a b o => exact congrArg Host.Outcome.next (memWrite_blankCond _ _ s)
  | sti a o =>
    exact congrArg Host.Outcome.next (orIOError_blankCond (memRead_blankCond _ s) fun ea u =>
      memWrite_blankCond ea (readReg a u) u)
  | trap v g => exact execTrap_blankCond v g s
  | getc g => exact congrArg Host.Outcome.next (serviceGetc_blankCond g _ s)
  | out g => exact congrArg Host.Outcome.next (serviceOut_blankCond _ s)
  | puts g => exact servicePuts_blankCond _ s
  | inChar g => exact congrArg Host.Outcome.next (serviceIn_blankCond g _ s)
  | putsp g => exact servicePutsp_blankCond _ s
  | halt g => exact congrArg Host.Outcome.next (serviceHalt_blankCond _ s)

/-- Settles O9: both runs end like the one with the flags blanked. -/
theorem onlyBrReadsFlags : Obligations.OnlyBrReadsFlags :=
  fun _ s c hi => (exec_blankCond hi { s with cond := c }).symm.trans (exec_blankCond hi s)

end Sys2Proof.Machine
end

section
/-! PROOFS. MemRead and MemWrite by address (spec/20_memory.md R55, R56, R61, R64, R65, R75). -/
namespace Sys2Proof.Machine

variable {a : Word} {s : State}

/-! ### The device registers -/

theorem kbsrRead_fails (h : nextCallFails s = true) : kbsrRead s = .fail (callMade s) := by
  unfold kbsrRead
  rw [consoleReady_fails h]

/-- KBSR tells whether a character is pending, and leaves it pending (spec/20_memory.md R61). -/
theorem kbsrRead_answers (h : nextCallFails s = false) :
    kbsrRead s = .ok (if s.conIn = [] then 0x0000#16 else 0x8000#16) (callMade s) := by
  unfold kbsrRead
  rw [consoleReady_answers h]
  cases s.conIn <;> rfl

theorem kbdrRead_query_fails (h : nextCallFails s = true) : kbdrRead s = .fail (callMade s) := by
  unfold kbdrRead
  rw [consoleReady_fails h]

/-- KBDR with nothing pending answers the latch (spec/20_memory.md R65). -/
theorem kbdrRead_empty (h : nextCallFails s = false) (hc : s.conIn = []) :
    kbdrRead s = .ok s.kbdrLatch (callMade s) := by
  unfold kbdrRead
  rw [consoleReady_answers h, hc]
  rfl

/-- KBDR takes the pending character into the latch (spec/20_memory.md R64). -/
theorem kbdrRead_pending {c : Byte} {rest : List Byte} (h : nextCallFails s = false)
    (h' : nextCallFails (callMade s) = false) (hc : s.conIn = c :: rest) :
    kbdrRead s = .ok (zext8 c) { callMade (callMade s) with kbdrLatch := zext8 c, conIn := rest } := by
  unfold kbdrRead
  rw [consoleReady_answers h, hc]
  simp [consoleGet_pending h' hc]

/-- When the get fails after the query answered, the character stays pending (log 2). -/
theorem kbdrRead_get_fails (h : nextCallFails s = false) (h' : nextCallFails (callMade s) = true)
    (hc : s.conIn ≠ []) : kbdrRead s = .fail (callMade (callMade s)) := by
  unfold kbdrRead
  rw [consoleReady_answers h]
  simp [hc, consoleGet_fails h']

/-! ### MemRead -/

/-- With two device addresses that differ (spec/00_scope.md R6) KBDR is read at its own. -/
theorem memRead_at_kbdr_of_wf (hw : s.cfg.wf) (ha : a = s.cfg.kbdrAddr) : memRead a s = kbdrRead s :=
  memRead_at_kbdr (fun e => hw (e.symm.trans ha)) ha

theorem memRead_device_fails (hp : ¬ s.plain a) (h : nextCallFails s = true) :
    memRead a s = .fail (callMade s) := by
  by_cases hs : a = s.cfg.kbsrAddr
  · rw [memRead_at_kbsr hs, kbsrRead_fails h]
  · have hd : a = s.cfg.kbdrAddr := by_contra fun hd => hp ⟨hs, hd⟩
    rw [memRead_at_kbdr hs hd, kbdrRead_query_fails h]

/-- Settles O19: one lemma for each kind of address and each answer of the console. -/
theorem memReadAnswersByAddress : Obligations.MemReadAnswersByAddress := by
  intro a s
  refine ⟨memRead_at_plain, fun ha h => ?_, fun ha hw hc h => ?_, fun c rest ha hw hc h h' => ?_,
    memRead_device_fails, fun ha hw hc h h' => ?_⟩
  · exact (memRead_at_kbsr ha).trans (kbsrRead_answers h)
  · exact (memRead_at_kbdr_of_wf hw ha).trans (kbdrRead_empty h hc)
  · exact (memRead_at_kbdr_of_wf hw ha).trans (kbdrRead_pending h h' hc)
  · exact (memRead_at_kbdr_of_wf hw ha).trans (kbdrRead_get_fails h h' hc)

/-! ### MemWrite -/

theorem isDevice_eq_true : isDevice a s = true ↔ ¬ s.plain a := by
  rw [← isDevice_eq_false, Bool.not_eq_false]

/-- MemWrite moves no device address. -/
theorem memWrite_keeps_plain {b : Word} (h : s.plain b) (v : Word) : (memWrite a v s).plain b := by
  simpa [State.plain] using h

theorem memWrite_only_mem (a v : Word) (s : State) : memWrite a v s = { s with mem := (memWrite a v s).mem } := by
  unfold memWrite
  split <;> rfl

/-- A Word stored at a plain address reads back, when the memory is in its canonical form (log 8). -/
theorem memRead_memWrite_same (hm : s.mem.wf = true) (hp : s.plain a) (v : Word) :
    memRead a (memWrite a v s) = .ok v (memWrite a v s) := by
  rw [memRead_at_plain (memWrite_keeps_plain hp v), memWrite_read hm, if_pos ⟨isDevice_eq_false.mpr hp, rfl⟩]

/-- Settles O20: the laws of the memory array, with the stores that are discarded. -/
theorem memWriteReplacesOneWord : Obligations.MemWriteReplacesOneWord := by
  intro a v s hm
  refine ⟨fun hp => memRead_memWrite_same hm hp v, fun b hb => ?_, memWrite_only_mem a v s,
    fun hp => memWrite_device a v s (isDevice_eq_true.mpr hp)⟩
  rw [memWrite_read hm, if_neg fun h => hb h.2]

end Sys2Proof.Machine
end

section
/-! PROOFS. The step of a core that fetches at a plain address, and a store over the next instruction (spec/20_memory.md
R83). -/
namespace Sys2Proof.Machine

/-- A ST decodes from its own Word. -/
theorem decode_st (sr : RegIdx) (off9 : BitVec 9) : decode (0b0011#4 ++ sr ++ off9) = .st sr off9 := by
  have hw := encode_st sr off9
  have ho : (field (encode (.st sr off9)) 12 4).toNat = 3 := by rw [opcode_toNat, hw]; omega
  have hr : field (encode (.st sr off9)) 9 3 = sr := BitVec.eq_of_toNat_eq (by rw [field_toNat, hw]; omega)
  have hf : field (encode (.st sr off9)) 0 9 = off9 := BitVec.eq_of_toNat_eq (by rw [field_toNat, hw]; omega)
  change decode (encode (.st sr off9)) = _
  unfold decode
  rw [ho, hr, hf]
  rfl

/-- A step at a plain address executes the Word stored there, with `pc` incremented. -/
theorem step_at_plain {s : State} (h : s.willFetch) (hp : s.plain s.pc) :
    step s = exec (decode (s.mem.read s.pc.toNat)) (setPc (s.pc + 1#16) s) := by
  obtain ⟨hr, hh, hq⟩ := h
  simp [step, hr, hh, hq, fetch_at_plain hp]

/-- Settles O50: the store writes the Word that the second of two steps at plain addresses executes. -/
theorem storedWordIsTheNextInstruction : Obligations.StoredWordIsTheNextInstruction := by
  intro sr s hm hf hp hp1 hw
  obtain ⟨t, ht⟩ : ∃ t, t = memWrite (s.pc + 1#16) (readReg sr s) (setPc (s.pc + 1#16) s) := ⟨_, rfl⟩
  have hst : step s = .next t := by
    have hea : pcRel9 0#9 (setPc (s.pc + 1#16) s) = s.pc + 1#16 := BitVec.add_zero _
    rw [step_at_plain hf hp, hw, decode_st, ht, exec, execSt, hea, readReg_setPc]
  have hpc : t.pc = s.pc + 1#16 := by rw [ht, memWrite_pc, setPc_pc]
  have hft : t.willFetch := by simpa [ht, State.willFetch] using hf
  have hpt : t.plain t.pc := by rw [hpc, ht]; exact memWrite_keeps_plain (s := setPc (s.pc + 1#16) s) hp1 _
  have hnext : t.mem.read t.pc.toNat = readReg sr s := by
    rw [hpc, ht, memWrite_read (s := setPc (s.pc + 1#16) s) hm, if_pos ⟨isDevice_eq_false.mpr hp1, rfl⟩]
  refine ⟨t, hst, ?_⟩
  rw [step_at_plain hft hpt, hnext, hpc, BitVec.add_assoc]
  rfl

end Sys2Proof.Machine
end

section
/-! PROOFS. What a step does to the console's streams (spec/20_memory.md R70). -/
namespace Sys2Proof.Machine

/-- Output is appended, input taken from the head, and the parameters stay. -/
def consoleFlow (s t : State) : Prop :=
  (∃ written, t.conOut = s.conOut ++ written) ∧ (∃ taken, s.conIn = taken ++ t.conIn) ∧ t.cfg = s.cfg

variable {s t u : State}

theorem ConsoleOnly.consoleFlow (h : ConsoleOnly s t) : Machine.consoleFlow s t := ⟨h.out, h.taken, h.cfg⟩

/-- The streams flow alike in a state with the same streams and parameters. -/
theorem consoleFlow.congr (h : consoleFlow s u) (ho : t.conOut = u.conOut) (hi : t.conIn = u.conIn)
    (hc : t.cfg = u.cfg) : consoleFlow s t := by
  rwa [consoleFlow, ho, hi, hc]

theorem consoleFlow.trans (h : consoleFlow s t) (k : consoleFlow t u) : consoleFlow s u := by
  obtain ⟨⟨w, hw⟩, ⟨i, hi⟩, hc⟩ := h
  obtain ⟨⟨w', hw'⟩, ⟨i', hi'⟩, hc'⟩ := k
  exact ⟨⟨w ++ w', by rw [hw', hw, List.append_assoc]⟩, ⟨i ++ i', by rw [hi, hi', List.append_assoc]⟩, hc'.trans hc⟩

theorem consoleFlow.refl (s : State) : consoleFlow s s := ConsoleOnly.rfl.consoleFlow

/-- Every end of an instruction leaves the streams as the console calls before it do. -/
theorem exec_consoleFlow {i : Instr} (h : exec i s = .next t) : consoleFlow s t := by
  have linked (u : State) (hu : ConsoleOnly (linkR7 s) u) : consoleFlow s u := hu.consoleFlow
  cases exec_ends h with
  | result dr v u _ hu ht => exact ht ▸ hu.consoleFlow
  | store ea v u _ hu ht =>
    exact ht ▸ hu.consoleFlow.congr (memWrite_conOut ea v u) (memWrite_conIn ea v u) (memWrite_cfg ea v u)
  | jump target _ ht | link target _ _ ht => exact ht ▸ consoleFlow.refl s
  | trapDone u _ _ hu ht | trapHalt u _ _ hu ht | trapChar c u _ _ hu ht | held w u _ _ hu ht => exact ht ▸ linked u hu
  | fault k u hu _ ht => exact ht ▸ hu.elim (·.consoleFlow) (linked u)

theorem resumeHeld_consoleFlow {w : Held} (h : resumeHeld w s = .next t) : consoleFlow s t := by
  have linked (u : State) (hu : ConsoleOnly (linkR7 (setPc (s.pc + 1#16) s)) u) : consoleFlow s u := hu.consoleFlow
  rcases resumeHeld_cases w rfl with ⟨u, hu, e⟩ | ⟨u, hu, e⟩ | ⟨c, u, hu, e⟩ <;> rw [e] at h <;> cases h <;>
    exact linked u hu

/-- Settles O49, by the five cases of a step. -/
theorem outputIsAppendedAndInputTakenFromTheHead : Obligations.OutputIsAppendedAndInputTakenFromTheHead := by
  intro s t h
  change consoleFlow s t
  rcases step_cases s with ⟨_, e⟩ | ⟨w, _, _, e⟩ | ⟨_, _, _, e⟩ | ⟨u, _, hu, e⟩ | ⟨ir, u, _, hu, e⟩ <;> rw [e] at h
  · cases h; exact consoleFlow.refl s
  · exact resumeHeld_consoleFlow h
  · cases h; exact consoleFlow.refl s
  · cases h; exact (fetch_fail hu).consoleFlow
  · obtain ⟨v, _, rfl, hc⟩ := fetch_ok hu
    exact hc.consoleFlow.trans (t := setPc (s.pc + 1#16) v) (exec_consoleFlow h)

end Sys2Proof.Machine
end

section
/-! PROOFS. GETC and IN by what is pending: the wait, and its end by a character (spec/20_memory.md R72, spec/46_trap.md
R234, R240). -/
namespace Sys2Proof.Machine

variable {g : BitVec 4} {ir : Word} {c : Byte} {rest : List Byte} {s s0 : State}

theorem serviceGetc_waits (h : nextCallFails s = false) (hc : s.conIn = []) :
    serviceGetc g ir s = holdIn (.getc g) s (callMade (linkR7 s)) := by
  unfold serviceGetc
  rw [consoleGet_empty (s := linkR7 s) h hc, orIOError_ok]

theorem serviceGetc_takes (h : nextCallFails s = false) (hc : s.conIn = c :: rest) :
    serviceGetc g ir s = release (writeReg R0 (zext8 c) { callMade (linkR7 s) with conIn := rest }) := by
  unfold serviceGetc
  rw [consoleGet_pending (s := linkR7 s) h hc, orIOError_ok]

theorem serviceInWait_waits (h : nextCallFails s = false) (hc : s.conIn = []) :
    serviceInWait g ir s0 s = holdIn (.inChar g) s0 (callMade s) := by
  unfold serviceInWait
  rw [consoleGet_empty h hc, orIOError_ok]

/-- IN echoes the character it takes. -/
theorem serviceInWait_takes (h : nextCallFails s = false) (h' : nextCallFails (callMade s) = false)
    (hc : s.conIn = c :: rest) :
    serviceInWait g ir s0 s = release (writeReg R0 (zext8 c)
      { callMade (callMade s) with conIn := rest, conOut := s.conOut ++ [c] }) := by
  unfold serviceInWait
  rw [consoleGet_pending h hc, orIOError_ok]
  dsimp only
  rw [consolePut_answers (by exact h'), orIOError_ok]
  rfl

/-- IN's state once its prompt is written. -/
def prompted (s : State) : State :=
  { linkR7 s with conOut := s.conOut ++ s.cfg.inPrompt, conFails := s.conFails.drop s.cfg.inPrompt.length }

theorem prompted_consoleNeverFails (h : s.consoleNeverFails) : (prompted s).consoleNeverFails :=
  fun b hb => h b (List.mem_of_mem_drop hb)

theorem serviceIn_prompts (h : s.consoleNeverFails) : serviceIn g ir s = serviceInWait g ir s (prompted s) := by
  unfold serviceIn
  rw [consolePutAll_answers (s := linkR7 s) h, orIOError_ok]
  rfl

theorem exec_getc_waits (h : nextCallFails s = false) (hc : s.conIn = []) :
    exec (.getc g) s = .next (holdIn (.getc g) s (callMade (linkR7 s))) :=
  congrArg Host.Outcome.next (serviceGetc_waits h hc)

theorem exec_inChar_waits (h : s.consoleNeverFails) (hc : s.conIn = []) :
    exec (.inChar g) s = .next (holdIn (.inChar g) s (callMade (prompted s))) :=
  congrArg Host.Outcome.next
    ((serviceIn_prompts h).trans (serviceInWait_waits (prompted_consoleNeverFails h).next hc))

/-- Settles O41: what is held is the state before the fetch, with the console calls made. -/
theorem getcAndInAreHeldWithoutInput : Obligations.GetcAndInAreHeldWithoutInput := by
  intro g s hc h
  exact ⟨⟨_, exec_getc_waits h.next hc, rfl, rfl, fun _ _ => rfl, rfl, rfl, fun _ => rfl, rfl, hc, rfl, rfl, rfl, rfl⟩,
    ⟨_, exec_inChar_waits h hc, rfl, rfl, fun _ _ => rfl, rfl, rfl, fun _ => rfl, rfl, hc, rfl, rfl, rfl, rfl⟩⟩

theorem step_held {w : Held} (hr : s.run = .running) (hh : s.hold = some w) : step s = resumeHeld w s := by
  simp [step, hr, hh]

/-- A wait that goes on has asked the console and is back where it was. -/
theorem holdIn_refetched {w : Held} (hh : s.hold = some w) :
    holdIn w (setPc (s.pc + 1#16) s) (callMade (linkR7 (setPc (s.pc + 1#16) s))) = callMade s := by
  have hpc : fetchedFrom (setPc (s.pc + 1#16) s) = s.pc := BitVec.add_sub_cancel _ _
  unfold holdIn uncommitted
  rw [hpc, ← hh]
  rfl

/-- Settles O42: whichever instruction is held, the console has nothing for it. -/
theorem heldCoreWaits : Obligations.HeldCoreWaits := by
  intro w s hr hh hc h
  have resumed : resumeHeld w s =
      .next (holdIn w (setPc (s.pc + 1#16) s) (callMade (linkR7 (setPc (s.pc + 1#16) s)))) := by
    cases w with
    | getc g => exact congrArg Host.Outcome.next (serviceGetc_waits h hc)
    | inChar g => exact congrArg Host.Outcome.next (serviceInWait_waits h hc)
  rw [step_held hr hh, resumed, holdIn_refetched hh]
  rfl

/-! ### The end of the wait -/

theorem exec_getc_takes (h : nextCallFails s = false) (hc : s.conIn = c :: rest) :
    exec (.getc g) s = .next (release (writeReg R0 (zext8 c) { callMade (linkR7 s) with conIn := rest })) :=
  congrArg Host.Outcome.next (serviceGetc_takes h hc)

theorem exec_inChar_takes (h : s.consoleNeverFails) (hc : s.conIn = c :: rest) :
    exec (.inChar g) s = .next (release (writeReg R0 (zext8 c)
      { callMade (callMade (prompted s)) with conIn := rest, conOut := (prompted s).conOut ++ [c] })) :=
  have hp := prompted_consoleNeverFails h
  congrArg Host.Outcome.next ((serviceIn_prompts h).trans (serviceInWait_takes hp.next hp.callMade.next hc))

theorem consoleNeverFails_of_nil (hf : s.conFails = []) : s.consoleNeverFails := by
  simp [State.consoleNeverFails, hf]

/-- With no answer decided ahead a console call uses none up. -/
theorem callMade_of_nil (hf : s.conFails = []) : callMade s = s := by
  rw [callMade, hf, List.tail_nil, ← hf]

/-- The state after the fetch, back from a held state: what the console calls left of it, held. -/
theorem holdIn_deliver_refetched (w : Held) (c : Byte) (s u : State) :
    setPc ((deliverInput c (holdIn w s u)).pc + 1#16) (deliverInput c (holdIn w s u)) =
      deliverInput c { u with regs := s.regs, pc := s.pc, cond := s.cond, mem := s.mem, hold := some w } := by
  have hpc : fetchedFrom s + 1#16 = s.pc := BitVec.sub_add_cancel _ _
  simp only [deliverInput_pc, holdIn_pc, hpc]
  rfl

theorem step_deliver_holdIn {u : State} (w : Held) (hr : u.run = .running) :
    step (deliverInput c (holdIn w s u)) = resumeHeld w (deliverInput c (holdIn w s u)) := step_held hr rfl

/-- A held GETC whose character is delivered does what GETC does with the character pending: the two states differ in
`hold` alone, which `release` clears. -/
theorem getc_resumes (hr : s.run = .running) (hc : s.conIn = []) (hf : s.conFails = []) :
    step (deliverInput c (holdIn (.getc g) s (callMade (linkR7 s)))) = exec (.getc g) (deliverInput c s) := by
  have hn := (consoleNeverFails_of_nil hf).next
  have hd : s.conIn ++ [c] = [c] := by rw [hc, List.nil_append]
  rw [callMade_of_nil (s := linkR7 s) hf, exec_getc_takes (s := deliverInput c s) hn hd,
    step_deliver_holdIn (u := linkR7 s) (.getc g) hr, resumeHeld, holdIn_deliver_refetched,
    serviceGetc_takes (c := c) (rest := []) (by exact hn) (by exact hd)]
  simp only [release, writeReg, linkR7, callMade, deliverInput]

/-- So does a held IN, which does not write its prompt again. -/
theorem inChar_resumes (hr : s.run = .running) (hc : s.conIn = []) (hf : s.conFails = []) :
    step (deliverInput c (holdIn (.inChar g) s (callMade (prompted s)))) = exec (.inChar g) (deliverInput c s) := by
  have hn := consoleNeverFails_of_nil hf
  have hp := prompted_consoleNeverFails hn
  have hd : s.conIn ++ [c] = [c] := by rw [hc, List.nil_append]
  have hpf : (prompted s).conFails = [] := by simp [prompted, hf]
  rw [callMade_of_nil hpf, exec_inChar_takes (s := deliverInput c s) hn hd,
    step_deliver_holdIn (u := prompted s) (.inChar g) hr, resumeHeld, holdIn_deliver_refetched,
    serviceInWait_takes (c := c) (rest := []) (by exact hp.next) (by exact hp.callMade.next) (by exact hd)]
  simp only [release, writeReg, linkR7, callMade, deliverInput, prompted]

/-- Settles O43: taking the character lifts the hold. -/
theorem deliveryEndsTheHold : Obligations.DeliveryEndsTheHold := by
  intro g c i s hi hr _ hc hf
  have hn := consoleNeverFails_of_nil hf
  have hd : (deliverInput c s).conIn = [c] := by rw [deliverInput_conIn, hc, List.nil_append]
  have hR0 (u : State) : readReg R0 (release (writeReg R0 (zext8 c) u)) = zext8 c := by simp
  rcases hi with rfl | rfl
  · exact ⟨_, exec_getc_waits hn.next hc, by simp, getc_resumes hr hc hf, _,
      exec_getc_takes (s := deliverInput c s) hn.next hd, rfl, hR0 _⟩
  · exact ⟨_, exec_inChar_waits hn hc, by simp, inChar_resumes hr hc hf, _,
      exec_inChar_takes (s := deliverInput c s) hn hd, rfl, hR0 _⟩

end Sys2Proof.Machine
end

section
/-! PROOFS. The decoder and the encoder are inverse (spec/30_encoding.md R91, R98, R100, R101): the fields of a Word
of each format, one format at a time, then every instruction and every Word. -/
namespace Sys2Proof

variable {w : Word} {op : Nat} {d a b : RegIdx}

/-! ### The fields of a Word of each format (R91) -/

theorem field_of_toNat {lo len : Nat} {f : BitVec len} (h : w.toNat / 2 ^ lo % 2 ^ len = f.toNat) :
    field w lo len = f :=
  BitVec.eq_of_toNat_eq ((field_toNat w lo len).trans h)

theorem bit_toNat (w : Word) (i : Nat) : (bit w i).toNat = w.toNat / 2 ^ i % 2 := Nat.toNat_testBit _ _

theorem bit_of_toNat {i : Nat} {c : Bool} (h : w.toNat / 2 ^ i % 2 = c.toNat) : bit w i = c := by
  rw [bit_eq, h]
  cases c <;> rfl

theorem fields_1_1_1_9 {n z p : Bool} {o : BitVec 9}
    (h : w.toNat = n.toNat * 2048 + z.toNat * 1024 + p.toNat * 512 + o.toNat) :
    (field w 12 4).toNat = 0 ∧ bit w 11 = n ∧ bit w 10 = z ∧ bit w 9 = p ∧ field w 0 9 = o := by
  have hn := n.toNat_le
  have hz := z.toNat_le
  have hp := p.toNat_le
  exact ⟨by rw [opcode_toNat]; omega, bit_of_toNat (by omega), bit_of_toNat (by omega), bit_of_toNat (by omega),
    field_of_toNat (by omega)⟩

theorem fields_3_9 {o : BitVec 9} (h : w.toNat = op * 4096 + a.toNat * 512 + o.toNat) :
    (field w 12 4).toNat = op ∧ field w 9 3 = a ∧ field w 0 9 = o :=
  ⟨by rw [opcode_toNat]; omega, field_of_toNat (by omega), field_of_toNat (by omega)⟩

theorem fields_3_3_6 {k : BitVec 6} (h : w.toNat = op * 4096 + a.toNat * 512 + b.toNat * 64 + k.toNat) :
    (field w 12 4).toNat = op ∧ field w 9 3 = a ∧ field w 6 3 = b ∧ field w 0 6 = k :=
  ⟨by rw [opcode_toNat]; omega, field_of_toNat (by omega), field_of_toNat (by omega), field_of_toNat (by omega)⟩

theorem fields_12 {g : BitVec 12} (h : w.toNat = op * 4096 + g.toNat) :
    (field w 12 4).toNat = op ∧ field w 0 12 = g :=
  ⟨by rw [opcode_toNat]; omega, field_of_toNat (by omega)⟩

theorem fields_4_8 {g : BitVec 4} {v : BitVec 8} (h : w.toNat = op * 4096 + g.toNat * 256 + v.toNat) :
    (field w 12 4).toNat = op ∧ field w 8 4 = g ∧ field w 0 8 = v :=
  ⟨by rw [opcode_toNat]; omega, field_of_toNat (by omega), field_of_toNat (by omega)⟩

/-! ### Decoding a Word of each format -/

section
variable {reg : RegIdx → RegIdx → RegIdx → BitVec 2 → Instr} {imm : RegIdx → RegIdx → BitVec 5 → Instr}

/-- Bit 5 clear: the register form (R98). -/
theorem decodeOperate_register {g : BitVec 2}
    (h : w.toNat = op * 4096 + d.toNat * 512 + a.toNat * 64 + g.toNat * 8 + b.toNat) :
    (field w 12 4).toNat = op ∧ decodeOperate reg imm w = reg d a b g := by
  refine ⟨by rw [opcode_toNat]; omega, ?_⟩
  have hbit : ¬ bit w 5 = true := by rw [bit_eq, decide_eq_true_iff]; omega
  rw [decodeOperate, if_neg hbit, field_of_toNat (f := d) (by omega), field_of_toNat (f := a) (by omega),
    field_of_toNat (f := b) (by omega), field_of_toNat (f := g) (by omega)]

/-- Bit 5 set: the immediate form (R98). -/
theorem decodeOperate_immediate {i : BitVec 5}
    (h : w.toNat = op * 4096 + d.toNat * 512 + a.toNat * 64 + 32 + i.toNat) :
    (field w 12 4).toNat = op ∧ decodeOperate reg imm w = imm d a i := by
  refine ⟨by rw [opcode_toNat]; omega, ?_⟩
  have hbit : bit w 5 = true := by rw [bit_eq, decide_eq_true_iff]; omega
  rw [decodeOperate, if_pos hbit, field_of_toNat (f := d) (by omega), field_of_toNat (f := a) (by omega),
    field_of_toNat (f := i) (by omega)]

/-- An operate Word is the Word of either form's decoding, when the forms have the layouts of R91. -/
theorem encode_decodeOperate
    (hreg : ∀ d a b g, (encode (reg d a b g)).toNat =
      op * 4096 + d.toNat * 512 + a.toNat * 64 + g.toNat * 8 + b.toNat)
    (himm : ∀ d a i, (encode (imm d a i)).toNat = op * 4096 + d.toNat * 512 + a.toNat * 64 + 32 + i.toNat)
    (h : w.toNat / 4096 = op) : encode (decodeOperate reg imm w) = w := by
  apply BitVec.eq_of_toNat_eq
  unfold decodeOperate
  split <;> rename_i hbit <;> rw [bit_eq, decide_eq_true_iff] at hbit
  · simp only [himm, field_toNat]; omega
  · simp only [hreg, field_toNat]; omega

end

theorem decodeJump_jsr {o : BitVec 11} (h : w.toNat = 4 * 4096 + 2048 + o.toNat) :
    (field w 12 4).toNat = 4 ∧ decodeJump w = .jsr o := by
  refine ⟨by rw [opcode_toNat]; omega, ?_⟩
  have hbit : bit w 11 = true := by rw [bit_eq, decide_eq_true_iff]; omega
  rw [decodeJump, if_pos hbit, field_of_toNat (f := o) (by omega)]

theorem decodeJump_jsrr {g : BitVec 2} {k : BitVec 6}
    (h : w.toNat = 4 * 4096 + g.toNat * 512 + b.toNat * 64 + k.toNat) :
    (field w 12 4).toNat = 4 ∧ decodeJump w = .jsrr b g k := by
  refine ⟨by rw [opcode_toNat]; omega, ?_⟩
  have hbit : ¬ bit w 11 = true := by rw [bit_eq, decide_eq_true_iff]; omega
  rw [decodeJump, if_neg hbit, field_of_toNat (f := b) (by omega), field_of_toNat (f := g) (by omega),
    field_of_toNat (f := k) (by omega)]

theorem encode_decodeJump (h : w.toNat / 4096 = 4) : encode (decodeJump w) = w := by
  apply BitVec.eq_of_toNat_eq
  unfold decodeJump
  split <;> rename_i hbit <;> rw [bit_eq, decide_eq_true_iff] at hbit
  · simp only [encode_jsr, field_toNat]; omega
  · simp only [encode_jsrr, field_toNat]; omega

/-- A vector that selects no service decodes to the general row (spec/46_trap.md R231). -/
theorem decodeTrap_general (h : isServiceVector (field w 0 8) = false) :
    decodeTrap w = .trap (field w 0 8) (field w 8 4) := by
  simp only [isServiceVector, decide_eq_false_iff_not] at h
  unfold decodeTrap
  split
  case h_7 => rfl
  all_goals omega

/-- The Word of a trap row, from the row's vector. -/
theorem encode_decodeTrap (h : w.toNat / 4096 = 15) : encode (decodeTrap w) = w := by
  apply BitVec.eq_of_toNat_eq
  unfold decodeTrap
  split <;> rename_i hv <;> simp only [field_toNat] at hv
  · simp only [encode_getc, field_toNat]; omega
  · simp only [encode_out, field_toNat]; omega
  · simp only [encode_puts, field_toNat]; omega
  · simp only [encode_inChar, field_toNat]; omega
  · simp only [encode_putsp, field_toNat]; omega
  · simp only [encode_halt, field_toNat]; omega
  · simp only [encode_trap, field_toNat]; omega

/-- The one check of `Instr.wf` (R108). -/
theorem trap_wellFormed {v : BitVec 8} {g : BitVec 4} :
    (Instr.trap v g).WellFormed ↔ isServiceVector v = false := by
  simp [Instr.WellFormed, Instr.wf]

/-- No vector of a service row reaches the general row (R108). -/
theorem decodeTrap_wf (w : Word) : (decodeTrap w).WellFormed := by
  cases h : isServiceVector (field w 0 8) with
  | true =>
    obtain ⟨hlo, hhi⟩ := of_decide_eq_true h
    unfold decodeTrap
    interval_cases (field w 0 8).toNat <;> rfl
  | false => rw [decodeTrap_general h]; exact trap_wellFormed.mpr h

/-- A Word whose low byte the trap decoder reads as `i` decodes to `i`, ignored bits included. -/
theorem decode_encode_trap_row {i : BitVec 4 → Instr} {v : BitVec 8} {g : BitVec 4}
    (hv : ∀ w, field w 0 8 = v → decodeTrap w = i (field w 8 4))
    (he : (encode (i g)).toNat = 15 * 4096 + g.toNat * 256 + v.toNat) : decode (encode (i g)) = i g := by
  obtain ⟨hop, hg, hf⟩ := fields_4_8 he
  simp only [decode, hop, hv _ hf, hg]

/-! ### Both directions (R101) -/

/-- Decoding the Word of a well-formed instruction gives the instruction back. -/
theorem decode_encode {i : Instr} (hi : i.WellFormed) : decode (encode i) = i := by
  cases i with
  | br n z p o =>
    obtain ⟨hop, hn, hz, hp, ho⟩ := fields_1_1_1_9 (encode_br n z p o)
    simp only [decode, hop, hn, hz, hp, ho]
  | ld a o => obtain ⟨hop, ha, ho⟩ := fields_3_9 (encode_ld a o); simp only [decode, hop, ha, ho]
  | st a o => obtain ⟨hop, ha, ho⟩ := fields_3_9 (encode_st a o); simp only [decode, hop, ha, ho]
  | ldi a o => obtain ⟨hop, ha, ho⟩ := fields_3_9 (encode_ldi a o); simp only [decode, hop, ha, ho]
  | sti a o => obtain ⟨hop, ha, ho⟩ := fields_3_9 (encode_sti a o); simp only [decode, hop, ha, ho]
  | lea a o => obtain ⟨hop, ha, ho⟩ := fields_3_9 (encode_lea a o); simp only [decode, hop, ha, ho]
  | ldr a b k => obtain ⟨hop, ha, hb, hk⟩ := fields_3_3_6 (encode_ldr a b k); simp only [decode, hop, ha, hb, hk]
  | str a b k => obtain ⟨hop, ha, hb, hk⟩ := fields_3_3_6 (encode_str a b k); simp only [decode, hop, ha, hb, hk]
  | not a b k => obtain ⟨hop, ha, hb, hk⟩ := fields_3_3_6 (encode_not a b k); simp only [decode, hop, ha, hb, hk]
  | jmp b g k => obtain ⟨hop, hg, hb, hk⟩ := fields_3_3_6 (encode_jmp b g k); simp only [decode, hop, hg, hb, hk]
  | rti g => obtain ⟨hop, hg⟩ := fields_12 (encode_rti g); simp only [decode, hop, hg]
  | reserved g => obtain ⟨hop, hg⟩ := fields_12 (encode_reserved g); simp only [decode, hop, hg]
  | addReg d a b g =>
    obtain ⟨hop, hd⟩ := decodeOperate_register (reg := .addReg) (imm := .addImm) (encode_addReg d a b g)
    simp only [decode, hop, hd]
  | addImm d a k =>
    obtain ⟨hop, hd⟩ := decodeOperate_immediate (reg := .addReg) (imm := .addImm) (encode_addImm d a k)
    simp only [decode, hop, hd]
  | andReg d a b g =>
    obtain ⟨hop, hd⟩ := decodeOperate_register (reg := .andReg) (imm := .andImm) (encode_andReg d a b g)
    simp only [decode, hop, hd]
  | andImm d a k =>
    obtain ⟨hop, hd⟩ := decodeOperate_immediate (reg := .andReg) (imm := .andImm) (encode_andImm d a k)
    simp only [decode, hop, hd]
  | jsr o => obtain ⟨hop, hd⟩ := decodeJump_jsr (encode_jsr o); simp only [decode, hop, hd]
  | jsrr b g k => obtain ⟨hop, hd⟩ := decodeJump_jsrr (encode_jsrr b g k); simp only [decode, hop, hd]
  | trap v g =>
    refine decode_encode_trap_row (i := .trap v) (fun w h => ?_) (encode_trap v g)
    rw [decodeTrap_general (h ▸ trap_wellFormed.mp hi), h]
  | getc g => exact decode_encode_trap_row (fun w h => by simp [decodeTrap, h]) (encode_trap 0x20 g)
  | out g => exact decode_encode_trap_row (fun w h => by simp [decodeTrap, h]) (encode_trap 0x21 g)
  | puts g => exact decode_encode_trap_row (fun w h => by simp [decodeTrap, h]) (encode_trap 0x22 g)
  | inChar g => exact decode_encode_trap_row (fun w h => by simp [decodeTrap, h]) (encode_trap 0x23 g)
  | putsp g => exact decode_encode_trap_row (fun w h => by simp [decodeTrap, h]) (encode_trap 0x24 g)
  | halt g => exact decode_encode_trap_row (fun w h => by simp [decodeTrap, h]) (encode_trap 0x25 g)

/-- Encoding what a Word decodes to gives the Word back. -/
theorem encode_decode (w : Word) : encode (decode w) = w := by
  have hop := opcode_toNat w
  unfold decode
  split <;> rename_i h
  case h_16 =>
    simp only [imp_false] at *
    exact encode_decodeTrap (by omega)
  case h_2 => exact encode_decodeOperate encode_addReg encode_addImm (hop.symm.trans h)
  case h_6 => exact encode_decodeOperate encode_andReg encode_andImm (hop.symm.trans h)
  case h_5 => exact encode_decodeJump (hop.symm.trans h)
  all_goals apply BitVec.eq_of_toNat_eq; rw [hop] at h
  · simp only [encode_br, bit_toNat, field_toNat]; omega
  · simp only [encode_ld, field_toNat]; omega
  · simp only [encode_st, field_toNat]; omega
  · simp only [encode_ldr, field_toNat]; omega
  · simp only [encode_str, field_toNat]; omega
  · simp only [encode_rti, field_toNat]; omega
  · simp only [encode_not, field_toNat]; omega
  · simp only [encode_ldi, field_toNat]; omega
  · simp only [encode_sti, field_toNat]; omega
  · simp only [encode_jmp, field_toNat]; omega
  · simp only [encode_reserved, field_toNat]; omega
  · simp only [encode_lea, field_toNat]; omega

/-- Every Word decodes to a well-formed instruction. -/
theorem decode_wf (w : Word) : (decode w).WellFormed := by
  unfold decode
  split
  case h_2 | h_6 => unfold decodeOperate; split <;> rfl
  case h_5 => unfold decodeJump; split <;> rfl
  case h_16 => exact decodeTrap_wf w
  all_goals rfl

/-- Settles O2: the fields of the encoder's Word are the operands, and its opcode and form bits select the row. -/
theorem decodeInvertsEncode : Obligations.DecodeInvertsEncode := fun _ => decode_encode

/-- Settles O3: the fields a row decodes cover the Word, and the general TRAP row gets no service vector. -/
theorem encodeInvertsDecode : Obligations.EncodeInvertsDecode := fun w => ⟨encode_decode w, decode_wf w⟩

/-- Settles O5: the sixteen Words, each decoded by evaluation. -/
theorem spelledWordsDecodeAsStated : Obligations.SpelledWordsDecodeAsStated := by
  unfold Obligations.SpelledWordsDecodeAsStated
  decide

end Sys2Proof
end

section
/-! PROOFS. The rows of the instruction table (spec/30_encoding.md R108). -/
namespace Sys2Proof

open Laws

/-- Every instruction's Word lies in its row. -/
theorem encode_and_rowMask (i : Instr) : encode i &&& i.rowMask = i.rowMatch := by
  cases i with
  | br n z p o => exact TableRow.br n z p o
  | addReg d a b g => exact TableRow.addReg d a b g
  | addImm d a k => exact TableRow.addImm d a k
  | ld d o => exact TableRow.ld d o
  | st a o => exact TableRow.st a o
  | jsrr b g k => exact TableRow.jsrr b g k
  | jsr o => exact TableRow.jsr o
  | andReg d a b g => exact TableRow.andReg d a b g
  | andImm d a k => exact TableRow.andImm d a k
  | ldr d b o => exact TableRow.ldr d b o
  | str a b o => exact TableRow.str a b o
  | rti g => exact TableRow.rti g
  | not d a k => exact TableRow.not d a k
  | ldi d o => exact TableRow.ldi d o
  | sti a o => exact TableRow.sti a o
  | jmp b g k => exact TableRow.jmp b g k
  | reserved g => exact TableRow.reserved g
  | lea d o => exact TableRow.lea d o
  | trap v g => exact TableRow.trap v g
  | getc g => exact TableRow.getc g
  | out g => exact TableRow.out g
  | puts g => exact TableRow.puts g
  | inChar g => exact TableRow.inChar g
  | putsp g => exact TableRow.putsp g
  | halt g => exact TableRow.halt g

/-- A row of the table: `mask` and `match`. -/
abbrev Row := Word × Word

def Instr.row (i : Instr) : Row := (i.rowMask, i.rowMatch)

/-- The general TRAP row. -/
def trapRow : Row := (0xF000#16, 0xF000#16)

/-- The 25 rows of spec/opcode_table.json, in its order. -/
def tableRows : List Row :=
  [(0xF000, 0x0000), (0xF020, 0x1000), (0xF020, 0x1020), (0xF000, 0x2000), (0xF000, 0x3000), (0xF800, 0x4000),
    (0xF800, 0x4800), (0xF020, 0x5000), (0xF020, 0x5020), (0xF000, 0x6000), (0xF000, 0x7000), (0xF000, 0x8000),
    (0xF000, 0x9000), (0xF000, 0xA000), (0xF000, 0xB000), (0xF000, 0xC000), (0xF000, 0xD000), (0xF000, 0xE000), trapRow,
    (0xF0FF, 0xF020), (0xF0FF, 0xF021), (0xF0FF, 0xF022), (0xF0FF, 0xF023), (0xF0FF, 0xF024), (0xF0FF, 0xF025)]

theorem Instr.row_mem_tableRows (i : Instr) : i.row ∈ tableRows := by
  cases i <;> simp [row, rowMask, rowMatch, tableRows, trapRow]

/-- A row that refines the general TRAP row: one of the six services'. -/
def Row.isService (r : Row) : Bool := r.1 == 0xF0FF#16 && isServiceVector (field r.2 0 8)

theorem Row.isService_iff {r : Row} :
    r.isService = true ↔ r.1 = 0xF0FF#16 ∧ isServiceVector (field r.2 0 8) = true := by
  simp [Row.isService]

/-- Two rows that agree on the bits both look at are the same row, or the general TRAP row and a service's. -/
theorem tableRows_overlap {r q : Row} (hr : r ∈ tableRows) (hq : q ∈ tableRows) (h : r.2 &&& q.1 = q.2 &&& r.1) :
    r = q ∨ (r = trapRow ∧ q.isService) ∨ (q = trapRow ∧ r.isService) := by
  have hall : (tableRows.all fun r => tableRows.all fun q => decide (r.2 &&& q.1 = q.2 &&& r.1 →
      r = q ∨ (r = trapRow ∧ q.isService) ∨ (q = trapRow ∧ r.isService))) = true := by decide
  exact of_decide_eq_true (List.all_eq_true.mp (List.all_eq_true.mp hall r hr) q hq) h

/-- A Word in both rows makes them agree there. -/
theorem rows_agree {w m k m' k' : Word} (h : w &&& m = k) (h' : w &&& m' = k') : k &&& m' = k' &&& m := by
  rw [← h, ← h', BitVec.and_assoc, BitVec.and_assoc, BitVec.and_comm m]

/-- Only the general TRAP instruction has the general TRAP row. -/
theorem eq_trap_of_row {i : Instr} (h : i.row = trapRow) : ∃ v g, i = .trap v g := by
  cases i with
  | trap v g => exact ⟨v, g, rfl⟩
  | _ => simp [Instr.row, Instr.rowMask, Instr.rowMatch, trapRow] at h

/-- Where a mask keeps a field, the field is the match's. -/
theorem field_of_masked {w m k : Word} {lo len : Nat} (h : w &&& m = k) (hm : field m lo len = BitVec.allOnes len) :
    field w lo len = field k lo len := by
  calc field w lo len
    _ = field w lo len &&& field m lo len := by rw [hm, BitVec.and_allOnes]
    _ = field k lo len := by rw [← h]; exact (BitVec.extractLsb'_and ..).symm

/-- A Word in a service's row decodes to no instruction of the general TRAP row. -/
theorem decode_row_ne_trapRow {w : Word} {r : Row} (hw : w &&& r.1 = r.2) (hr : r.isService = true) :
    (decode w).row ≠ trapRow := by
  intro h
  obtain ⟨v, g, hd⟩ := eq_trap_of_row h
  obtain ⟨hm, hs⟩ := Row.isService_iff.mp hr
  have hv : field w 0 8 = v := by
    have he := encode_trap v g
    rw [← hd, encode_decode] at he
    exact (fields_4_8 he).2.2
  have hf : field w 0 8 = field r.2 0 8 := field_of_masked hw (by rw [hm]; decide)
  have hwf := decode_wf w
  rw [hd, trap_wellFormed, ← hv, hf, hs] at hwf
  cases hwf

/-- Settles O4: a Word lies in its instruction's row because its instruction's Word does; two rows it lies in overlap,
and only a service's row overlaps another. -/
theorem decoderTakesTheRowWithMostMaskBits : Obligations.DecoderTakesTheRowWithMostMaskBits := by
  intro w
  have hw : w &&& (decode w).rowMask = (decode w).rowMatch := by
    simpa [encode_decode] using encode_and_rowMask (decode w)
  refine ⟨hw, fun i _ hi => ?_⟩
  have ho := tableRows_overlap i.row_mem_tableRows (decode w).row_mem_tableRows (rows_agree hi hw)
  rcases ho with h | ⟨h, hs⟩ | ⟨h, hs⟩
  · exact .inl (Prod.mk.inj h)
  · exact .inr ⟨congrArg Prod.fst h, congrArg Prod.snd h, (Row.isService_iff.mp hs).1⟩
  · exact absurd h (decode_row_ne_trapRow hi hs)

end Sys2Proof
end

section
/-! PROOFS. The ignored bits of an instruction Word (spec/30_encoding.md R102): they reach the state in the fault
record and in `hold` alone, where `blankIgnored` blanks them. -/
namespace Sys2Proof.Machine

variable {i : Instr} {s : State}

theorem canonical_canonical (i : Instr) : i.canonical.canonical = i.canonical := by
  cases i <;> rfl

theorem canonical_wellFormed (hi : i.WellFormed) : i.canonical.WellFormed := by
  cases i with
  | trap v g => exact trap_wellFormed.mpr (trap_wellFormed.mp hi)
  | _ => rfl

/-- The Word of an instruction and the assembler's Word for it differ in ignored bits only. -/
theorem decode_encode_canonical (hi : i.WellFormed) :
    (decode (encode i)).canonical = (decode (encode i.canonical)).canonical := by
  rw [decode_encode hi, decode_encode (canonical_wellFormed hi), canonical_canonical]

theorem raiseFault_blankIgnored (hi : i.WellFormed) (k : FaultKind) (pc0 : Word) (s u : State) :
    blankIgnored (raiseFault k pc0 (encode i) s u) = blankIgnored (raiseFault k pc0 (encode i.canonical) s u) := by
  simp only [blankIgnored, raiseFault, decode_encode_canonical hi]

/-- A console answer ends alike when what follows it does: a failure records the instruction's Word. -/
theorem orIOError_blankIgnored {α : Type} {r : Con α} {k k' : α → State → State} (hi : i.WellFormed)
    (hk : ∀ a u, blankIgnored (k a u) = blankIgnored (k' a u)) :
    blankIgnored (orIOError (encode i) s r k) = blankIgnored (orIOError (encode i.canonical) s r k') := by
  cases r with
  | fail u => exact raiseFault_blankIgnored hi .ioError (fetchedFrom s) s u
  | ok a u => exact hk a u

theorem endScan_blankIgnored (hi : i.WellFormed) (r : Scan) :
    mapNext blankIgnored (endScan (encode i) s r) = mapNext blankIgnored (endScan (encode i.canonical) s r) := by
  cases r with
  | fail u => exact congrArg Host.Outcome.next (raiseFault_blankIgnored hi .ioError (fetchedFrom s) s u)
  | done | endless => rfl

/-! ### The services -/

theorem execGetc_blankIgnored (g : BitVec 4) (s : State) :
    mapNext blankIgnored (execGetc g s) = mapNext blankIgnored (execGetc 0 s) :=
  congrArg Host.Outcome.next <| orIOError_blankIgnored (i := .getc g) rfl fun c _ => by cases c <;> rfl

theorem execInChar_blankIgnored (g : BitVec 4) (s : State) :
    mapNext blankIgnored (execInChar g s) = mapNext blankIgnored (execInChar 0 s) :=
  congrArg Host.Outcome.next <| orIOError_blankIgnored (i := .inChar g) rfl fun _ _ =>
    orIOError_blankIgnored (i := .inChar g) rfl fun c _ => by
      cases c with
      | none => rfl
      | some c => exact orIOError_blankIgnored (i := .inChar g) rfl fun _ _ => rfl

theorem execOut_blankIgnored (g : BitVec 4) (s : State) :
    mapNext blankIgnored (execOut g s) = mapNext blankIgnored (execOut 0 s) :=
  congrArg Host.Outcome.next <| orIOError_blankIgnored (i := .out g) rfl fun _ _ => rfl

theorem execHalt_blankIgnored (g : BitVec 4) (s : State) :
    mapNext blankIgnored (execHalt g s) = mapNext blankIgnored (execHalt 0 s) :=
  congrArg Host.Outcome.next <| orIOError_blankIgnored (i := .halt g) rfl fun _ _ => rfl

theorem execPuts_blankIgnored (g : BitVec 4) (s : State) :
    mapNext blankIgnored (execPuts g s) = mapNext blankIgnored (execPuts 0 s) :=
  endScan_blankIgnored (i := .puts g) rfl _

theorem execPutsp_blankIgnored (g : BitVec 4) (s : State) :
    mapNext blankIgnored (execPutsp g s) = mapNext blankIgnored (execPutsp 0 s) :=
  endScan_blankIgnored (i := .putsp g) rfl _

/-- The general TRAP row is one of the six services, or a fault that records a well-formed instruction's Word. -/
theorem execTrap_blankIgnored (v : BitVec 8) (g : BitVec 4) (s : State) :
    mapNext blankIgnored (execTrap v g s) = mapNext blankIgnored (execTrap v 0 s) := by
  unfold execTrap
  split
  · exact execGetc_blankIgnored g s
  · exact execOut_blankIgnored g s
  · exact execPuts_blankIgnored g s
  · exact execInChar_blankIgnored g s
  · exact execPutsp_blankIgnored g s
  · exact execHalt_blankIgnored g s
  · have hv : isServiceVector v = false := by
      simp only [imp_false] at *
      exact decide_eq_false (by omega)
    exact congrArg Host.Outcome.next
      (raiseFault_blankIgnored (i := .trap v g) (trap_wellFormed.mpr hv) .illegalTrap (fetchedFrom s) s s)

/-- Settles O6: only a raised fault and a hold see the ignored bits, and `blankIgnored` blanks both. -/
theorem ignoredBitsChangeNoEffect : Obligations.IgnoredBitsChangeNoEffect := by
  intro i s
  cases i with
  | rti g => exact congrArg Host.Outcome.next (raiseFault_blankIgnored (i := .rti g) rfl _ _ s s)
  | reserved g => exact congrArg Host.Outcome.next (raiseFault_blankIgnored (i := .reserved g) rfl _ _ s s)
  | trap v g => exact execTrap_blankIgnored v g s
  | getc g => exact execGetc_blankIgnored g s
  | out g => exact execOut_blankIgnored g s
  | puts g => exact execPuts_blankIgnored g s
  | inChar g => exact execInChar_blankIgnored g s
  | putsp g => exact execPutsp_blankIgnored g s
  | halt g => exact execHalt_blankIgnored g s
  | addReg | andReg | not | jsrr | jmp => rfl
  | br | addImm | andImm | ld | ldi | ldr | lea | st | sti | str | jsr => rfl

end Sys2Proof.Machine
end

section
/-! PROOFS. Every scan of PUTS and PUTSP ends (log 9): how far a scan from `a` can still go, in Words, gets smaller with
each nonzero Word it reads, because it meets KBDR, which takes a character, and KBSR, which reads 0x0000 once none is
pending (spec/20_memory.md R61, R64). -/
namespace Sys2Proof.Machine

variable {a w : Word} {s t u : State}

/-- KBSR reads a nonzero Word only while a character is pending (R61). -/
theorem memRead_kbsr_pending (ha : a = s.cfg.kbsrAddr) (h : memRead a s = .ok w u) (hz : w ≠ 0) : s.conIn ≠ [] := by
  intro hc
  rw [memRead_at_kbsr ha] at h
  cases hn : nextCallFails s with
  | true => simp [kbsrRead_fails hn] at h
  | false =>
    rw [kbsrRead_answers hn, if_pos hc] at h
    cases h
    exact hz rfl

/-- KBDR takes a character when one is pending (R64). -/
theorem memRead_kbdr_takes (hw : s.cfg.wf) (ha : a = s.cfg.kbdrAddr) (h : memRead a s = .ok w u) :
    u.conIn.length ≤ s.conIn.length - 1 := by
  rw [memRead_at_kbdr_of_wf hw ha] at h
  cases hn : nextCallFails s with
  | true => simp [kbdrRead_query_fails hn] at h
  | false =>
    cases hc : s.conIn with
    | nil =>
      rw [kbdrRead_empty hn hc] at h
      cases h
      simp [hc]
    | cons c rest =>
      cases hn' : nextCallFails (callMade s) with
      | true => simp [kbdrRead_get_fails hn hn' (by simp [hc])] at h
      | false =>
        rw [kbdrRead_pending hn hn' hc] at h
        cases h
        simp

/-- How many Words on from `a` KBSR lies, addresses wrapping at 0xFFFF. -/
def wordsToKbsr (a : Word) (s : State) : Nat := (s.cfg.kbsrAddr - a).toNat

/-- How many Words a scan from `a` can read: those up to KBSR, and one pass over all addresses for each character still
pending there. A character is taken on the way when KBDR comes before KBSR. -/
def scanBudget (a : Word) (s : State) : Nat :=
  wordsToKbsr a s + 1 +
    65536 * if wordsToKbsr s.cfg.kbdrAddr s ≤ wordsToKbsr a s then s.conIn.length - 1 else s.conIn.length

theorem scanBudget_pos (a : Word) (s : State) : 0 < scanBudget a s := by
  unfold scanBudget
  omega

theorem wordsToKbsr_eq_zero : wordsToKbsr a s = 0 ↔ a = s.cfg.kbsrAddr := by
  unfold wordsToKbsr
  bv_omega

theorem wordsToKbsr_eq_kbdr (h : wordsToKbsr a s = wordsToKbsr s.cfg.kbdrAddr s) : a = s.cfg.kbdrAddr := by
  unfold wordsToKbsr at h
  bv_omega

/-- The next address is one Word nearer to KBSR; the one after KBSR is a whole pass away. -/
theorem wordsToKbsr_next (a : Word) (s : State) :
    wordsToKbsr (a + 1#16) s = if wordsToKbsr a s = 0 then 65535 else wordsToKbsr a s - 1 := by
  unfold wordsToKbsr
  split <;> bv_omega

/-- Console calls give the scan no Word more to read. -/
theorem ConsoleOnly.scanBudget_le (h : ConsoleOnly s t) (a : Word) : scanBudget a t ≤ scanBudget a s := by
  obtain ⟨taken, hi⟩ := h.taken
  have hl : t.conIn.length ≤ s.conIn.length := by simp [hi]
  have hd (b : Word) : wordsToKbsr b t = wordsToKbsr b s := by simp [wordsToKbsr, h.cfg]
  simp only [scanBudget, h.cfg, hd]
  split <;> omega

/-- Each nonzero Word a scan goes past leaves it fewer Words to read. -/
theorem scanBudget_decreases (hw : s.cfg.wf) (h : memRead a s = .ok w u) (hz : w ≠ 0) :
    scanBudget (a + 1#16) u < scanBudget a s := by
  have only := memRead_ok_only h
  have hle := only.scanBudget_le (a + 1#16)
  have hd (b : Word) : wordsToKbsr b u = wordsToKbsr b s := by simp [wordsToKbsr, only.cfg]
  have hne : wordsToKbsr s.cfg.kbdrAddr s ≠ 0 := fun e => hw (wordsToKbsr_eq_zero.mp e).symm
  have hlt : wordsToKbsr s.cfg.kbdrAddr s < 65536 := (s.cfg.kbsrAddr - s.cfg.kbdrAddr).isLt
  by_cases hs : a = s.cfg.kbsrAddr
  · -- KBSR itself: a character is pending, and the coming pass takes it.
    have h0 := wordsToKbsr_eq_zero.mpr hs
    have hc := List.length_pos_iff.mpr (memRead_kbsr_pending hs h hz)
    refine hle.trans_lt ?_
    simp only [scanBudget, wordsToKbsr_next, h0, if_true]
    split <;> split <;> omega
  · have h0 : wordsToKbsr a s ≠ 0 := mt wordsToKbsr_eq_zero.mp hs
    by_cases hr : a = s.cfg.kbdrAddr
    · -- KBDR: one character fewer, if there was one.
      have hc := memRead_kbdr_takes hw hr h
      subst hr
      simp only [scanBudget, only.cfg, hd, wordsToKbsr_next, h0, if_false]
      split <;> split <;> omega
    · -- A plain address: one Word nearer to KBSR, on the same side of KBDR.
      have h1 : wordsToKbsr a s ≠ wordsToKbsr s.cfg.kbdrAddr s := mt wordsToKbsr_eq_kbdr hr
      refine hle.trans_lt ?_
      simp only [scanBudget, wordsToKbsr_next, h0, if_false]
      split <;> split <;> omega

/-- PUTS never runs out of a bound that covers what it can read. -/
theorem putsLoop_ends (fuel : Nat) (hw : s.cfg.wf) (hb : scanBudget a s ≤ fuel) : putsLoop fuel a s ≠ .endless := by
  induction fuel generalizing a s with
  | zero => exact absurd hb (Nat.not_le.mpr (scanBudget_pos a s))
  | succ fuel ih =>
    unfold putsLoop
    cases hm : memRead a s with
    | fail u => simp
    | ok w u =>
      by_cases hz : w = 0x0000#16
      · simp [hz]
      · have hdec := scanBudget_decreases hw hm hz
        cases hp : consolePut (lowByte w) u with
        | fail v => simp [hz, hp]
        | ok x v =>
          have hv := consolePut_ok_only hp
          simp only [hz, hp, if_false]
          refine ih (by rw [hv.cfg, (memRead_ok_only hm).cfg]; exact hw) ?_
          have := hv.scanBudget_le (a + 1#16)
          omega

/-- Nor does PUTSP, which goes on after fewer Words than PUTS. -/
theorem putspLoop_ends (fuel : Nat) (hw : s.cfg.wf) (hb : scanBudget a s ≤ fuel) : putspLoop fuel a s ≠ .endless := by
  induction fuel generalizing a s with
  | zero => exact absurd hb (Nat.not_le.mpr (scanBudget_pos a s))
  | succ fuel ih =>
    unfold putspLoop
    cases hm : memRead a s with
    | fail u => simp
    | ok w u =>
      by_cases hl : lowByte w = 0x00#8
      · simp [hl]
      · have hdec := scanBudget_decreases hw hm fun hz => hl (hz ▸ rfl)
        cases hp : consolePut (lowByte w) u with
        | fail v => simp [hl, hp]
        | ok x v =>
          by_cases hh : highByte w = 0x00#8
          · simp [hl, hp, hh]
          · cases hq : consolePut (highByte w) v with
            | fail y => simp [hl, hp, hh, hq]
            | ok x y =>
              have hy := (consolePut_ok_only hp).trans (consolePut_ok_only hq)
              simp only [hl, hp, hh, hq, if_false]
              refine ih (by rw [hy.cfg, (memRead_ok_only hm).cfg]; exact hw) ?_
              have := hy.scanBudget_le (a + 1#16)
              omega

/-- The model's bound covers every scan, from whatever address. -/
theorem scanBudget_le_scanFuel (a : Word) (s : State) : scanBudget a s ≤ scanFuel s := by
  have hlt : wordsToKbsr a s < 65536 := (s.cfg.kbsrAddr - a).isLt
  unfold scanBudget scanFuel
  split <;> omega

theorem endScan_completes {r : Scan} (h : r ≠ .endless) (ir : Word) (s : State) : ∃ t, endScan ir s r = .next t := by
  cases r with
  | done u | fail u => exact ⟨_, rfl⟩
  | endless => exact absurd rfl h

theorem servicePuts_completes (hw : s.cfg.wf) (ir : Word) : ∃ t, servicePuts ir s = .next t :=
  endScan_completes (putsLoop_ends (s := linkR7 s) _ hw (scanBudget_le_scanFuel _ _)) ir s

theorem servicePutsp_completes (hw : s.cfg.wf) (ir : Word) : ∃ t, servicePutsp ir s = .next t :=
  endScan_completes (putspLoop_ends (s := linkR7 s) _ hw (scanBudget_le_scanFuel _ _)) ir s

end Sys2Proof.Machine
end

section
/-! PROOFS. No step stops the machine, and the host's moves keep its invariant, so every reachable state meets it
(spec/40_instruction_cycle.md R130, R136). -/
namespace Sys2Proof.Machine

variable {s t : State}

/-! ### Every step answers a next state -/

/-- The general TRAP row is one of the six services or a fault. -/
theorem execTrap_completes (hw : s.cfg.wf) (v : BitVec 8) (g : BitVec 4) : ∃ t, execTrap v g s = .next t := by
  unfold execTrap
  split
  case h_3 => exact servicePuts_completes hw _
  case h_5 => exact servicePutsp_completes hw _
  all_goals exact ⟨_, rfl⟩

/-- With two device addresses that differ (spec/00_scope.md R6) every instruction answers a next state: only the scans
of PUTS and PUTSP could do otherwise. -/
theorem exec_completes (hw : s.cfg.wf) (i : Instr) : ∃ t, exec i s = .next t := by
  cases i with
  | puts g => exact servicePuts_completes hw _
  | putsp g => exact servicePutsp_completes hw _
  | trap v g => exact execTrap_completes hw v g
  | br | addReg | addImm | andReg | andImm | not | lea | ld | ldi | ldr | st | sti | str | jmp | jsr | jsrr | rti
  | reserved | getc | out | inChar | halt => exact ⟨_, rfl⟩

theorem resumeHeld_completes (w : Held) (s : State) : ∃ t, resumeHeld w s = .next t := by
  cases w <;> exact ⟨_, rfl⟩

theorem step_completes (hw : s.cfg.wf) : ∃ t, step s = .next t := by
  rcases step_cases s with ⟨_, e⟩ | ⟨w, _, _, e⟩ | ⟨_, _, _, e⟩ | ⟨u, _, _, e⟩ | ⟨ir, u, _, hu, e⟩ <;> rw [e]
  · exact ⟨_, rfl⟩
  · exact resumeHeld_completes w s
  · exact ⟨_, rfl⟩
  · exact ⟨_, rfl⟩
  · obtain ⟨v, _, rfl, hc⟩ := fetch_ok hu
    exact exec_completes (by rw [setPc_cfg, hc.cfg]; exact hw) (decode ir)

/-! ### The moves of the host and the console keep the invariant -/

theorem hostReset_inv (h : s.Inv) : (hostReset s).Inv :=
  { resetMeetsTheInvariant with
    devicesDiffer := h.devicesDiffer
    devicesUnlisted := ⟨rfl, rfl⟩ }

theorem storeWords_inv (ws : List Word) (a : Word) (h : s.Inv) : (storeWords a ws s).Inv := by
  induction ws generalizing a s with
  | nil => exact h
  | cons w ws ih => exact ih (a + 1#16) (memWrite_inv h a w)

theorem loadImage_inv (h : s.Inv) (o : Word) (ws : List Word) : (loadImage o ws s).Inv :=
  { setPc_inv (storeWords_inv ws o h) o with failedLoadStaysIdle := fun e => nomatch e }

theorem failLoad_inv (h : s.Inv) (hr : s.run = .idle) : (failLoad s).Inv := { h with failedLoadStaysIdle := fun _ => hr }

/-- `start` leaves IDLE, where no fault is recorded, and only when no load has failed. -/
theorem start_inv (h : s.Inv) (hr : s.run = .idle) (hl : s.loadStatus ≠ .failed) :
    ({ s with run := .running } : State).Inv :=
  { h with
    faultedHasKind := fun e => nomatch e
    recordOnlyWhenFaulted := fun _ => h.recordOnlyWhenFaulted (by simp [hr])
    heldOnlyWhenRunning := fun _ => rfl
    noStopInIdle := fun e => nomatch e
    failedLoadStaysIdle := fun e => absurd e hl }

theorem stop_inv (h : s.Inv) (hr : s.run = .running) : ({ s with stopReq := true } : State).Inv :=
  { h with noStopInIdle := fun e => nomatch hr.symm.trans e }

theorem deliverInput_inv (h : s.Inv) (c : Byte) : (deliverInput c s).Inv := { h with }

theorem decideAnswer_inv (h : s.Inv) (b : Bool) : (decideAnswer b s).Inv := { h with }

theorem hostMove_done_inv {m : HostMove} (h : s.Inv) (hm : hostMove m s = .done t) : t.Inv := by
  rcases hostMove_done_cases hm with ⟨_, rfl⟩ | ⟨o, ws, _, _, rfl⟩ | ⟨hr, hl, rfl⟩ | ⟨hr, rfl⟩ | ⟨c, rfl⟩ | ⟨b, rfl⟩
  · exact hostReset_inv h
  · exact loadImage_inv h o ws
  · exact start_inv h hr hl
  · exact stop_inv h hr
  · exact deliverInput_inv h c
  · exact decideAnswer_inv h b

theorem hostMove_loadError_inv {m : HostMove} {why : LoadError} (h : s.Inv) (hm : hostMove m s = .loadError why t) :
    t.Inv := by
  obtain ⟨hr, _, rfl⟩ := hostMove_loadError_cases hm
  exact failLoad_inv h hr

/-! ### Every reachable state -/

theorem moves_inv (h : s.Inv) (hm : Moves s t) : t.Inv := by
  cases hm with
  | core hs => exact stepKeepsTheInvariant s t h hs
  | host m hd => exact hostMove_done_inv h hd
  | loadError m why he => exact hostMove_loadError_inv h he

theorem reachable_inv (h : Reachable s) : s.Inv := by
  induction h with
  | reset => exact resetMeetsTheInvariant
  | next _ hm ih => exact moves_inv ih hm

/-- Settles O55: the invariant keeps the device addresses apart, so every scan ends; it holds at reset and every move
keeps it. -/
theorem noReachableStateStopsTheMachine : Obligations.NoReachableStateStopsTheMachine :=
  ⟨fun _ h => step_completes h.devicesDiffer, fun _ => reachable_inv⟩

end Sys2Proof.Machine
end

section
/-! PROOFS. The flags of a Word, the fetched instruction, and what happens outside RUNNING (spec/40_instruction_cycle.md
R130, R134, R136, spec/10_state.md R33). -/
namespace Sys2Proof.Machine

variable {s t : State}

/-- The flags by bit 15 and by value (R134). -/
theorem condOf_eq (v : Word) :
    condOf v = if v.getLsbD 15 then 0b100#3 else if v.toNat = 0 then 0b010#3 else 0b001#3 := by
  have hz : v = 0 ↔ v.toNat = 0 := BitVec.toNat_inj.symm
  simp only [condOf, hz, BitVec.msb_eq_getLsbD_last]

/-- Settles O7: `setcc` writes `condOf`. -/
theorem setccClassifiesEveryWord : Obligations.SetccClassifiesEveryWord := by
  intro v s
  rw [← condOf_eq]
  rfl

/-- A step whose fetch reads `ir` executes it, with `pc` incremented (R130). -/
theorem step_of_memRead {ir : Word} {u : State} (h : s.willFetch) (hm : memRead s.pc s = .ok ir u) :
    step s = exec (decode ir) (setPc (s.pc + 1#16) u) := by
  obtain ⟨hr, hh, hq⟩ := h
  simp [step, hr, hh, hq, fetch, hm]

/-- Settles O44: a read of a plain address answers the Word there, and the decoder inverts the encoder. -/
theorem stepRunsTheDecodedInstruction : Obligations.StepRunsTheDecodedInstruction := by
  intro s hf
  refine ⟨fun ir u hm => step_of_memRead hf hm, fun hp => step_at_plain hf hp, fun i hi hp hw => ?_⟩
  rw [step_at_plain hf hp, hw, decode_encode hi]
  rfl

theorem step_outside_running (h : s.run ≠ .running) : step s = .next s := by
  cases hr : s.run with
  | running => exact absurd hr h
  | idle | halted | faulted | stopped => simp [step, hr]

theorem RunState.terminal.ne_idle {r : RunState} (h : r.terminal) : r ≠ .idle := by
  rcases h with rfl | rfl | rfl <;> decide

theorem RunState.terminal.ne_running {r : RunState} (h : r.terminal) : r ≠ .running := by
  rcases h with rfl | rfl | rfl <;> decide

/-- In a terminal run state only reset, a delivery and a decided answer are moves (spec/70_reset_and_hazards.md R305). -/
theorem hostMove_terminal {m : HostMove} (hr : s.run.terminal) (h : hostMove m s = .done t) (hm : m ≠ .reset) :
    (∃ c, t = deliverInput c s) ∨ (∃ b, t = decideAnswer b s) := by
  rcases hostMove_done_cases h with ⟨e, _⟩ | ⟨_, _, e, _⟩ | ⟨e, _⟩ | ⟨e, _⟩ | hc | hb
  · exact absurd e hm
  · exact absurd e hr.ne_idle
  · exact absurd e hr.ne_idle
  · exact absurd e hr.ne_running
  · exact .inl hc
  · exact .inr hb

/-- Settles O45: a delivery and a decided answer touch the console alone. -/
theorem onlyResetLeavesATerminalState : Obligations.OnlyResetLeavesATerminalState := by
  refine ⟨fun s => step_outside_running, fun m s t hr h hm => ?_⟩
  rcases hostMove_terminal hr h hm with ⟨c, rfl⟩ | ⟨b, rfl⟩ <;> exact ⟨rfl, rfl, rfl, rfl, rfl, rfl, rfl, rfl⟩

end Sys2Proof.Machine
end

section
/-! PROOFS. ADD, AND and NOT (spec/41_operate.md R150 to R158): an operate Word decodes because the decoder inverts the
encoder, and each meaning is one `writeResult`. -/
namespace Sys2Proof.Machine

/-- An instruction that ends in `x[dr] <- v; setcc(v)` without a console call writes its result and nothing else. -/
theorem exec_writesResult {i : Instr} {s : State} {dr : RegIdx} {v : Word} (h : exec i s = .next (writeResult dr v s)) :
    ∃ t, exec i s = .next t ∧ writesResult dr v s t ∧ sameConsole s t :=
  ⟨_, h, writeResult_effect ConsoleOnly.rfl dr v⟩

theorem exec_addReg (dr sr1 sr2 : RegIdx) (ign43 : BitVec 2) (s : State) :
    exec (.addReg dr sr1 sr2 ign43) s = .next (writeResult dr (readReg sr1 s + readReg sr2 s) s) := rfl

theorem exec_addImm (dr sr1 : RegIdx) (imm5 : BitVec 5) (s : State) :
    exec (.addImm dr sr1 imm5) s = .next (writeResult dr (readReg sr1 s + sext5 imm5) s) := rfl

theorem exec_andReg (dr sr1 sr2 : RegIdx) (ign43 : BitVec 2) (s : State) :
    exec (.andReg dr sr1 sr2 ign43) s = .next (writeResult dr (readReg sr1 s &&& readReg sr2 s) s) := rfl

theorem exec_andImm (dr sr1 : RegIdx) (imm5 : BitVec 5) (s : State) :
    exec (.andImm dr sr1 imm5) s = .next (writeResult dr (readReg sr1 s &&& sext5 imm5) s) := rfl

/-- NOT with the complement as the subtraction of R158. -/
theorem exec_not (dr sr : RegIdx) (ign50 : BitVec 6) (s : State) :
    exec (.not dr sr ign50) s = .next (writeResult dr (0xFFFF#16 - readReg sr s) s) := by
  have hc : 0xFFFF#16 - readReg sr s = ~~~ readReg sr s := BitVec.allOnes_sub_eq_not _
  rw [hc]
  rfl

/-- Settles O10: both sources are read from the state before the write. -/
theorem addRegisterWritesWrappedSum : Obligations.AddRegisterWritesWrappedSum := fun dr sr1 sr2 ign43 s =>
  ⟨decode_encode (i := .addReg dr sr1 sr2 ign43) rfl, exec_writesResult (exec_addReg dr sr1 sr2 ign43 s)⟩

/-- Settles O11: the second operand is the sign-extended immediate. -/
theorem addImmediateWritesWrappedSum : Obligations.AddImmediateWritesWrappedSum := fun dr sr1 imm5 s =>
  ⟨decode_encode (i := .addImm dr sr1 imm5) rfl, exec_writesResult (exec_addImm dr sr1 imm5 s)⟩

/-- Settles O12: both sources are read from the state before the write. -/
theorem andRegisterWritesBitwiseAnd : Obligations.AndRegisterWritesBitwiseAnd := fun dr sr1 sr2 ign43 s =>
  ⟨decode_encode (i := .andReg dr sr1 sr2 ign43) rfl, exec_writesResult (exec_andReg dr sr1 sr2 ign43 s)⟩

/-- Settles O13: the immediate is sign-extended before the AND. -/
theorem andImmediateWritesBitwiseAnd : Obligations.AndImmediateWritesBitwiseAnd := fun dr sr1 imm5 s =>
  ⟨decode_encode (i := .andImm dr sr1 imm5) rfl, exec_writesResult (exec_andImm dr sr1 imm5 s)⟩

/-- Settles O14: the bitwise complement of a Word is its difference from all ones. -/
theorem notWritesComplement : Obligations.NotWritesComplement := fun dr sr ign50 s =>
  ⟨decode_encode (i := .not dr sr ign50) rfl, exec_writesResult (exec_not dr sr ign50 s)⟩

end Sys2Proof.Machine
end

section
/-! PROOFS. LD, LDI, LDR and LEA (spec/42_load.md R170 to R176): LD, LDI and LDR each make one read that answers, and writes
its result, or fails, and raises IOError (spec/60_exceptions.md R263); LEA reads no memory. -/
namespace Sys2Proof.Machine

/-- What LD, LDI and LDR have in common: the read `r`, then the result in `dr` or IOError with the instruction's Word. -/
def LoadsInto (dr : RegIdx) (r : Con Word) (i : Instr) (s : State) : Prop :=
  exec i s = .next (orIOError (encode i) s r (writeResult dr)) ∧ ConsoleOnly s r.state

theorem ld_loads (dr : RegIdx) (off9 : BitVec 9) (s : State) :
    LoadsInto dr (memRead (s.pc + sext9 off9) s) (.ld dr off9) s := ⟨rfl, memRead_only _ s⟩

theorem ldr_loads (dr baseR : RegIdx) (off6 : BitVec 6) (s : State) :
    LoadsInto dr (memRead (readReg baseR s + sext6 off6) s) (.ldr dr baseR off6) s := ⟨rfl, memRead_only _ s⟩

theorem ldi_loads (dr : RegIdx) (off9 : BitVec 9) (s : State) :
    LoadsInto dr (readIndirect off9 s) (.ldi dr off9) s := ⟨rfl, readIndirect_only off9 s⟩

theorem exec_lea (dr : RegIdx) (off9 : BitVec 9) (s : State) :
    exec (.lea dr off9) s = .next (writeResult dr (s.pc + sext9 off9) s) := rfl

section
variable {dr : RegIdx} {r : Con Word} {i : Instr} {s u : State}

/-- A read that answers: the load writes the Word it read. -/
theorem LoadsInto.writesResult {v : Word} (hl : LoadsInto dr r i s) (hr : r = .ok v u) :
    ∃ t, exec i s = .next t ∧ Machine.writesResult dr v s t ∧ sameConsole u t := by
  obtain ⟨hx, hc⟩ := hl
  subst hr
  exact ⟨_, hx, writeResult_effect hc dr v⟩

/-- A read that fails: IOError, nothing committed (spec/60_exceptions.md R263, R264). -/
theorem LoadsInto.faults (hl : LoadsInto dr r i s) (hr : r = .fail u) :
    ∃ t, exec i s = .next t ∧ faultsWith .ioError (s.pc - 1#16) (encode i) s t ∧ sameConsole u t := by
  obtain ⟨hx, hc⟩ := hl
  subst hr
  exact ⟨_, hx, raiseFault_effect hc .ioError _ _⟩

end

/-! ### The two reads of LDI -/

section
variable {off9 : BitVec 9} {s u : State}

theorem readIndirect_of_pointer {ea : Word} (h : memRead (s.pc + sext9 off9) s = .ok ea u) :
    readIndirect off9 s = memRead ea u := by
  have hi : indirect9 off9 s = .ok ea u := h
  rw [readIndirect, hi]

theorem readIndirect_of_no_pointer (h : memRead (s.pc + sext9 off9) s = .fail u) : readIndirect off9 s = .fail u := by
  have hi : indirect9 off9 s = .fail u := h
  rw [readIndirect, hi]

end

/-! ### The statements -/

/-- With a console that never fails every load's read answers. -/
theorem memRead_completes {s : State} (hn : s.consoleNeverFails) (a : Word) : ∃ v u, memRead a s = .ok v u :=
  let ⟨v, u, h, _⟩ := memRead_answers hn a
  ⟨v, u, h⟩

/-- Settles O15: the read is at the PC-relative address. -/
theorem ldLoadsPcRelative : Obligations.LdLoadsPcRelative := fun dr off9 s =>
  ⟨decode_encode (i := .ld dr off9) rfl, fun _ _ => (ld_loads dr off9 s).writesResult, fun _ => (ld_loads dr off9 s).faults,
    fun hn => memRead_completes hn _⟩

/-- Settles O16: the two reads are one indirect read, which fails when either does. -/
theorem ldiLoadsThroughPointer : Obligations.LdiLoadsThroughPointer := by
  refine fun dr off9 s => ⟨decode_encode (i := .ldi dr off9) rfl, fun ea v u1 u2 hp hd => ?_, fun u hf => ?_, fun hn => ?_⟩
  · exact (ldi_loads dr off9 s).writesResult ((readIndirect_of_pointer hp).trans hd)
  · refine (ldi_loads dr off9 s).faults ?_
    obtain hp | ⟨ea, u1, hp, hd⟩ := hf
    · exact readIndirect_of_no_pointer hp
    · exact (readIndirect_of_pointer hp).trans hd
  · obtain ⟨ea, u1, hp, hn1⟩ := memRead_answers hn (s.pc + sext9 off9)
    obtain ⟨v, u2, hd⟩ := memRead_completes hn1 ea
    exact ⟨ea, v, u1, u2, hp, hd⟩

/-- Settles O17: the base is read from the state before DR is written. -/
theorem ldrLoadsBasePlusOffset : Obligations.LdrLoadsBasePlusOffset := fun dr baseR off6 s =>
  ⟨decode_encode (i := .ldr dr baseR off6) rfl, fun _ _ => (ldr_loads dr baseR off6 s).writesResult,
    fun _ => (ldr_loads dr baseR off6 s).faults, fun hn => memRead_completes hn _⟩

/-- Settles O18: the address itself is the result. -/
theorem leaLoadsTheAddress : Obligations.LeaLoadsTheAddress := fun dr off9 s =>
  ⟨decode_encode (i := .lea dr off9) rfl, exec_writesResult (exec_lea dr off9 s)⟩

end Sys2Proof.Machine
end

section
/-! PROOFS. ST, STI and STR (spec/43_store.md R190 to R194): each ends in one `memWrite`; STI first reads its pointer, and
raises IOError when that read fails (spec/60_exceptions.md R263). -/
namespace Sys2Proof.Machine

theorem exec_st (sr : RegIdx) (off9 : BitVec 9) (s : State) :
    exec (.st sr off9) s = .next (memWrite (pcRel9 off9 s) (readReg sr s) s) := rfl

theorem exec_str (sr baseR : RegIdx) (off6 : BitVec 6) (s : State) :
    exec (.str sr baseR off6) s = .next (memWrite (baseOff6 baseR off6 s) (readReg sr s) s) := rfl

/-- An instruction that ends in one MemWrite without a console call stores that Word and does nothing else. -/
theorem exec_storesWord {i : Instr} {s : State} {ea v : Word} (hm : s.mem.wf = true)
    (h : exec i s = .next (memWrite ea v s)) : ∃ t, exec i s = .next t ∧ storesWord ea v s t ∧ sameConsole s t :=
  ⟨_, h, memWrite_effect ConsoleOnly.rfl hm ea v⟩

/-! ### The pointer read of STI -/

section
variable {sr : RegIdx} {off9 : BitVec 9} {s u : State}

/-- A pointer that is read: the Word stored is SR's before the read, which writes no register. -/
theorem exec_sti_of_pointer {ea : Word} (h : memRead (pcRel9 off9 s) s = .ok ea u) :
    exec (.sti sr off9) s = .next (memWrite ea (readReg sr s) u) := by
  have hi : indirect9 off9 s = .ok ea u := h
  have hr : readReg sr u = readReg sr s := (memRead_ok_only h).readReg sr
  rw [exec, execSti, hi, orIOError, hr]

theorem exec_sti_of_no_pointer (h : memRead (pcRel9 off9 s) s = .fail u) :
    exec (.sti sr off9) s = .next (raiseFault .ioError (s.pc - 1#16) (encode (.sti sr off9)) s u) := by
  have hi : indirect9 off9 s = .fail u := h
  rw [exec, execSti, hi, orIOError, fetchedFrom]

end

/-! ### The statements -/

/-- Settles O21: the write is at the PC-relative address. -/
theorem stStoresPcRelative : Obligations.StStoresPcRelative := fun sr off9 s hm =>
  ⟨decode_st sr off9, exec_storesWord hm (exec_st sr off9 s)⟩

/-- Settles O22: the pointer read touches the console alone, so the store after it has a store's frame from `s`. -/
theorem stiStoresThroughPointer : Obligations.StiStoresThroughPointer := by
  refine fun sr off9 s hm => ⟨decode_encode (i := .sti sr off9) rfl, fun ea u hp => ?_, fun u hf => ?_,
    fun hn => memRead_completes hn _⟩
  · exact ⟨_, exec_sti_of_pointer hp, memWrite_effect (memRead_ok_only hp) hm ea (readReg sr s)⟩
  · exact ⟨_, exec_sti_of_no_pointer hf, raiseFault_effect (memRead_fail_only hf) .ioError _ _⟩

/-- Settles O23: the write is at the base register plus the offset. -/
theorem strStoresBasePlusOffset : Obligations.StrStoresBasePlusOffset := fun sr baseR off6 s hm =>
  ⟨decode_encode (i := .str sr baseR off6) rfl, exec_storesWord hm (exec_str sr baseR off6 s)⟩

end Sys2Proof.Machine
end

section
/-! PROOFS. BR, JMP, JSR and JSRR (spec/44_control.md R200 to R208): each meaning is one `setPc`, from the state before it or
from that state with R7 linked. -/
namespace Sys2Proof.Machine

variable {i : Instr} {s : State} {target : Word}

/-! ### The two ends of a control transfer -/

/-- An instruction that ends in `pc <- target` changes nothing else. -/
theorem exec_jumpsTo (h : exec i s = .next (setPc target s)) : ∃ t, exec i s = .next t ∧ jumpsTo target [] s t :=
  ⟨_, h, rfl, sameRegsBut.refl [] s, rfl, sameMem.refl s, sameConsole.refl s, sameControl.refl s⟩

/-- An instruction that ends in `x[7] <- pc; pc <- target` changes nothing else. -/
theorem exec_linksAndJumpsTo (h : exec i s = .next (setPc target (linkR7 s))) :
    ∃ t, exec i s = .next t ∧ jumpsTo target [R7] s t ∧ readReg R7 t = s.pc := by
  obtain ⟨hregs, hlink, hmem, hcon, hctl⟩ := linkR7_effect s
  exact ⟨_, h, ⟨rfl, hregs, rfl, hmem, hcon, hctl⟩, hlink⟩

/-! ### BR's test (R200) -/

/-- Whether an encoded condition bit meets a set flag. -/
def flagMet (n z p : Bool) (c : BitVec 3) : Bool := (n && c.getLsbD 2) || (z && c.getLsbD 1) || (p && c.getLsbD 0)

/-- The mask `ir[11:9]` leaves a flag of `cond` standing exactly when one of the three bits meets its flag. -/
theorem nzpMask_and_ne_zero : ∀ (n z p : Bool) (c : BitVec 3), (nzpMask n z p &&& c != 0#3) = flagMet n z p c := by
  decide

theorem branchTaken_eq (n z p : Bool) (s : State) : branchTaken n z p s = flagMet n z p s.cond :=
  nzpMask_and_ne_zero n z p s.cond

theorem flagMet_all {c : BitVec 3} (h : oneHot c) : flagMet true true true c = true := by
  rcases h with rfl | rfl | rfl <;> rfl

/-- A BR that is not taken jumps to where `pc` already is. -/
theorem exec_br (n z p : Bool) (off9 : BitVec 9) (s : State) :
    exec (.br n z p off9) s = .next (setPc (if flagMet n z p s.cond then s.pc + sext9 off9 else s.pc) s) := by
  rw [exec, execBr, branchTaken_eq]
  split
  · rfl
  · rfl

theorem exec_br_taken {n z p : Bool} (h : flagMet n z p s.cond = true) (off9 : BitVec 9) :
    exec (.br n z p off9) s = .next (setPc (s.pc + sext9 off9) s) := by
  rw [exec_br, if_pos h]

/-- Settles O24: the test on the masked flags is the test flag by flag. -/
theorem brBranchesOnAMatchingFlag : Obligations.BrBranchesOnAMatchingFlag := fun n z p off9 s =>
  ⟨decode_encode (i := .br n z p off9) rfl, exec_jumpsTo (exec_br n z p off9 s)⟩

/-! ### BR with offset -1 (R202) -/

theorem add_sext9_neg_one (a : Word) : a + sext9 0x1FF#9 = a - 1#16 := by
  have h : sext9 0x1FF#9 = -1#16 := by decide
  rw [h, BitVec.sub_eq_add_neg]

/-- Fetched at a plain address, a taken BR with offset -1 takes back the increment of `pc` (R131), and that is all a step
has changed. -/
theorem step_br_neg_one {n z p : Bool} (ht : flagMet n z p s.cond = true) (hf : s.willFetch) (hp : s.plain s.pc)
    (hw : s.mem.read s.pc.toNat = encode (.br n z p 0x1FF#9)) : step s = .next s := by
  rw [step_at_plain hf hp, hw, decode_encode rfl, exec_br_taken (s := setPc (s.pc + 1#16) s) ht, add_sext9_neg_one,
    setPc_pc, BitVec.add_sub_cancel]
  rfl

/-- Settles O25: one flag of three always meets BRnzp, none meets a BR without a bit, and offset -1 is `pc0`. -/
theorem brCornerCases : Obligations.BrCornerCases := by
  refine ⟨fun off9 s h => exec_br_taken (flagMet_all h) off9, exec_br false false false,
    fun n z p s ht => ⟨?_, step_br_neg_one ht⟩⟩
  rw [exec_br_taken ht, add_sext9_neg_one, setPc]

/-! ### JMP, JSR and JSRR -/

theorem exec_jmp (baseR : RegIdx) (ign119 : BitVec 3) (ign50 : BitVec 6) (s : State) :
    exec (.jmp baseR ign119 ign50) s = .next (setPc (readReg baseR s) s) := rfl

theorem exec_jsr (off11 : BitVec 11) (s : State) :
    exec (.jsr off11) s = .next (setPc (s.pc + sext11 off11) (linkR7 s)) := rfl

/-- Under link-first JSRR reads the register after R7 is written, so `BaseR = 7` reads the link (R208). -/
theorem exec_jsrr (baseR : RegIdx) (ign109 : BitVec 2) (ign50 : BitVec 6) (s : State) :
    exec (.jsrr baseR ign109 ign50) s = .next
      (setPc (if baseR = R7 ∧ s.cfg.jsrrLinkFirst = true then s.pc else readReg baseR s) (linkR7 s)) := by
  rw [exec, execJsrr]
  cases s.cfg.jsrrLinkFirst with
  | true => simp [readReg_linkR7]
  | false => simp

/-- Settles O26: a JMP is a jump to the register. -/
theorem jmpJumpsToTheRegister : Obligations.JmpJumpsToTheRegister := fun baseR ign119 ign50 s =>
  ⟨decode_encode (i := .jmp baseR ign119 ign50) rfl, exec_jumpsTo (exec_jmp baseR ign119 ign50 s)⟩

/-- Settles O27: the link does not move `pc`, so both are from the incremented PC. -/
theorem jsrLinksAndJumps : Obligations.JsrLinksAndJumps := fun off11 s =>
  ⟨decode_encode (i := .jsr off11) rfl, exec_linksAndJumpsTo (exec_jsr off11 s)⟩

/-- Settles O28: only `JSRR R7` can see whether the link comes before the read. -/
theorem jsrrLinksAndJumps : Obligations.JsrrLinksAndJumps := fun baseR ign109 ign50 s =>
  ⟨decode_encode (i := .jsrr baseR ign109 ign50) rfl, exec_linksAndJumpsTo (exec_jsrr baseR ign109 ign50 s)⟩

end Sys2Proof.Machine
end

section
/-! PROOFS. RTI and RESERVED, and the fetch from a device address (spec/45_illegal.md R220 to R224, spec/60_exceptions.md
R263): what a step does follows from the Word its fetch reads, or from the fetch's failure. -/
namespace Sys2Proof.Machine

variable {s u : State} {w : Word}

/-! ### The two opcodes that always fault -/

theorem exec_rti (ign110 : BitVec 12) (s : State) :
    exec (.rti ign110) s = .next (raiseFault .illegalInstruction (s.pc - 1#16) (encode (.rti ign110)) s s) := rfl

theorem exec_reserved (ign110 : BitVec 12) (s : State) :
    exec (.reserved ign110) s = .next (raiseFault .illegalInstruction (s.pc - 1#16) (encode (.reserved ign110)) s s) := rfl

/-- Settles O29: the decoder inverts the encoder, and the meaning of either opcode is one `raise` without a console call. -/
theorem rtiAndReservedRaiseIllegalInstruction : Obligations.RtiAndReservedRaiseIllegalInstruction := fun ign110 s =>
  ⟨decode_encode (i := .rti ign110) rfl,
    ⟨_, exec_rti ign110 s, raiseFault_effect ConsoleOnly.rfl .illegalInstruction _ _⟩,
    decode_encode (i := .reserved ign110) rfl,
    ⟨_, exec_reserved ign110 s, raiseFault_effect ConsoleOnly.rfl .illegalInstruction _ _⟩⟩

/-! ### A Word below 256 is a BR that is never taken (R224) -/

theorem decode_byte (h : w.toNat < 256) : decode w = .br false false false (field w 0 9) := by
  have hw : w.toNat =
      false.toNat * 2048 + false.toNat * 1024 + false.toNat * 512 + (field w 0 9).toNat := by
    simp only [field_toNat, Bool.toNat_false]
    omega
  obtain ⟨hop, hn, hz, hp, -⟩ := fields_1_1_1_9 hw
  simp only [decode, hop, hn, hz, hp]

theorem exec_decode_byte (h : w.toNat < 256) (s : State) : exec (decode w) s = .next s := by
  rw [decode_byte h]
  exact exec_br false false false _ s

theorem zext8_lt (c : Byte) : (zext8 c).toNat < 256 := by
  rw [zext8_toNat]
  exact c.isLt

/-! ### A step by what its fetch reads -/

/-- A fetched byte only advances `pc`. -/
theorem step_of_byte (hf : s.willFetch) (hm : memRead s.pc s = .ok w u) (hw : w.toNat < 256) :
    step s = .next (setPc (s.pc + 1#16) u) := by
  rw [step_of_memRead hf hm, exec_decode_byte hw]

/-- A fetched RTI raises IllegalInstruction from the state before the fetch, but for what the fetch did to the console. -/
theorem step_of_rti {ign110 : BitVec 12} (hf : s.willFetch) (hm : memRead s.pc s = .ok (encode (.rti ign110)) u) :
    step s = .next (raiseFault .illegalInstruction s.pc (encode (.rti ign110)) s u) := by
  rw [step_of_memRead hf hm, decode_encode rfl, exec_rti, setPc_pc, BitVec.add_sub_cancel, (memRead_ok_only hm).rest]
  rfl

/-- A fetch that fails raises IOError with 0x0000 for the Word (spec/60_exceptions.md R263). -/
theorem step_of_memRead_fails (hf : s.willFetch) (hm : memRead s.pc s = .fail u) :
    step s = .next (raiseFault .ioError s.pc 0x0000#16 s u) := by
  obtain ⟨hr, hh, hq⟩ := hf
  simp [step, hr, hh, hq, fetch, hm]

theorem failedFetch_effect (hf : s.willFetch) (hm : memRead s.pc s = .fail u) :
    ∃ t, step s = .next t ∧ faultsWith .ioError s.pc 0 s t ∧ sameConsole u t :=
  ⟨_, step_of_memRead_fails hf hm, raiseFault_effect (memRead_fail_only hm) .ioError _ _⟩

/-- Settles O51: at each device address the step follows from what MemRead answers there. -/
theorem fetchFromADeviceAddress : Obligations.FetchFromADeviceAddress := by
  intro s hf hw
  refine ⟨fun ha h hc => ?_, fun ha h hc => ?_, fun c rest ha h h' hc => ?_, fun ha h hc => ?_, fun hp h => ?_,
    fun ha h hc h' => ?_⟩
  · have hm : memRead s.pc s = .ok (encode (.rti 0#12)) (callMade s) := by
      rw [memRead_at_kbsr ha, kbsrRead_answers h, if_neg hc]
      rfl
    obtain ⟨heff, hin, hout, -, -⟩ := raiseFault_effect (callMade_only s) .illegalInstruction s.pc 0x8000#16
    exact ⟨_, step_of_rti hf hm, heff, hin, hout⟩
  · have hm : memRead s.pc s = .ok 0x0000#16 (callMade s) := by
      rw [memRead_at_kbsr ha, kbsrRead_answers h, if_pos hc]
    exact step_of_byte hf hm (by decide)
  · have hm := (memRead_at_kbdr_of_wf hw ha).trans (kbdrRead_pending h h' hc)
    exact step_of_byte hf hm (zext8_lt c)
  · have hm := (memRead_at_kbdr_of_wf hw ha).trans (kbdrRead_empty h hc)
    exact ⟨step_of_memRead hf hm, step_of_byte hf hm⟩
  · obtain ⟨t, ht, heff, hin, hout, -, hlatch⟩ := failedFetch_effect hf (memRead_device_fails hp h)
    exact ⟨t, ht, heff, hin, hout, hlatch⟩
  · have hm := (memRead_at_kbdr_of_wf hw ha).trans (kbdrRead_get_fails h h' hc)
    obtain ⟨t, ht, heff, hin, hout, -, hlatch⟩ := failedFetch_effect hf hm
    exact ⟨t, ht, heff, hin, hout, hlatch⟩

end Sys2Proof.Machine
end

section
/-! PROOFS. PUTS and PUTSP end, and are the unbounded loops of spec/46_trap.md R238 and R242: a scan that its bound does
not cut short makes the same reads and the same writes as the loop. -/
namespace Sys2Proof.Machine

variable {a w : Word} {s t u v x : State} {fuel : Nat}

/-- Settles O35: of all that PUTS and PUTSP do, only a scan without end would leave them without a next state. -/
theorem putsAndPutspAlwaysComplete : Obligations.PutsAndPutspAlwaysComplete := fun g _ hw =>
  ⟨exec_completes hw (.puts g), exec_completes hw (.putsp g)⟩

/-! ### One Word of PUTS (R238) -/

theorem putsLoop_stops (h : memRead a s = .ok 0 t) : putsLoop (fuel + 1) a s = .done t := by
  simp [putsLoop, h]

theorem putsLoop_goes_on (h : memRead a s = .ok w u) (hw : w ≠ 0) (hp : consolePut (lowByte w) u = .ok () v) :
    putsLoop (fuel + 1) a s = putsLoop fuel (a + 1#16) v := by
  rw [putsLoop, h]
  exact (if_neg hw).trans (by rw [hp])

theorem putsLoop_fails (h : memRead a s = .ok w u) (hw : w ≠ 0) (hp : consolePut (lowByte w) u = .fail v) :
    putsLoop (fuel + 1) a s = .fail v := by
  rw [putsLoop, h]
  exact (if_neg hw).trans (by rw [hp])

/-! ### One Word of PUTSP (R242) -/

theorem putspLoop_stops_at_low (h : memRead a s = .ok w t) (hl : lowByte w = 0) :
    putspLoop (fuel + 1) a s = .done t := by
  rw [putspLoop, h]
  exact if_pos hl

section
variable (h : memRead a s = .ok w u) (hl : lowByte w ≠ 0)
include h hl

theorem putspLoop_fails_at_low (hp : consolePut (lowByte w) u = .fail v) : putspLoop (fuel + 1) a s = .fail v := by
  rw [putspLoop, h]
  exact (if_neg hl).trans (by rw [hp])

variable (hp : consolePut (lowByte w) u = .ok () v)
include hp

theorem putspLoop_stops_at_high (hh : highByte w = 0) : putspLoop (fuel + 1) a s = .done v := by
  rw [putspLoop, h]
  exact (if_neg hl).trans (by rw [hp]; exact if_pos hh)

theorem putspLoop_fails_at_high (hh : highByte w ≠ 0) (hq : consolePut (highByte w) v = .fail x) :
    putspLoop (fuel + 1) a s = .fail x := by
  rw [putspLoop, h]
  exact (if_neg hl).trans (by rw [hp]; exact (if_neg hh).trans (by rw [hq]))

theorem putspLoop_goes_on (hh : highByte w ≠ 0) (hq : consolePut (highByte w) v = .ok () x) :
    putspLoop (fuel + 1) a s = putspLoop fuel (a + 1#16) x := by
  rw [putspLoop, h]
  exact (if_neg hl).trans (by rw [hp]; exact (if_neg hh).trans (by rw [hq]))

end

/-! ### A scan and the loop without a bound -/

/-- A scan that ends is a run of the loop. -/
theorem PutsRun.of_putsLoop (h : putsLoop fuel a s = .done t) : PutsRun a s t := by
  induction fuel generalizing a s with
  | zero => simp [putsLoop] at h
  | succ fuel ih =>
    cases hm : memRead a s with
    | fail u => simp [putsLoop, hm] at h
    | ok w u =>
      by_cases hw : w = 0
      · subst hw
        rw [putsLoop_stops hm] at h
        cases h
        exact .exit hm
      · cases hp : consolePut (lowByte w) u with
        | fail v => simp [putsLoop_fails hm hw hp] at h
        | ok _ v =>
          rw [putsLoop_goes_on hm hw hp] at h
          exact .put hm hw hp (ih h)

/-- A run of the loop is what a scan does whose bound reaches its end. -/
theorem PutsRun.putsLoop_eq (h : PutsRun a s t) (hn : putsLoop fuel a s ≠ .endless) : putsLoop fuel a s = .done t := by
  induction h generalizing fuel with
  | exit hm =>
    cases fuel with
    | zero => exact absurd rfl hn
    | succ fuel => exact putsLoop_stops hm
  | put hm hw hp _ ih =>
    cases fuel with
    | zero => exact absurd rfl hn
    | succ fuel =>
      rw [putsLoop_goes_on hm hw hp] at hn ⊢
      exact ih hn

theorem PutspRun.of_putspLoop (h : putspLoop fuel a s = .done t) : PutspRun a s t := by
  induction fuel generalizing a s with
  | zero => simp [putspLoop] at h
  | succ fuel ih =>
    cases hm : memRead a s with
    | fail u => simp [putspLoop, hm] at h
    | ok w u =>
      by_cases hl : lowByte w = 0
      · rw [putspLoop_stops_at_low hm hl] at h
        cases h
        exact .exitLow hm hl
      · cases hp : consolePut (lowByte w) u with
        | fail v => simp [putspLoop_fails_at_low hm hl hp] at h
        | ok _ v =>
          by_cases hh : highByte w = 0
          · rw [putspLoop_stops_at_high hm hl hp hh] at h
            cases h
            exact .exitHigh hm hl hp hh
          · cases hq : consolePut (highByte w) v with
            | fail x => simp [putspLoop_fails_at_high hm hl hp hh hq] at h
            | ok _ x =>
              rw [putspLoop_goes_on hm hl hp hh hq] at h
              exact .put hm hl hp hh hq (ih h)

theorem PutspRun.putspLoop_eq (h : PutspRun a s t) (hn : putspLoop fuel a s ≠ .endless) :
    putspLoop fuel a s = .done t := by
  induction h generalizing fuel with
  | exitLow hm hl =>
    cases fuel with
    | zero => exact absurd rfl hn
    | succ fuel => exact putspLoop_stops_at_low hm hl
  | exitHigh hm hl hp hh =>
    cases fuel with
    | zero => exact absurd rfl hn
    | succ fuel => exact putspLoop_stops_at_high hm hl hp hh
  | put hm hl hp hh hq _ ih =>
    cases fuel with
    | zero => exact absurd rfl hn
    | succ fuel =>
      rw [putspLoop_goes_on hm hl hp hh hq] at hn ⊢
      exact ih hn

/-- With two device addresses that differ (spec/00_scope.md R6) the model's bound reaches the end of every scan. -/
theorem putsLoop_done_iff (hw : s.cfg.wf) : putsLoop (scanFuel s) a s = .done t ↔ PutsRun a s t :=
  ⟨PutsRun.of_putsLoop, fun h => h.putsLoop_eq (putsLoop_ends _ hw (scanBudget_le_scanFuel a s))⟩

theorem putspLoop_done_iff (hw : s.cfg.wf) : putspLoop (scanFuel s) a s = .done t ↔ PutspRun a s t :=
  ⟨PutspRun.of_putspLoop, fun h => h.putspLoop_eq (putspLoop_ends _ hw (scanBudget_le_scanFuel a s))⟩

/-- A core that still runs after a scan has come to the scan's end, for a scan that fails leaves it FAULTED. -/
theorem endScan_running_iff {ir : Word} {r : Scan} (hr : s.run = .running)
    (hd : r = .done t → ConsoleOnly (linkR7 s) t) : endScan ir s r = .next t ∧ t.run = .running ↔ r = .done t := by
  constructor
  · rintro ⟨h, ht⟩
    rcases endScan_next h with e | ⟨u, _, rfl⟩
    · exact e
    · simp at ht
  · exact fun e => ⟨e ▸ rfl, (hd e).run.trans hr⟩

theorem servicePuts_running_iff (hw : s.cfg.wf) (hr : s.run = .running) (ir : Word) :
    servicePuts ir s = .next t ∧ t.run = .running ↔ PutsRun (readReg R0 s) (linkR7 s) t :=
  (endScan_running_iff hr fun e => putsLoop_only _ _ _ _ (.inl e)).trans (putsLoop_done_iff (s := linkR7 s) hw)

theorem servicePutsp_running_iff (hw : s.cfg.wf) (hr : s.run = .running) (ir : Word) :
    servicePutsp ir s = .next t ∧ t.run = .running ↔ PutspRun (readReg R0 s) (linkR7 s) t :=
  (endScan_running_iff hr fun e => putspLoop_only _ _ _ _ (.inl e)).trans (putspLoop_done_iff (s := linkR7 s) hw)

/-- Settles O36: a completed service is a scan that is done, and a scan that is done is a run of the loop. -/
theorem putsAndPutspAreTheirLoops : Obligations.PutsAndPutspAreTheirLoops := fun _ _ _ hw hr =>
  ⟨servicePuts_running_iff hw hr _, servicePutsp_running_iff hw hr _⟩

end Sys2Proof.Machine
end

section
/-! PROOFS. The ends of a TRAP (spec/46_trap.md R230, R244, R248, R250): a service that completes has written R7, at
most R0, and made console calls; one that fails raises IOError from what its calls have left. -/
namespace Sys2Proof.Machine

variable {i : Instr} {v : BitVec 8} {g : BitVec 4} {s u : State}

/-! ### What no TRAP changes (R244) -/

theorem writtenRegs_of_isTrap (h : isTrap i = true) : writtenRegs i ⊆ [R0, R7] := by
  cases i with
  | getc g | inChar g => exact List.Subset.refl _
  | out g | puts g | putsp g | halt g => simp [writtenRegs]
  | trap v g => cases hv : isServiceVector v <;> simp [writtenRegs, hv]
  | _ => cases h

theorem isStore_of_isTrap (h : isTrap i = true) : isStore i = false := by
  cases i with
  | st | sti | str => cases h
  | _ => rfl

/-- Settles O39, from the frame of every instruction and the writers of the flags. -/
theorem trapsKeepR1ToR6FlagsAndMemory : Obligations.TrapsKeepR1ToR6FlagsAndMemory := by
  intro i s t hi h
  obtain ⟨hregs, hmem, _, _⟩ := everyInstructionKeepsItsFrame i s t h
  obtain ⟨hcond, _⟩ := onlySevenInstructionsWriteFlags i s t h
  exact ⟨hregs.mono (writtenRegs_of_isTrap hi), hcond (flagDest_eq_none (.inr (.inr hi))), hmem (isStore_of_isTrap hi)⟩

/-! ### An unrecognised vector (R248) -/

theorem exec_trap_general (h : isServiceVector v = false) (g : BitVec 4) (s : State) :
    exec (.trap v g) s = .next (raiseFault .illegalTrap (s.pc - 1#16) (encode (.trap v g)) s s) := by
  simp only [isServiceVector, decide_eq_false_iff_not] at h
  simp only [exec, execTrap]
  split
  case h_7 => rfl
  all_goals omega

/-- Settles O30: the general row raises IllegalTrap from the state it got, without a console call. -/
theorem unrecognisedVectorRaisesIllegalTrap : Obligations.UnrecognisedVectorRaisesIllegalTrap := by
  intro v g s h
  have hv : isServiceVector v = false := decide_eq_false (by omega)
  exact ⟨decode_encode (i := .trap v g) (trap_wellFormed.mpr hv), _, exec_trap_general hv g s,
    raiseFault_effect ConsoleOnly.rfl .illegalTrap _ _⟩

/-! ### A service that completes (R230) -/

/-- A service that has written R7 and made console calls. -/
theorem ConsoleOnly.trapReturns (h : ConsoleOnly (linkR7 s) u) : Machine.trapReturns [] s u :=
  ⟨(h.readReg R7).trans (readReg_writeReg_self R7 s.pc s), h.pc, linkR7_console_sameRegsBut h (by simp), h.cond,
    h.sameMem⟩

/-- A service that has also put a character in R0. -/
theorem ConsoleOnly.trapReturns_char (h : ConsoleOnly (linkR7 s) u) (c : Byte) :
    Machine.trapReturns [R0] s (release (writeReg R0 (zext8 c) u)) := by
  obtain ⟨hlink, hpc, hregs, hcond, hmem⟩ := h.trapReturns
  refine ⟨(readReg_writeReg_ne _ u (by decide)).trans hlink, hpc, ?_, hcond, hmem⟩
  exact (hregs.mono (by simp)).trans ((sameRegsBut_writeReg R0 (zext8 c) u).mono (by simp))

/-- Settles O31: GETC takes the head of the input into R0. -/
theorem getcReadsOneCharacter : Obligations.GetcReadsOneCharacter := by
  intro g c rest s hc h
  have hu := consoleGet_ok_only (consoleGet_pending (s := linkR7 s) h hc)
  exact ⟨decode_encode (i := .getc g) rfl, _, exec_getc_takes h hc, hu.trapReturns_char c, readReg_writeReg_self R0 _ _,
    rfl, rfl, rfl, rfl, rfl, ⟨rfl, rfl, rfl⟩, rfl, rfl, rfl, rfl⟩

/-- `s` after `n` console calls that have written `bs`. -/
def wrote (n : Nat) (bs : List Byte) (s : State) : State :=
  { s with conOut := s.conOut ++ bs, conFails := s.conFails.drop n }

theorem wrote_only (n : Nat) (bs : List Byte) (s : State) : ConsoleOnly s (wrote n bs s) :=
  ⟨rfl, ⟨bs, rfl⟩, ⟨[], rfl⟩, ⟨s.conFails.take n, (List.take_append_drop n s.conFails).symm⟩, .inl rfl⟩

theorem prompted_only (s : State) : ConsoleOnly (linkR7 s) (prompted s) :=
  wrote_only s.cfg.inPrompt.length s.cfg.inPrompt (linkR7 s)

/-- Settles O37: after its prompt IN takes the head of the input, echoes it and puts it in R0. -/
theorem inPromptsReadsAndEchoes : Obligations.InPromptsReadsAndEchoes := by
  intro g c rest s hc h
  have hn := prompted_consoleNeverFails h
  have hget := consoleGet_ok_only (consoleGet_pending hn.next hc)
  have hput := consolePut_ok_only
    (consolePut_answers (s := { callMade (prompted s) with conIn := rest }) hn.callMade.next c)
  have hu := ((prompted_only s).trans hget).trans hput
  refine ⟨decode_encode (i := .inChar g) rfl, _, exec_inChar_takes h hc, hu.trapReturns_char c,
    readReg_writeReg_self R0 _ _, rfl, rfl, rfl, rfl, rfl, ⟨rfl, rfl, rfl⟩, rfl, rfl, rfl, ?_⟩
  simp [prompted]

/-! ### A service that fails (R250) -/

/-- The instruction ends in `raise IOError(pc0, ir)` when its console calls have left `u`. -/
structure RaisesIOError (i : Instr) (s u : State) : Prop where
  ends : exec i s = .next (raiseFault .ioError (s.pc - 1#16) (encode i) s u)
  calls : ConsoleOnly (linkR7 s) u

theorem RaisesIOError.faults (h : RaisesIOError i s u) :
    faultsWith .ioError (s.pc - 1#16) (encode i) s (raiseFault .ioError (s.pc - 1#16) (encode i) s u) :=
  faultsWith_raiseFault _ _ _ h.calls.sameHost

theorem serviceGetc_fails {ir : Word} (h : nextCallFails s = true) :
    serviceGetc g ir s = raiseFault .ioError (fetchedFrom s) ir s (callMade (linkR7 s)) := by
  rw [serviceGetc, consoleGet_fails (s := linkR7 s) h, orIOError_fail]

theorem getc_fails (h : nextCallFails s = true) : RaisesIOError (.getc g) s (callMade (linkR7 s)) :=
  ⟨congrArg Host.Outcome.next (serviceGetc_fails h), callMade_only _⟩

theorem out_fails (h : nextCallFails s = true) : RaisesIOError (.out g) s (callMade (linkR7 s)) := by
  refine ⟨congrArg Host.Outcome.next ?_, callMade_only _⟩
  rw [serviceOut, consolePut_fails (s := linkR7 s) h, orIOError_fail]
  rfl

theorem halt_fails (h : nextCallFails s = true) : RaisesIOError (.halt g) s (callMade (linkR7 s)) := by
  refine ⟨congrArg Host.Outcome.next ?_, callMade_only _⟩
  rw [serviceHalt, consoleFlush_fails (s := linkR7 s) h, orIOError_fail]
  rfl

/-! ### OUT and HALT, either way -/

theorem exec_out_writes (h : nextCallFails s = false) :
    exec (.out g) s = .next { callMade (linkR7 s) with conOut := s.conOut ++ [lowByte (readReg R0 s)] } := by
  refine congrArg Host.Outcome.next ?_
  rw [serviceOut, consolePut_answers (s := linkR7 s) h]
  rfl

/-- Settles O32: OUT is one console write. -/
theorem outWritesTheLowByteOfR0 : Obligations.OutWritesTheLowByteOfR0 := by
  intro g s
  refine ⟨decode_encode (i := .out g) rfl, fun h => ?_, fun h => ?_⟩
  · have hu := consolePut_ok_only (consolePut_answers (s := linkR7 s) h (lowByte (readReg R0 s)))
    exact ⟨_, exec_out_writes h, hu.trapReturns, hu.sameControl, rfl, rfl, rfl, rfl⟩
  · have hf := out_fails (g := g) h
    exact ⟨_, hf.ends, hf.faults, rfl, rfl, rfl⟩

theorem exec_halt_halts (h : nextCallFails s = false) :
    exec (.halt g) s = .next (haltCore (callMade (linkR7 s))) := by
  refine congrArg Host.Outcome.next ?_
  rw [serviceHalt, consoleFlush_answers (s := linkR7 s) h]
  rfl

/-- Settles O38: HALT is one flush, and HALTED is a terminal run state. -/
theorem haltEndsTheRun : Obligations.HaltEndsTheRun := by
  intro g s
  refine ⟨decode_encode (i := .halt g) rfl, fun h => ?_, fun h => ?_⟩
  · refine ⟨_, exec_halt_halts h, (callMade_only (linkR7 s)).trapReturns, rfl, rfl, rfl, rfl, rfl, ⟨rfl, rfl, rfl⟩,
      rfl, rfl, rfl, rfl, step_outside_running (by simp), fun m u hm hu => ?_⟩
    obtain ⟨hrun, _⟩ := onlyResetLeavesATerminalState.2 m _ u (.inl rfl) hu hm
    exact hrun
  · have hf := halt_fails (g := g) h
    exact ⟨_, hf.ends, hf.faults, rfl, rfl, rfl⟩

end Sys2Proof.Machine
end

section
/-! PROOFS. PUTS and PUTSP over a string at plain addresses (spec/46_trap.md R238, R242): the scan goes past the whole
string, and what the Word after it and the console's next answer are decides how it ends. -/
namespace Sys2Proof.Machine

variable {good : Word → Prop} {ws : List Word} {z : Word} {s u : State}

/-! ### The string that R0 points at -/

/-- From `x[0]` on memory holds the Words `ws`, every one of them `good`, and then `z`, all at plain addresses. -/
structure StringAtR0 (good : Word → Prop) (ws : List Word) (z : Word) (s : State) : Prop where
  plain : ∀ k, k ≤ ws.length → s.plain (readReg R0 s + BitVec.ofNat 16 k)
  words : ∀ k (h : k < ws.length), s.mem.read (readReg R0 s + BitVec.ofNat 16 k).toNat = ws[k] ∧ good ws[k]
  last : s.mem.read (readReg R0 s + BitVec.ofNat 16 ws.length).toNat = z

/-- The address of the Word after the string. -/
def stringEnd (ws : List Word) (s : State) : Word := readReg R0 s + BitVec.ofNat 16 ws.length

/-- The string without a Word, before the one that R0 points at. -/
theorem StringAtR0.nil (h : s.plain (readReg R0 s)) :
    StringAtR0 good [] (s.mem.read (readReg R0 s).toNat) s where
  plain k hk := by
    obtain rfl : k = 0 := Nat.le_zero.mp hk
    simpa using h
  words k hk := absurd hk (Nat.not_lt_zero k)
  last := by simp

/-- Console calls change no Word at a plain address. -/
theorem StringAtR0.memRead_last (h : StringAtR0 good ws z s) (hu : ConsoleOnly (linkR7 s) u) :
    memRead (stringEnd ws s) u = .ok z u := by
  have hp : u.plain (stringEnd ws s) := by rw [State.plain, hu.cfg]; exact h.plain _ le_rfl
  have hm : u.mem = s.mem := by rw [hu.rest]; rfl
  rw [memRead_at_plain hp, hm, stringEnd, h.last]

/-! ### What PUTS and PUTSP have done once they are past it -/

/-- PUTS writes the low byte of each Word. -/
def putsPast (ws : List Word) (s : State) : State := wrote ws.length (ws.map lowByte) (linkR7 s)

theorem putsPast_only (ws : List Word) (s : State) : ConsoleOnly (linkR7 s) (putsPast ws s) := wrote_only _ _ _

theorem StringAtR0.putsLoop_eq (h : StringAtR0 (· ≠ 0) ws z s) (hn : s.answers ws.length) :
    ∃ fuel, putsLoop (scanFuel s) (readReg R0 s) (linkR7 s) = putsLoop (fuel + 1) (stringEnd ws s) (putsPast ws s) := by
  obtain ⟨fuel, e⟩ := scanFuel_past (plain_run_short h.plain) s
  refine ⟨fuel, ?_⟩
  rw [e]
  exact putsLoop_string ws (fuel + 1) _ (linkR7 s) hn (fun k hk => h.plain k hk.le) h.words

/-- The Words that PUTSP goes past. -/
def twoBytes (w : Word) : Prop := lowByte w ≠ 0 ∧ highByte w ≠ 0

/-- PUTSP writes the low byte of each Word, then the high byte. -/
def putspPast (ws : List Word) (s : State) : State :=
  wrote (2 * ws.length) (ws.flatMap fun w => [lowByte w, highByte w]) (linkR7 s)

theorem putspPast_only (ws : List Word) (s : State) : ConsoleOnly (linkR7 s) (putspPast ws s) := wrote_only _ _ _

theorem putspPast_consoleNeverFails (h : s.consoleNeverFails) : (putspPast ws s).consoleNeverFails :=
  fun b hb => h b (List.mem_of_mem_drop hb)

theorem StringAtR0.putspLoop_eq (h : StringAtR0 twoBytes ws z s) (hn : s.answers (2 * ws.length)) :
    ∃ fuel, putspLoop (scanFuel s) (readReg R0 s) (linkR7 s) =
      putspLoop (fuel + 1) (stringEnd ws s) (putspPast ws s) := by
  obtain ⟨fuel, e⟩ := scanFuel_past (plain_run_short h.plain) s
  refine ⟨fuel, ?_⟩
  rw [e]
  exact putspLoop_string ws (fuel + 1) _ (linkR7 s) hn (fun k hk => h.plain k hk.le) h.words

/-! ### The string is written -/

/-- Settles O33: the zero Word after the string ends the scan. -/
theorem putsWritesTheStringAndStops : Obligations.PutsWritesTheStringAndStops := by
  intro g ws s hp hw hz hn
  have hs : StringAtR0 (· ≠ 0) ws 0 s := ⟨hp, hw, hz⟩
  have hu := putsPast_only ws s
  obtain ⟨fuel, e⟩ := hs.putsLoop_eq (hn.answers _)
  have hdone := e.trans (putsLoop_stops (hs.memRead_last hu))
  exact ⟨decode_encode (i := .puts g) rfl, _, congrArg (endScan _ s) hdone, hu.trapReturns, hu.sameControl,
    rfl, rfl, rfl, rfl⟩

/-- Settles O34: the last Word ends the scan at its first zero byte, which is not written. -/
theorem putspWritesPackedBytesAndStops : Obligations.PutspWritesPackedBytesAndStops := by
  intro g ws z s hp hw hz hend hn
  refine ⟨decode_encode (i := .putsp g) rfl, ?_⟩
  have hs : StringAtR0 twoBytes ws z s := ⟨hp, hw, hz⟩
  have hu := putspPast_only ws s
  have hm := hs.memRead_last hu
  obtain ⟨fuel, e⟩ := hs.putspLoop_eq (hn.answers _)
  by_cases hl : z.extractLsb' 0 8 = 0#8
  · rw [if_pos hl, if_pos hl, List.append_nil]
    have hdone := e.trans (putspLoop_stops_at_low hm hl)
    exact ⟨_, congrArg (endScan _ s) hdone, hu.trapReturns, hu.sameControl, rfl, rfl, rfl, rfl⟩
  · rw [if_neg hl, if_neg hl]
    have hput := consolePut_answers (putspPast_consoleNeverFails (ws := ws) hn).next (lowByte z)
    have hv := hu.trans (consolePut_ok_only hput)
    have hdone := e.trans (putspLoop_stops_at_high hm hl hput (hend.resolve_left hl))
    exact ⟨_, congrArg (endScan _ s) hdone, hv.trapReturns, hv.sameControl, rfl, rfl, rfl, List.tail_drop⟩

end Sys2Proof.Machine
end

section
/-! PROOFS. The services that fail (spec/46_trap.md R250): whichever call fails, the fault is raised from the state that
the calls before it have left. -/
namespace Sys2Proof.Machine

variable {g : BitVec 4} {ir : Word} {c : Byte} {rest : List Byte} {w : Word} {ws : List Word} {s s0 : State}

theorem failsAfter_zero (h : nextCallFails s = true) : s.failsAfter 0 := by
  refine ⟨fun b hb => absurd hb List.not_mem_nil, ?_⟩
  cases hf : s.conFails with
  | nil => simp [nextCallFails, hf] at h
  | cons b bs => simpa [nextCallFails, hf] using h

/-! ### IN: in its prompt, at its read, at its echo (R240) -/

theorem inChar_fails_in_prompt {n : Nat} (hn : n < s.cfg.inPrompt.length) (h : s.failsAfter n) :
    RaisesIOError (.inChar g) s (wrote (n + 1) (s.cfg.inPrompt.take n) (linkR7 s)) := by
  refine ⟨congrArg Host.Outcome.next ?_, wrote_only _ _ _⟩
  rw [serviceIn, consolePutAll_fails (s := linkR7 s) hn h, orIOError_fail]
  rfl

/-- The prompt is written when the first failing call lies after it. -/
theorem serviceIn_past_prompt {k : Nat} (h : s.failsAfter (s.cfg.inPrompt.length + k)) :
    serviceIn g ir s = serviceInWait g ir s (prompted s) ∧ (prompted s).failsAfter k := by
  obtain ⟨u, e, hu, rfl⟩ := consolePutAll_before_failure (s := linkR7 s) h
  refine ⟨?_, hu⟩
  rw [serviceIn, e, orIOError_ok]
  rfl

theorem serviceInWait_fails_at_read (h : nextCallFails s = true) :
    serviceInWait g ir s0 s = raiseFault .ioError (fetchedFrom s0) ir s0 (callMade s) := by
  rw [serviceInWait, consoleGet_fails h, orIOError_fail]

theorem inChar_fails_at_read (h : s.failsAfter s.cfg.inPrompt.length) :
    RaisesIOError (.inChar g) s (callMade (prompted s)) := by
  obtain ⟨e, hp⟩ := serviceIn_past_prompt (k := 0) h
  exact ⟨congrArg Host.Outcome.next (e.trans (serviceInWait_fails_at_read hp.now)),
    (prompted_only s).trans (callMade_only _)⟩

/-- The state at a failing echo: the character is taken, and nothing written. -/
def echoFailed (rest : List Byte) (s : State) : State := { callMade (callMade s) with conIn := rest }

theorem echoFailed_only (hc : s.conIn = c :: rest) : ConsoleOnly s (echoFailed rest s) :=
  ((callMade_only s).trans (callMade_only _)).trans (take_only hc)

theorem serviceInWait_fails_at_echo (h : s.failsAfter 1) (hc : s.conIn = c :: rest) :
    serviceInWait g ir s0 s = raiseFault .ioError (fetchedFrom s0) ir s0 (echoFailed rest s) := by
  obtain ⟨hget, hput⟩ := h.step
  rw [serviceInWait, consoleGet_pending hget hc, orIOError_ok]
  dsimp only
  rw [consolePut_fails (by exact hput.now), orIOError_fail]
  rfl

theorem inChar_fails_at_echo (h : s.failsAfter (s.cfg.inPrompt.length + 1)) (hc : s.conIn = c :: rest) :
    RaisesIOError (.inChar g) s (echoFailed rest (prompted s)) := by
  obtain ⟨e, hp⟩ := serviceIn_past_prompt h
  exact ⟨congrArg Host.Outcome.next (e.trans (serviceInWait_fails_at_echo hp hc)),
    (prompted_only s).trans (echoFailed_only hc)⟩

/-! ### A held GETC or IN: in its wait, at its echo (spec/20_memory.md R72) -/

/-- The state in which a held instruction goes on: its fetch and R7 again, without a console call. -/
def resumed (s : State) : State := linkR7 (setPc (s.pc + 1#16) s)

theorem fetchedFrom_setPc_next (s : State) : fetchedFrom (setPc (s.pc + 1#16) s) = s.pc := BitVec.add_sub_cancel _ _

theorem resumeHeld_fails (h : nextCallFails s = true) (d : Held) :
    resumeHeld d s = .next (raiseFault .ioError s.pc (encode d.instr) s (callMade (resumed s))) := by
  rw [← fetchedFrom_setPc_next s]
  cases d with
  | getc g => exact congrArg Host.Outcome.next (serviceGetc_fails (s := setPc (s.pc + 1#16) s) h)
  | inChar g => exact congrArg Host.Outcome.next (serviceInWait_fails_at_read (s := resumed s) h)

theorem resumeHeld_fails_at_echo (h : s.failsAfter 1) (hc : s.conIn = c :: rest) :
    resumeHeld (.inChar g) s =
      .next (raiseFault .ioError s.pc (encode (.inChar g)) s (echoFailed rest (resumed s))) := by
  rw [← fetchedFrom_setPc_next s]
  exact congrArg Host.Outcome.next (serviceInWait_fails_at_echo (s := resumed s) h hc)

/-! ### PUTS and PUTSP: after a string (R238, R242) -/

theorem puts_fails (hs : StringAtR0 (· ≠ 0) ws w s) (hw : w ≠ 0) (h : s.failsAfter ws.length) :
    RaisesIOError (.puts g) s (callMade (putsPast ws s)) := by
  have hu := putsPast_only ws s
  obtain ⟨hn, hf⟩ := State.failsAfter.later (k := 0) (t := putsPast ws s) h rfl
  obtain ⟨fuel, e⟩ := hs.putsLoop_eq hn
  have hfail := e.trans (putsLoop_fails (hs.memRead_last hu) hw (consolePut_fails hf.now _))
  exact ⟨congrArg (endScan _ s) hfail, hu.trans (callMade_only _)⟩

theorem putsp_fails_at_low (hs : StringAtR0 twoBytes ws w s) (hl : lowByte w ≠ 0) (h : s.failsAfter (2 * ws.length)) :
    RaisesIOError (.putsp g) s (callMade (putspPast ws s)) := by
  have hu := putspPast_only ws s
  obtain ⟨hn, hf⟩ := State.failsAfter.later (k := 0) (t := putspPast ws s) h rfl
  obtain ⟨fuel, e⟩ := hs.putspLoop_eq hn
  have hfail := e.trans (putspLoop_fails_at_low (hs.memRead_last hu) hl (consolePut_fails hf.now _))
  exact ⟨congrArg (endScan _ s) hfail, hu.trans (callMade_only _)⟩

theorem putsp_fails_at_high (hs : StringAtR0 twoBytes ws w s) (hw : twoBytes w)
    (h : s.failsAfter (2 * ws.length + 1)) :
    RaisesIOError (.putsp g) s
      (callMade { callMade (putspPast ws s) with conOut := (putspPast ws s).conOut ++ [lowByte w] }) := by
  have hu := putspPast_only ws s
  obtain ⟨hn, hf⟩ := State.failsAfter.later (k := 1) (t := putspPast ws s) h rfl
  obtain ⟨fuel, e⟩ := hs.putspLoop_eq hn
  obtain ⟨hlow, hhigh⟩ := hf.step
  have hput := consolePut_answers hlow (lowByte w)
  have hfail := e.trans (putspLoop_fails_at_high (hs.memRead_last hu) hw.1 hput hw.2
    (consolePut_fails (by exact hhigh.now) _))
  exact ⟨congrArg (endScan _ s) hfail, (hu.trans (consolePut_ok_only hput)).trans (callMade_only _)⟩

/-! ### The statements -/

/-- Settles O60: one lemma for each call that can fail. -/
theorem failingServiceKeepsWhatItHasDone : Obligations.FailingServiceKeepsWhatItHasDone := by
  intro g s
  refine ⟨fun n hn h => ?_, fun c rest hc h => ?_, fun d hr hd h => ?_, fun c rest hr hd hc h => ?_,
    fun ws w hp hw hz h0 h => ?_, fun ws w hp hw hz hl => ⟨fun h => ?_, fun hh h => ?_⟩⟩
  · rcases hn.lt_or_eq with hlt | rfl
    · have hf := inChar_fails_in_prompt (g := g) hlt h
      exact ⟨_, hf.ends, hf.faults, rfl, rfl, rfl⟩
    · have hf := inChar_fails_at_read (g := g) h
      rw [List.take_length]
      exact ⟨_, hf.ends, hf.faults, rfl, rfl, rfl⟩
  · have hf := inChar_fails_at_echo (g := g) h hc
    exact ⟨_, hf.ends, hf.faults, rfl, rfl, rfl⟩
  · exact ⟨_, (step_held hr hd).trans (resumeHeld_fails h.now d), faultsWith_raiseFault _ _ _ ⟨rfl, rfl, rfl⟩,
      rfl, rfl, rfl⟩
  · exact ⟨_, (step_held hr hd).trans (resumeHeld_fails_at_echo h hc), faultsWith_raiseFault _ _ _ ⟨rfl, rfl, rfl⟩,
      rfl, rfl, rfl⟩
  · have hf := puts_fails (g := g) ⟨hp, hw, hz⟩ h0 h
    exact ⟨_, hf.ends, hf.faults, rfl, rfl, rfl⟩
  · have hf := putsp_fails_at_low (g := g) ⟨hp, hw, hz⟩ hl h
    exact ⟨_, hf.ends, hf.faults, rfl, rfl, rfl⟩
  · have hf := putsp_fails_at_high (g := g) ⟨hp, hw, hz⟩ ⟨hl, hh⟩ h
    exact ⟨_, hf.ends, hf.faults, rfl, rfl, rfl⟩

/-- Settles O40: for PUTS and PUTSP the string before the failing call is empty. -/
theorem failingConsoleRaisesIOError : Obligations.FailingConsoleRaisesIOError := by
  intro i g s h hi
  suffices hf : ∃ u, RaisesIOError i s u ∧ u.conIn = s.conIn ∧ u.conOut = s.conOut ∧ u.kbdrLatch = s.kbdrLatch ∧
      u.conFails = s.conFails.tail by
    obtain ⟨u, hf, hu⟩ := hf
    exact ⟨_, hf.ends, hf.faults, hu⟩
  have h0 := failsAfter_zero h
  rcases hi with rfl | rfl | rfl | rfl | ⟨rfl, hp, hw⟩ | ⟨rfl, hp, hl⟩
  · exact ⟨_, getc_fails h, rfl, rfl, rfl, rfl⟩
  · exact ⟨_, out_fails h, rfl, rfl, rfl, rfl⟩
  · by_cases hz : s.cfg.inPrompt = []
    · exact ⟨_, inChar_fails_at_read (by rwa [hz]), rfl, by simp [prompted, hz], rfl, by simp [prompted, hz]⟩
    · exact ⟨_, inChar_fails_in_prompt (List.length_pos_iff.mpr hz) h0, rfl, List.append_nil _, rfl, List.drop_one⟩
  · exact ⟨_, halt_fails h, rfl, rfl, rfl, rfl⟩
  · exact ⟨_, puts_fails (.nil hp) hw h0, rfl, List.append_nil _, rfl, rfl⟩
  · exact ⟨_, putsp_fails_at_low (.nil hp) hl h0, rfl, List.append_nil _, rfl, rfl⟩

end Sys2Proof.Machine
end

section
/-! PROOFS. Faults are precise (spec/60_exceptions.md R264, R266): a step that ends in FAULTED is one `raise` from the state
before its fetch, and the Word it records is the held instruction's, the fetched one, or 0x0000 for a failed fetch. -/
namespace Sys2Proof.Machine

variable {i : Instr} {k : FaultKind} {pc0 ir : Word} {s s0 t u : State}

/-- `raise` takes the registers, the flags and memory from the state the instruction began in, and nothing else. -/
theorem raiseFault_congr (hr : s0.regs = s.regs) (hc : s0.cond = s.cond) (hm : s0.mem = s.mem) :
    raiseFault k pc0 ir s0 u = raiseFault k pc0 ir s u := by
  simp [raiseFault, uncommitted, hr, hc, hm]

/-- Of the ends of an instruction only a fault leaves FAULTED: HALT leaves HALTED, the others keep RUNNING. -/
theorem exec_faulted (hr : s.run = .running) (h : exec i s = .next t) (hf : t.run = .faulted) :
    ∃ k u, k ≠ .none ∧ t = raiseFault k (fetchedFrom s) (encode i) s u := by
  have still {u : State} (hu : u.run = s.run) (e : u.run = .faulted) : False := by simp [hu, hr] at e
  cases exec_ends h with
  | fault k u _ hk ht => exact ⟨k, u, hk, ht⟩
  | store ea v u _ hu ht => subst ht; exact (still ((memWrite_run ea v u).trans hu.run) hf).elim
  | result dr v u _ hu ht | trapDone u _ _ hu ht | trapChar c u _ _ hu ht | held w u _ _ hu ht =>
    subst ht; exact (still hu.run hf).elim
  | jump _ _ ht | link _ _ _ ht => subst ht; exact (still rfl hf).elim
  | trapHalt u _ _ _ ht => subst ht; cases hf

/-- A step of a held core that faults records the held instruction's Word. -/
theorem resumeHeld_faulted {w : Held} (hr : s.run = .running) (h : resumeHeld w s = .next t) (hf : t.run = .faulted) :
    ∃ u, t = raiseFault .ioError s.pc (encode w.instr) s u := by
  have still {u : State} (hu : ConsoleOnly (linkR7 (setPc (s.pc + 1#16) s)) u) (e : u.run = .faulted) : False := by
    simp [hu.run, hr] at e
  rcases resumeHeld_cases w (Eq.refl (setPc (s.pc + 1#16) s)) with ⟨u, _, e⟩ | ⟨u, hu, e⟩ | ⟨c, u, hu, e⟩ <;>
    rw [e] at h <;> cases h
  · exact ⟨u, by rw [fetchedFrom_setPc_next]; rfl⟩
  · exact (still hu hf).elim
  · exact (still hu hf).elim

/-- Which Word and kind a faulting step from `s` records, by what the step began with. -/
inductive FaultRecords (s : State) (k : FaultKind) (ir : Word) : Prop where
  | held (w : Held) (hh : s.hold = some w) (hir : ir = encode w.instr)
  | fetched (u : State) (hh : s.hold = none) (hf : fetch s = .ok ir u)
  | fetchFailed (u : State) (hh : s.hold = none) (hf : fetch s = .fail u) (hir : ir = 0) (hk : k = .ioError)

/-- Every step that ends in FAULTED is one `raise` from the state before its fetch. -/
theorem step_faulted (hr : s.run = .running) (h : step s = .next t) (hf : t.run = .faulted) :
    ∃ k ir u, k ≠ .none ∧ FaultRecords s k ir ∧ t = raiseFault k s.pc ir s u := by
  rcases step_cases s with ⟨hn, _⟩ | ⟨w, _, hh, e⟩ | ⟨_, _, _, e⟩ | ⟨u, ⟨_, hh, _⟩, hu, e⟩ |
      ⟨ir, u, ⟨_, hh, _⟩, hu, e⟩
  · exact absurd hr hn
  · obtain ⟨u, rfl⟩ := resumeHeld_faulted hr (e.symm.trans h) hf
    exact ⟨.ioError, _, u, by decide, .held w hh rfl, rfl⟩
  · rw [e] at h; cases h; cases hf
  · rw [e] at h; cases h
    exact ⟨.ioError, 0, u, by decide, .fetchFailed u hh hu rfl rfl, rfl⟩
  · obtain ⟨v, _, rfl, hv⟩ := fetch_ok hu
    obtain ⟨k, x, hk, rfl⟩ := exec_faulted (s := setPc (s.pc + 1#16) v) (hv.run.trans hr) (e.symm.trans h) hf
    obtain ⟨hregs, _, hcond, hmem, _⟩ := hv.fields
    refine ⟨k, ir, x, hk, .fetched _ hh hu, ?_⟩
    rw [encode_decode, fetchedFrom, setPc_pc, BitVec.add_sub_cancel]
    exact raiseFault_congr hregs hcond hmem

/-- Settles O46: what `raise` leaves, and the Word it records by how the step began. -/
theorem faultsArePrecise : Obligations.FaultsArePrecise := by
  intro s t hr h hf
  obtain ⟨k, ir, u, hk, hrec, rfl⟩ := step_faulted hr h hf
  refine ⟨fun _ _ => rfl, rfl, rfl, fun _ => rfl, hk, rfl, rfl, ?_⟩
  cases hrec with
  | held w hh hir =>
    exact ⟨fun w' hw => by cases hh.symm.trans hw; exact hir, fun hn => by simp [hh] at hn, fun hn => by simp [hh] at hn⟩
  | fetched v hh hv =>
    exact ⟨fun w hw => by simp [hh] at hw, fun _ w x hx => by cases hv.symm.trans hx; rfl,
      fun _ x hx => by simp [hv] at hx⟩
  | fetchFailed v hh hv hir hkind =>
    exact ⟨fun w hw => by simp [hh] at hw, fun _ w x hx => by simp [hv] at hx, fun _ _ _ => ⟨hir, hkind⟩⟩

end Sys2Proof.Machine
end

section
/-! PROOFS. Which Words fault (spec/60_exceptions.md R261 to R263): RTI, RESERVED and the general TRAP row always raise their
own fault; every other instruction can only raise IOError, and only where a console call fails. -/
namespace Sys2Proof.Machine

variable {i : Instr} {ir : Word} {s s0 t u : State}

/-! ### The instructions that always fault -/

/-- The fault that an instruction raises whatever the state (R261, R262). -/
def ownFault : Instr → Option FaultKind
  | .rti _ | .reserved _ => some .illegalInstruction
  | .trap _ _ => some .illegalTrap
  | .br _ _ _ _ | .addReg _ _ _ _ | .addImm _ _ _ | .ld _ _ | .st _ _ | .jsrr _ _ _ | .jsr _ | .andReg _ _ _ _
  | .andImm _ _ _ | .ldr _ _ _ | .str _ _ _ | .not _ _ _ | .ldi _ _ | .sti _ _ | .jmp _ _ _ | .lea _ _ | .getc _
  | .out _ | .puts _ | .inChar _ | .putsp _ | .halt _ => none

theorem exec_ownFault {k : FaultKind} (hi : i.WellFormed) (hk : ownFault i = some k) (s : State) :
    exec i s = .next (raiseFault k (s.pc - 1#16) (encode i) s s) := by
  cases i with
  | rti g => cases hk; exact exec_rti g s
  | reserved g => cases hk; exact exec_reserved g s
  | trap v g => cases hk; exact exec_trap_general (trap_wellFormed.mp hi) g s
  | _ => cases hk

theorem ownFault_decodeTrap (w : Word) :
    ownFault (decodeTrap w) = if isServiceVector (field w 0 8) then none else some .illegalTrap := by
  cases h : isServiceVector (field w 0 8) with
  | true =>
    obtain ⟨hlo, hhi⟩ := of_decide_eq_true h
    unfold decodeTrap
    interval_cases (field w 0 8).toNat <;> rfl
  | false => rw [decodeTrap_general h]; rfl

theorem ownFault_decode (w : Word) :
    ownFault (decode w) =
      if field w 12 4 = 0b1101#4 ∨ field w 12 4 = 0b1000#4 then some .illegalInstruction
      else if field w 12 4 = 0b1111#4 then (if isServiceVector (field w 0 8) then none else some .illegalTrap)
      else none := by
  simp only [← BitVec.toNat_inj]
  unfold decode
  split <;> rename_i h
  case h_16 =>
    have hop : (field w 12 4).toNat = 15 := by simp only [imp_false] at *; omega
    simp [hop, ownFault_decodeTrap]
  case h_2 | h_6 => unfold decodeOperate; split <;> simp [h, ownFault]
  case h_5 => unfold decodeJump; split <;> simp [h, ownFault]
  all_goals simp [h, ownFault]

/-- The Words of R261. -/
theorem ownFault_decode_illegalInstruction (w : Word) :
    ownFault (decode w) = some .illegalInstruction ↔ field w 12 4 = 0b1101#4 ∨ field w 12 4 = 0b1000#4 := by
  rw [ownFault_decode]
  split_ifs <;> simp [*]

/-- The Words of R262. -/
theorem ownFault_decode_illegalTrap (w : Word) :
    ownFault (decode w) = some .illegalTrap ↔
      field w 12 4 = 0b1111#4 ∧ ¬ (0x20 ≤ (field w 0 8).toNat ∧ (field w 0 8).toNat ≤ 0x25) := by
  rw [← decide_eq_false_iff_not, ownFault_decode]
  change _ ↔ _ ∧ isServiceVector (field w 0 8) = false
  split_ifs with hi hf hv
  · rcases hi with h | h <;> simp [h]
  · simp [hv]
  · simp [hf, hv]
  · simp [hf]

/-! ### A fault that only a failing console raises (R263) -/

/-- Where `t` is FAULTED it is so by an IOError, and the console of `s` fails some call. -/
def FaultsByConsole (s t : State) : Prop := t.run = .faulted → t.faultKind = .ioError ∧ ¬ s.consoleNeverFails

theorem FaultsByConsole.of_run (hr : s.run = .running) (h : t.run = s.run ∨ t.run = .halted) : FaultsByConsole s t := by
  intro hf
  rcases h with h | h <;> simp [h, hr] at hf

/-- Console calls use up answers and put none in their place. -/
theorem ConsoleOnly.consoleNeverFails (h : ConsoleOnly s u) (hn : s.consoleNeverFails) : u.consoleNeverFails := by
  obtain ⟨used, e⟩ := h.used
  exact fun b hb => hn b (e ▸ List.mem_append_right used hb)

/-- Of `orIOError`: its answer fails only where a call fails, and it goes on only to faults of the console. -/
theorem FaultsByConsole.orIOError {α : Type} {r : Con α} {k : α → State → State}
    (hr : s.consoleNeverFails → ∀ u, r ≠ .fail u) (hk : ∀ a u, r = .ok a u → FaultsByConsole s (k a u)) :
    FaultsByConsole s (orIOError ir s0 r k) := by
  rcases orIOError_cases ir s0 r k with ⟨u, e, h⟩ | ⟨a, u, e, h⟩ <;> rw [h]
  · exact fun _ => ⟨rfl, fun hn => hr hn u e⟩
  · exact hk a u e

theorem memRead_ne_fail (hn : s.consoleNeverFails) (a : Word) (u : State) : memRead a s ≠ .fail u := by
  obtain ⟨v, t, e, _⟩ := memRead_answers hn a
  simp [e]

theorem readIndirect_ne_fail (hn : s.consoleNeverFails) (o : BitVec 9) (u : State) : readIndirect o s ≠ .fail u := by
  obtain ⟨ea, t, e, ht⟩ := memRead_answers hn (pcRel9 o s)
  simpa [readIndirect, indirect9, e] using memRead_ne_fail ht ea u

theorem consoleGet_ne_fail (hn : s.consoleNeverFails) (u : State) : consoleGet s ≠ .fail u := by
  simp [consoleGet_answers hn.next]

theorem consolePut_ne_fail (hn : s.consoleNeverFails) (b : Byte) (u : State) : consolePut b s ≠ .fail u := by
  simp [consolePut_answers hn.next]

/-! ### The services -/

theorem serviceInWait_faultsByConsole (g : BitVec 4) (hu : ConsoleOnly (linkR7 s) u) (hr : s.run = .running) :
    FaultsByConsole s (serviceInWait g ir s0 u) := by
  refine .orIOError (fun hn => consoleGet_ne_fail (hu.consoleNeverFails hn)) fun c v hv => ?_
  have hv' := hu.trans (consoleGet_ok_only hv)
  cases c with
  | none => exact .of_run hr (.inl hv'.run)
  | some c =>
    refine .orIOError (fun hn => consolePut_ne_fail (hv'.consoleNeverFails hn) c) fun _ x hx => ?_
    exact .of_run hr (.inl (hv'.trans (consolePut_ok_only hx)).run)

theorem serviceGetc_faultsByConsole (g : BitVec 4) (hr : s.run = .running) : FaultsByConsole s (serviceGetc g ir s) := by
  refine .orIOError (fun hn => consoleGet_ne_fail (s := linkR7 s) hn) fun c v hv => ?_
  cases c <;> exact .of_run hr (.inl (consoleGet_ok_only hv).run)

theorem serviceIn_faultsByConsole (g : BitVec 4) (hr : s.run = .running) : FaultsByConsole s (serviceIn g ir s) := by
  have hp := consolePutAll_only s.cfg.inPrompt (linkR7 s)
  refine .orIOError (fun hn u => ?_) fun _ u hu => ?_
  · simp [consolePutAll_answers (s := linkR7 s) hn]
  · rw [hu] at hp
    exact serviceInWait_faultsByConsole g hp hr

theorem putsLoop_ne_fail (fuel : Nat) (a : Word) (hn : s.consoleNeverFails) (u : State) : putsLoop fuel a s ≠ .fail u := by
  induction fuel generalizing a s with
  | zero => simp [putsLoop]
  | succ fuel ih =>
    obtain ⟨w, v, hm, hv⟩ := memRead_answers hn a
    by_cases hz : w = 0
    · subst hz; simp [putsLoop_stops hm]
    · have hp := consolePut_answers hv.next (lowByte w)
      rw [putsLoop_goes_on hm hz hp]
      exact ih (a + 1#16) ((consolePut_ok_only hp).consoleNeverFails hv)

theorem putspLoop_ne_fail (fuel : Nat) (a : Word) (hn : s.consoleNeverFails) (u : State) :
    putspLoop fuel a s ≠ .fail u := by
  induction fuel generalizing a s with
  | zero => simp [putspLoop]
  | succ fuel ih =>
    obtain ⟨w, v, hm, hv⟩ := memRead_answers hn a
    by_cases hl : lowByte w = 0
    · simp [putspLoop_stops_at_low hm hl]
    · have hp := consolePut_answers hv.next (lowByte w)
      by_cases hh : highByte w = 0
      · simp [putspLoop_stops_at_high hm hl hp hh]
      · have hv' := (consolePut_ok_only hp).consoleNeverFails hv
        have hq := consolePut_answers hv'.next (highByte w)
        rw [putspLoop_goes_on hm hl hp hh hq]
        exact ih (a + 1#16) ((consolePut_ok_only hq).consoleNeverFails hv')

theorem endScan_faultsByConsole {r : Scan} (hr : s.run = .running) (hn : s.consoleNeverFails → ∀ u, r ≠ .fail u)
    (hd : r = .done t → ConsoleOnly (linkR7 s) t) (h : endScan ir s0 r = .next t) : FaultsByConsole s t := by
  rcases endScan_next h with e | ⟨u, e, rfl⟩
  · exact .of_run hr (.inl (hd e).run)
  · exact fun _ => ⟨rfl, fun hs => hn hs u e⟩

/-! ### Every instruction -/

/-- An instruction without a fault of its own faults only by a console that fails. -/
theorem exec_faultsByConsole (hi : ownFault i = none) (hr : s.run = .running) (h : exec i s = .next t) :
    FaultsByConsole s t := by
  cases i with
  | rti | reserved | trap => cases hi
  | addReg | addImm | andReg | andImm | not | lea | jmp | jsr | jsrr => cases h; exact .of_run hr (.inl rfl)
  | br n z p o => rw [exec_br] at h; cases h; exact .of_run hr (.inl rfl)
  | st | str => cases h; exact .of_run hr (.inl (memWrite_run _ _ s))
  | ld d o | ldr d b o =>
    cases h
    exact .orIOError (fun hn => memRead_ne_fail hn _) fun v u hu => .of_run hr (.inl (memRead_ok_only hu).run)
  | sti a o =>
    cases h
    exact .orIOError (fun hn => memRead_ne_fail hn _) fun ea u hu =>
      .of_run hr (.inl ((memWrite_run ea _ u).trans (memRead_ok_only hu).run))
  | ldi d o =>
    cases h
    refine .orIOError (fun hn => readIndirect_ne_fail hn o) fun v u hu => .of_run hr (.inl ?_)
    have hc := readIndirect_only o s
    rw [hu] at hc
    exact hc.run
  | getc g => cases h; exact serviceGetc_faultsByConsole g hr
  | inChar g => cases h; exact serviceIn_faultsByConsole g hr
  | out g =>
    cases h
    exact .orIOError (fun hn => consolePut_ne_fail (s := linkR7 s) hn _) fun _ u hu =>
      .of_run hr (.inl (consolePut_ok_only hu).run)
  | halt g =>
    cases h
    refine .orIOError (fun hn u => ?_) fun _ u _ => .of_run hr (.inr rfl)
    simp [consoleFlush_answers (s := linkR7 s) hn.next]
  | puts g =>
    exact endScan_faultsByConsole hr (putsLoop_ne_fail (s := linkR7 s) _ _) (fun e => putsLoop_only _ _ _ _ (.inl e)) h
  | putsp g =>
    exact endScan_faultsByConsole hr (putspLoop_ne_fail (s := linkR7 s) _ _) (fun e => putspLoop_only _ _ _ _ (.inl e)) h

/-- Which instructions end FAULTED with a fault other than IOError. -/
theorem exec_faults_iff {k : FaultKind} (hi : i.WellFormed) (hr : s.run = .running) (h : exec i s = .next t)
    (hk : k ≠ .ioError) : (t.run = .faulted ∧ t.faultKind = k) ↔ ownFault i = some k := by
  cases ho : ownFault i with
  | none =>
    refine ⟨fun ⟨hf, e⟩ => ?_, fun e => nomatch e⟩
    exact absurd (e.symm.trans (exec_faultsByConsole ho hr h hf).1) hk
  | some k' =>
    cases (exec_ownFault hi ho s).symm.trans h
    simp

theorem ownFault_ne_ioError (i : Instr) : ownFault i ≠ some .ioError := by
  cases i <;> simp [ownFault]

/-- An IOError needs a console that fails (R263). -/
theorem exec_ioError (hi : i.WellFormed) (hr : s.run = .running) (h : exec i s = .next t) (hf : t.run = .faulted)
    (hk : t.faultKind = .ioError) : ¬ s.consoleNeverFails := by
  cases ho : ownFault i with
  | none => exact (exec_faultsByConsole ho hr h hf).2
  | some k =>
    cases (exec_ownFault hi ho s).symm.trans h
    exact absurd (hk ▸ ho) (ownFault_ne_ioError i)

theorem FaultKind.code_injective : Function.Injective FaultKind.code := by
  intro a b
  cases a <;> cases b <;> decide

theorem FaultKind.code_eq_iff (a b : FaultKind) : a.code = b.code ↔ a = b := code_injective.eq_iff

/-- Settles O47: which Words decode to an instruction with a fault of its own, and that any other fault needs a console that
fails. -/
theorem faultKindFollowsTheWord : Obligations.FaultKindFollowsTheWord := by
  intro s t u ir hw hu h
  have ⟨hr, hh, _⟩ := hw
  obtain ⟨v, hm, rfl, hv⟩ := fetch_ok hu
  have he : exec (decode ir) (setPc (s.pc + 1#16) v) = .next t := (step_of_memRead hw hm).symm.trans h
  have hrv : (setPc (s.pc + 1#16) v).run = .running := hv.run.trans hr
  have kind {k : FaultKind} (hk : k ≠ .ioError) := exec_faults_iff (decode_wf ir) hrv he hk
  refine ⟨?_, ?_, fun hf => ?_, fun ⟨hf, hc⟩ hn => ?_⟩
  · exact (and_congr_right' (FaultKind.code_eq_iff _ .illegalInstruction)).trans
      ((kind (by decide)).trans (ownFault_decode_illegalInstruction ir))
  · exact (and_congr_right' (FaultKind.code_eq_iff _ .illegalTrap)).trans
      ((kind (by decide)).trans (ownFault_decode_illegalTrap ir))
  · obtain ⟨_, _, _, _, _, hpc, _, _, hir, _⟩ := faultsArePrecise s t hr h hf
    exact ⟨hpc, hir hh ir _ hu⟩
  · have hk : t.faultKind = .ioError := (FaultKind.code_eq_iff t.faultKind .ioError).mp hc
    exact exec_ioError (decode_wf ir) hrv he hf hk (hv.consoleNeverFails hn)

end Sys2Proof.Machine
end

section
/-! PROOFS. Loading an object file (spec/70_reset_and_hazards.md R306, R307): what its bytes parse to, where its Words go,
and what follows a load that is refused. -/
namespace Sys2Proof.Machine

variable {s t : State} {file : List Byte} {o : Word} {ws : List Word} {why : LoadError}

/-! ### The bytes of an object file -/

theorem highByte_append_lowByte (w : Word) : highByte w ++ lowByte w = w := by
  apply BitVec.eq_of_toNat_eq
  rw [toNat_append_eq]
  simp only [highByte, lowByte, BitVec.extractLsb'_toNat, Nat.shiftRight_eq_div_pow]
  omega

@[simp] theorem length_objectBytes (ws : List Word) : (objectBytes ws).length = 2 * ws.length := by
  simp [objectBytes, List.length_flatMap, Nat.mul_comm]

theorem bigEndianWords_objectBytes (ws : List Word) : bigEndianWords (objectBytes ws) = some ws := by
  induction ws with
  | nil => rfl
  | cons w ws ih =>
    change bigEndianWords (highByte w :: lowByte w :: objectBytes ws) = _
    rw [bigEndianWords, ih, highByte_append_lowByte]

theorem bigEndianWords_odd : ∀ {file : List Byte}, file.length % 2 = 1 → bigEndianWords file = none
  | [], h => nomatch h
  | [_], _ => rfl
  | b0 :: b1 :: rest, h => by
    rw [bigEndianWords, bigEndianWords_odd (file := rest) (by simpa [Nat.add_assoc] using h)]

theorem parseObjectFile_odd {m : Word} (hl : 2 ≤ file.length) (h : file.length % 2 = 1) :
    parseObjectFile m file = .refused .truncated := by
  rw [parseObjectFile, if_neg (by omega), bigEndianWords_odd h]

/-- The conditions (c) and (d) of R307, on a file of whole Words. -/
theorem parseObjectFile_objectBytes (m o : Word) (ws : List Word) :
    parseObjectFile m (objectBytes (o :: ws)) =
      if 65536 < o.toNat + ws.length then .refused .pastEnd
      else if o.toNat < m.toNat then .refused .lowOrigin
      else .image o ws := by
  have hl : ¬ (objectBytes (o :: ws)).length < 2 := by rw [length_objectBytes, List.length_cons]; omega
  rw [parseObjectFile, if_neg hl, bigEndianWords_objectBytes]

/-! ### The move -/

theorem hostMove_load_refused (hr : s.run = .idle) (hl : s.loadStatus = .notLoaded)
    (h : parseObjectFile s.cfg.loadMinOrigin file = .refused why) :
    hostMove (.load file) s = .loadError why { s with loadStatus := .failed } := by
  simp [hostMove, hostLoad, hr, hl, h, failLoad]

theorem hostMove_load_image (hr : s.run = .idle) (hl : s.loadStatus = .notLoaded)
    (h : parseObjectFile s.cfg.loadMinOrigin file = .image o ws) :
    hostMove (.load file) s = .done (loadImage o ws s) := by
  simp [hostMove, hostLoad, hr, hl, h]

/-! ### Where the Words go -/

theorem toNat_add_one (a : Word) : (a + 1#16).toNat = (a.toNat + 1) % 65536 := BitVec.toNat_add a 1#16

theorem memWrite_read_other {a v : Word} {b : Nat} (h : b ≠ a.toNat) (s : State) :
    (memWrite a v s).mem.read b = s.mem.read b := by
  unfold memWrite
  split
  · rfl
  · exact Memory.read_write_other h v s.mem

theorem storeWords_read_outside (ws : List Word) (a : Word) (s : State) {b : Nat} (hfit : a.toNat + ws.length ≤ 65536)
    (h : b < a.toNat ∨ a.toNat + ws.length ≤ b) : (storeWords a ws s).mem.read b = s.mem.read b := by
  induction ws generalizing a s with
  | nil => rfl
  | cons w ws ih =>
    rw [List.length_cons] at hfit h
    have ha := toNat_add_one a
    rw [storeWords, ih (a + 1#16) (memWrite a w s) (by omega) (by omega), memWrite_read_other (by omega)]

theorem storeWords_read_device (ws : List Word) (a : Word) {b : Word} (h : ¬ s.plain b) :
    (storeWords a ws s).mem.read b.toNat = s.mem.read b.toNat := by
  induction ws generalizing a s with
  | nil => rfl
  | cons w ws ih =>
    rw [storeWords, ih (a + 1#16) (by simpa [State.plain] using h)]
    by_cases hb : b = a
    · subst hb
      rw [memWrite_device b w s (isDevice_eq_true.mpr h)]
    · exact memWrite_read_other (fun e => hb (BitVec.eq_of_toNat_eq e)) s

theorem storeWords_read_at (ws : List Word) (a : Word) (hm : s.mem.wf = true) (hfit : a.toNat + ws.length ≤ 65536)
    (k : Nat) (hk : k < ws.length) (hp : s.plain (a + BitVec.ofNat 16 k)) :
    (storeWords a ws s).mem.read (a.toNat + k) = ws[k] := by
  induction ws generalizing a s k with
  | nil => cases hk
  | cons w ws ih =>
    rw [List.length_cons] at hfit hk
    have ha := toNat_add_one a
    rw [storeWords]
    cases k with
    | zero =>
      have hp' : s.plain a := by simpa using hp
      rw [storeWords_read_outside ws _ _ (by omega) (by omega), Nat.add_zero, memWrite_read hm,
        if_pos ⟨isDevice_eq_false.mpr hp', rfl⟩]
      rfl
    | succ k =>
      have hp' : (memWrite a w s).plain (a + 1#16 + BitVec.ofNat 16 k) := by
        rw [offset_succ]
        exact memWrite_keeps_plain hp w
      have hnext := ih (a + 1#16) (memWrite_wf hm a w) (by omega) k (by omega) hp'
      rwa [show (a + 1#16).toNat + k = a.toNat + (k + 1) by omega] at hnext

/-- Settles O57: the bytes parse to the image, whose Words are stored one by one. -/
theorem loadPlacesTheImage : Obligations.LoadPlacesTheImage := by
  intro o ws s hr hl hm hfit hmin
  have hparse : parseObjectFile s.cfg.loadMinOrigin (objectBytes (o :: ws)) = .image o ws := by
    rw [parseObjectFile_objectBytes, if_neg (by omega), if_neg (by omega)]
  refine ⟨loadImage o ws s, hostMove_load_image hr hl hparse, rfl, storeWords_read_at ws o hm hfit,
    fun a => storeWords_read_device ws o, fun a => storeWords_read_outside ws o s hfit, ?_⟩
  rw [loadImage_rest]
  exact ⟨fun _ _ => rfl, rfl, hr, ⟨rfl, rfl, rfl, rfl⟩, rfl, rfl, rfl, rfl, rfl, rfl⟩

/-! ### After a LoadError (spec/60_exceptions.md R265) -/

/-- Every move but reset leaves a core whose load has failed in IDLE with its load failed. -/
theorem hostMove_after_loadError {m : HostMove} (hr : s.run = .idle) (hl : s.loadStatus = .failed) (hm : m ≠ .reset)
    (h : hostMove m s = .done t) : t.run = .idle ∧ t.loadStatus = .failed := by
  rcases hostMove_done_cases h with ⟨e, _⟩ | ⟨_, _, _, e, _⟩ | ⟨_, e, _⟩ | ⟨e, _⟩ | ⟨c, rfl⟩ | ⟨b, rfl⟩
  · exact absurd e hm
  · simp [hl] at e
  · exact absurd hl e
  · simp [hr] at e
  · exact ⟨hr, hl⟩
  · exact ⟨hr, hl⟩

theorem hostMove_start_refused (h : s.run ≠ .idle ∨ s.loadStatus = .failed) : hostMove .start s = .noSuchMove :=
  if_neg fun ⟨hr, hl⟩ => h.elim (absurd hr) hl

/-- Settles O58: each condition by what the file parses to, and what a failed load bars. -/
theorem malformedFilesAreLoadErrors : Obligations.MalformedFilesAreLoadErrors := by
  refine ⟨fun file s hr hl => ⟨fun h => ?_, fun h2 hodd => ?_, fun o ws e hc => ?_, fun o ws e hc hd => ?_⟩,
    fun s hr hl => ⟨step_outside_running (by simp [hr]), hostMove_start_refused (.inr hl), fun file => ?_,
      fun m t hm h => hostMove_after_loadError hr hl hm h, hostReset s, rfl, rfl, rfl⟩⟩
  · exact hostMove_load_refused hr hl (if_pos h)
  · exact hostMove_load_refused hr hl (parseObjectFile_odd h2 hodd)
  · subst e
    exact hostMove_load_refused hr hl (by rw [parseObjectFile_objectBytes, if_pos hc])
  · subst e
    exact hostMove_load_refused hr hl (by rw [parseObjectFile_objectBytes, if_neg (by omega), if_pos hd])
  · simp [hostMove, hostLoad, hl]

end Sys2Proof.Machine
end

section
/-! PROOFS. The invariant under the host's moves, and start and stop (spec/70_reset_and_hazards.md R305, R308, R309). -/
namespace Sys2Proof.Machine

variable {s : State}

/-- Settles O53, by the two kinds of reply that carry a state. -/
theorem hostMovesKeepTheInvariant : Obligations.HostMovesKeepTheInvariant := by
  intro m s t h hm
  rcases hm with hd | ⟨why, he⟩
  · exact hostMove_done_inv h hd
  · exact hostMove_loadError_inv h he

/-- A pending stop ends the run in the place of the next instruction. -/
theorem step_honours_stop (hr : s.run = .running) (hh : s.hold = none) (hq : s.stopReq = true) :
    step s = .next (honourStop s) := by
  simp [step, hr, hh, hq]

theorem honourStop_of_requested (h : s.stopReq = false) :
    honourStop { s with stopReq := true } = { s with run := .stopped } := by
  rw [honourStop, ← h]

/-- Settles O59: the two moves by their guards, and the step after a request by whether the core is held. -/
theorem startAndStop : Obligations.StartAndStop := by
  refine ⟨fun s hr hl => if_pos ⟨hr, hl⟩, fun s => hostMove_start_refused, fun s hr => if_neg hr,
    fun s hr hq => ⟨{ s with stopReq := true }, if_pos hr, fun hh => ?_, fun w hw => ?_⟩⟩
  · rw [step_honours_stop (s := { s with stopReq := true }) hr hh rfl, honourStop_of_requested hq]
  · exact step_held hr hw

end Sys2Proof.Machine
end
